-- ==== Sys2Proof/Word.lean ====
section
/-! DEFINITION. The unit of state: a word holds one string of 0 to 15 characters (spec 00_scope.md R6, 10_state.md R20).
Only the type and its plainest constructors stand here; reading and writing integers is Machine/Numerals.lean. -/

namespace Sys2Proof

/-- A `Char` of the spec: a byte with code 1 to 255; code 0 is the terminator and never part of a value (R6). -/
structure Chr where
  code : Nat := 63
  valid : 1 ≤ code ∧ code ≤ 255 := by decide
deriving DecidableEq, Repr, Inhabited

/-- The character with a given code; a code outside 1 to 255 names no character and gives `?`. -/
def Chr.ofNat (n : Nat) : Chr :=
  if h : 1 ≤ n ∧ n ≤ 255 then ⟨n, h⟩ else default

/-- A sequence of characters of any length: an instruction's text, a token, the digits of a number. -/
abbrev Text := List Chr

/-- The characters of a Lean string literal (used for the mnemonics, the register names and the tests). -/
def txt (s : String) : Text :=
  s.toList.map fun c => Chr.ofNat c.toNat

/-- One word: a string of at most 15 characters (R6, R20). The bytes after the terminator are no state. -/
structure Word where
  chars : Text := []
  short : chars.length ≤ 15 := by decide
deriving DecidableEq, Repr, Inhabited

/-- The word that holds the first 15 characters of a text: all of it when the text fits a word. -/
def Word.clip (t : Text) : Word :=
  ⟨t.take 15, by simp [List.length_take]⟩

/-- The empty word `""` of R6. -/
def Word.empty : Word := ⟨[], by decide⟩

/-- The word written as a Lean string literal. -/
def Word.lit (s : String) : Word := Word.clip (txt s)

/-- The least integer whose canonical text fits a word: `-` and 14 nines (R5, decision D4). -/
def wordIntMin : Int := -99999999999999

/-- The greatest integer whose canonical text fits a word: 15 nines (R5, decision D4). -/
def wordIntMax : Int := 999999999999999

end Sys2Proof
end

