-- ==== Sys2Proof/Machine/Numerals.lean ====
section
/-! DEFINITION. Integers as decimal text: `isInt`, `int` and `str` of spec 00_scope.md R7 (decisions D3, D4). -/

namespace Sys2Proof

/-- The code of `0` in ASCII (93_implementation_defined.md section 5, remark 3). -/
def Chr.isDigit (c : Chr) : Bool := Nat.ble 48 c.code && Nat.ble c.code 57

/-- The value of a decimal digit. -/
def Chr.digitValue (c : Chr) : Nat := c.code - 48

/-- The decimal digit of a number below ten. -/
def Chr.ofDigit (d : Nat) : Chr := Chr.ofNat (48 + d % 10)

/-- The minus sign, code 45. -/
def Chr.minus : Chr := Chr.ofNat 45

/-- The value of a run of digits, most significant first (R65 (b)). -/
def natOfDigits (t : Text) : Nat :=
  t.foldl (fun acc c => acc * 10 + c.digitValue) 0

/-- A text of one or more decimal digits and nothing else. -/
def isDigits (t : Text) : Bool := !t.isEmpty && t.all Chr.isDigit

/-- `int` of R7 on a text, `none` where `isInt` fails: an optional `-`, then one or more digits, leading zeros accepted. -/
def parseInt : Text → Option Int
  | [] => none
  | c :: rest =>
    if c = Chr.minus then
      if isDigits rest then some (-(natOfDigits rest : Int)) else none
    else
      if isDigits (c :: rest) then some (natOfDigits (c :: rest) : Int) else none

/-- The digits of a number put before a text; the fuel bounds the number of digits. -/
def digitsBefore : Nat → Nat → Text → Text
  | 0, _, acc => acc
  | fuel + 1, n, acc =>
    if n < 10 then Chr.ofDigit n :: acc
    else digitsBefore fuel (n / 10) (Chr.ofDigit (n % 10) :: acc)

/-- The canonical decimal text of a natural number: no leading zero, `0` for zero (R7). -/
def natText (n : Nat) : Text := digitsBefore (Nat.log2 n + 1) n []

/-- The canonical decimal text of an integer: `-` only for the negative ones (R7). -/
def intText : Int → Text
  | Int.ofNat n => natText n
  | Int.negSucc n => Chr.minus :: natText (n + 1)

/-- `int(w)` of R7, `none` where `isInt(w)` does not hold. -/
def Word.int? (w : Word) : Option Int := parseInt w.chars

/-- `isInt(w)` of R7. -/
def Word.isInt (w : Word) : Bool := w.int?.isSome

/-- `str(n)` of R7 for an `n` whose text fits a word. -/
def Word.ofInt (n : Int) : Word := Word.clip (intText n)

/-- `d2(k)` of R29: k as two decimal digits, for k below 100. -/
def twoDigits (k : Nat) : Text := [Chr.ofDigit (k / 10), Chr.ofDigit (k % 10)]

end Sys2Proof
end

