-- ==== Sys2Proof/Syntax.lean ====
section
/-! DEFINITION. The instructions: one constructor per row of spec/opcode_table.json, which is the form table of
30_encoding.md R86, with the operands of R87 in the order they are written. -/

namespace Sys2Proof

/-- The 34 register names of 10_state.md R21. -/
inductive Reg where
  | r (n : Fin 8)     -- Program Registers R0 to R7
  | s (n : Fin 16)    -- Kernel Registers S0 to S15
  | t (n : Fin 4)     -- Temporary Registers T0 to T3
  | bp | sp | ip | ptbr | ptlr | efr
deriving DecidableEq, Repr

/-- An argument of LOAD and STORE: a register or an integer literal (47_privileged.md R189). -/
inductive Arg where
  | reg (r : Reg)
  | lit (v : Int)
deriving DecidableEq, Repr

/-- The 40 instruction forms. A jump target is never negative (R85), so it is a natural number; `LOC`, an index and an
immediate are any integers; INT's number is checked by WellFormed. -/
inductive Instr where
  -- 40_mov.md
  | movRR (ri rj : Reg)                          -- MOV Ri, Rj
  | movRI (ri : Reg) (imm : Int)                 -- MOV Ri, INTEGER
  | movRS (ri : Reg) (str : Word)                -- MOV Ri, STRING
  | movRM (ri rj : Reg)                          -- MOV Ri, [Rj]
  | movMR (ri rj : Reg)                          -- MOV [Ri], Rj
  | movLR (loc : Int) (rj : Reg)                 -- MOV [LOC], Rj
  | movRL (rj : Reg) (loc : Int)                 -- MOV Rj, [LOC]
  | movLXR (loc : Int) (rj ri : Reg)             -- MOV [LOC] Rj, Ri
  | movLIR (loc index : Int) (rj : Reg)          -- MOV [LOC] Index, Rj
  | movRLX (ri : Reg) (loc : Int) (rj : Reg)     -- MOV Ri, [LOC] Rj
  | movRLI (ri : Reg) (loc index : Int)          -- MOV Ri, [LOC] Index
  -- 41_arithmetic.md
  | add (ri rj : Reg)
  | sub (ri rj : Reg)
  | mul (ri rj : Reg)
  | div (ri rj : Reg)
  | mod (ri rj : Reg)
  | inr (ri : Reg)
  | dcr (ri : Reg)
  -- 42_logical.md
  | lt (ri rj : Reg)
  | gt (ri rj : Reg)
  | eq (ri rj : Reg)
  | ne (ri rj : Reg)
  | ge (ri rj : Reg)
  | le (ri rj : Reg)
  -- 43_branch.md
  | jz (ri : Reg) (target : Nat)
  | jnz (ri : Reg) (target : Nat)
  | jmp (target : Nat)
  -- 44_stack_subroutine.md
  | push (ri : Reg)
  | pop (ri : Reg)
  | call (target : Nat)
  | ret
  -- 45_io_debug_end.md
  | inp (ri : Reg)                               -- IN Ri
  | out (ri : Reg)                               -- OUT Ri
  | brkp
  | fin                                          -- END
  -- 46_int.md
  | int (n : Nat)
  -- 47_privileged.md
  | iret
  | load (page block : Arg)                      -- LOAD pagenum blocknum
  | store (block page : Arg)                     -- STORE blocknum pagenum
  | halt
deriving DecidableEq, Repr

end Sys2Proof
end

