-- ==== Sys2Proof/WellFormed.lean ====
section
/-! DEFINITION. The constraints of 30_encoding.md R83 and R85 on an instruction's literals that its type does not
already carry. Legality under a mode (R90 to R93) is no matter of form: it is Machine/Legality.lean. -/

namespace Sys2Proof

/-- The double quote, code 34, which opens and closes a STR token (R83). -/
def Chr.quote : Chr := Chr.ofNat 34

/-- INT's number is 1 to 7 (R85, D28). -/
def validInterrupt (n : Nat) : Bool := decide (1 ≤ n ∧ n ≤ 7)

/-- A STR cannot contain a double quote (R83). -/
def validString (w : Word) : Bool := w.chars.all fun c => decide (c ≠ Chr.quote)

/-- An instruction that some text spells. -/
def Instr.wellFormed : Instr → Bool
  | .movRR _ _ | .movRI _ _ => true
  | .movRS _ w => validString w
  | .movRM _ _ | .movMR _ _ | .movLR _ _ | .movRL _ _ => true
  | .movLXR _ _ _ | .movLIR _ _ _ | .movRLX _ _ _ | .movRLI _ _ _ => true
  | .add _ _ | .sub _ _ | .mul _ _ | .div _ _ | .mod _ _ => true
  | .inr _ | .dcr _ => true
  | .lt _ _ | .gt _ _ | .eq _ _ | .ne _ _ | .ge _ _ | .le _ _ => true
  | .jz _ _ | .jnz _ _ | .jmp _ => true
  | .push _ | .pop _ | .call _ | .ret => true
  | .inp _ | .out _ | .brkp | .fin => true
  | .int n => validInterrupt n
  | .iret | .load _ _ | .store _ _ | .halt => true

end Sys2Proof
end

