-- ==== Sys2Proof/Decode.lean ====
section
/-! DEFINITION. From an instruction's two words to the instruction and back (30_encoding.md R80 to R89, R98): the text
`w0 ++ w1` is cut into tokens, its names are looked up, and the form table R86 is matched; a text that is no row of the
table is rejected. The encoder writes the canonical spelling of R98 and cuts it after its 15th character (R82). -/

namespace Sys2Proof

/-! ### Names -/

/-- The 30 mnemonics of 00_scope.md R1. -/
inductive Mnemonic where
  | MOV | ADD | SUB | MUL | DIV | MOD | INR | DCR | LT | GT | EQ | NE | GE | LE | JZ | JNZ | JMP
  | PUSH | POP | CALL | RET | IN | OUT | BRKP | END | INT | IRET | LOAD | STORE | HALT
deriving DecidableEq, Repr

/-- Every mnemonic, in the order of R1. -/
def Mnemonic.all : List Mnemonic :=
  [.MOV, .ADD, .SUB, .MUL, .DIV, .MOD, .INR, .DCR, .LT, .GT, .EQ, .NE, .GE, .LE, .JZ, .JNZ, .JMP,
   .PUSH, .POP, .CALL, .RET, .IN, .OUT, .BRKP, .END, .INT, .IRET, .LOAD, .STORE, .HALT]

/-- A mnemonic as it is written: upper case only (R83, R84). -/
def Mnemonic.name : Mnemonic → Text
  | .MOV => txt "MOV"
  | .ADD => txt "ADD"
  | .SUB => txt "SUB"
  | .MUL => txt "MUL"
  | .DIV => txt "DIV"
  | .MOD => txt "MOD"
  | .INR => txt "INR"
  | .DCR => txt "DCR"
  | .LT => txt "LT"
  | .GT => txt "GT"
  | .EQ => txt "EQ"
  | .NE => txt "NE"
  | .GE => txt "GE"
  | .LE => txt "LE"
  | .JZ => txt "JZ"
  | .JNZ => txt "JNZ"
  | .JMP => txt "JMP"
  | .PUSH => txt "PUSH"
  | .POP => txt "POP"
  | .CALL => txt "CALL"
  | .RET => txt "RET"
  | .IN => txt "IN"
  | .OUT => txt "OUT"
  | .BRKP => txt "BRKP"
  | .END => txt "END"
  | .INT => txt "INT"
  | .IRET => txt "IRET"
  | .LOAD => txt "LOAD"
  | .STORE => txt "STORE"
  | .HALT => txt "HALT"

/-- The mnemonic a NAME token spells, if it spells one (R84). -/
def Mnemonic.ofName (t : Text) : Option Mnemonic :=
  Mnemonic.all.find? fun m => m.name == t

/-- Every register, in the order of 10_state.md R21. -/
def Reg.all : List Reg :=
  (List.finRange 8).map .r ++ (List.finRange 16).map .s ++ (List.finRange 4).map .t
    ++ [.bp, .sp, .ip, .ptbr, .ptlr, .efr]

/-- A register's name as it is written (R84): `R01` or `S16` name nothing. -/
def Reg.name : Reg → Text
  | .r n => txt "R" ++ natText n.val
  | .s n => txt "S" ++ natText n.val
  | .t n => txt "T" ++ natText n.val
  | .bp => txt "BP"
  | .sp => txt "SP"
  | .ip => txt "IP"
  | .ptbr => txt "PTBR"
  | .ptlr => txt "PTLR"
  | .efr => txt "EFR"

/-- The register a NAME token spells, if it spells one (R84). -/
def Reg.ofName (t : Text) : Option Reg :=
  Reg.all.find? fun r => r.name == t

/-! ### Tokens (R83) -/

/-- The token kinds of R83; MEM is split by what stands between its brackets. -/
inductive Token where
  | name (t : Text)
  | int (v : Int)
  | str (w : Word)
  | memName (t : Text)
  | memInt (v : Int)
deriving DecidableEq, Repr

/-- Space, horizontal tab and comma separate tokens and carry no other meaning (R83, C4). -/
def Chr.isSeparator (c : Chr) : Bool := c.code == 32 || c.code == 9 || c.code == 44

/-- `A` to `Z`. -/
def Chr.isUpper (c : Chr) : Bool := Nat.ble 65 c.code && Nat.ble c.code 90

/-- `A` to `Z` and `0` to `9`: what a NAME runs over. -/
def Chr.isNameChar (c : Chr) : Bool := c.isUpper || c.isDigit

/-- `[`, code 91. -/
def Chr.openBracket : Chr := Chr.ofNat 91

/-- `]`, code 93. -/
def Chr.closeBracket : Chr := Chr.ofNat 93

/-- The longest run of characters that satisfy `p`, and what follows it. -/
def spanText (p : Chr → Bool) : Text → Text × Text
  | [] => ([], [])
  | c :: cs => if p c then (c :: (spanText p cs).1, (spanText p cs).2) else ([], c :: cs)

/-- An INT at the head of a text: an optional `-` immediately followed by a digit, then the maximal run of digits. -/
def lexInt : Text → Option (Int × Text)
  | [] => none
  | c :: cs =>
    if c = Chr.minus then
      match spanText Chr.isDigit cs with
      | ([], _) => none
      | (d :: ds, rest) => some (-(natOfDigits (d :: ds) : Int), rest)
    else
      match spanText Chr.isDigit (c :: cs) with
      | ([], _) => none
      | (d :: ds, rest) => some ((natOfDigits (d :: ds) : Int), rest)

/-- A NAME or an INT at the head of a text. -/
def lexAtom : Text → Option (Token × Text)
  | [] => none
  | c :: cs =>
    if c.isUpper then some (.name (spanText Chr.isNameChar (c :: cs)).1, (spanText Chr.isNameChar (c :: cs)).2)
    else (lexInt (c :: cs)).map fun p => (.int p.1, p.2)

/-- What follows `[`: immediately one NAME or INT, then immediately `]`. -/
def lexMem (t : Text) : Option (Token × Text) :=
  match lexAtom t with
  | some (.name n, c :: rest) => if c = Chr.closeBracket then some (.memName n, rest) else none
  | some (.int v, c :: rest) => if c = Chr.closeBracket then some (.memInt v, rest) else none
  | _ => none

/-- What follows an opening quote: up to 15 characters verbatim, then the closing quote. -/
def lexStr (t : Text) : Option (Token × Text) :=
  match spanText (fun c => decide (c ≠ Chr.quote)) t with
  | (_, []) => none
  | (body, _ :: rest) => if h : body.length ≤ 15 then some (.str ⟨body, h⟩, rest) else none

/-- The token at the head of a text; `none` where no token kind starts. -/
def lexToken : Text → Option (Token × Text)
  | [] => none
  | c :: cs =>
    if c = Chr.quote then lexStr cs
    else if c = Chr.openBracket then lexMem cs
    else lexAtom (c :: cs)

/-- Every token is followed by the end of the text or by a separator (R83). -/
def tokenEnds : Text → Bool
  | [] => true
  | c :: _ => c.isSeparator

/-- The tokens of a text, runs of separators skipped; `none` where the text is illegal. Every token takes at least one
character, so the length of the text is fuel enough. -/
def tokensFrom : Nat → Text → Option (List Token)
  | 0, _ => none
  | fuel + 1, t =>
    match t.dropWhile Chr.isSeparator with
    | [] => some []
    | c :: cs =>
      match lexToken (c :: cs) with
      | none => none
      | some (tok, rest) => if tokenEnds rest then (tokensFrom fuel rest).map (tok :: ·) else none

/-- Tokenising T (R83). -/
def tokenise (t : Text) : Option (List Token) := tokensFrom (t.length + 1) t

/-! ### Operands and forms (R84 to R88) -/

/-- A token after the mnemonic, its name looked up. -/
inductive Operand where
  | reg (r : Reg)
  | int (v : Int)
  | str (w : Word)
  | memReg (r : Reg)
  | memInt (v : Int)
deriving DecidableEq, Repr

/-- Every NAME after the first token must be a register's (R84). -/
def Token.operand : Token → Option Operand
  | .name t => (Reg.ofName t).map .reg
  | .int v => some (.int v)
  | .str w => some (.str w)
  | .memName t => (Reg.ofName t).map .memReg
  | .memInt v => some (.memInt v)

/-- Rows 1 to 11 of R86. -/
def assembleMov : List Operand → Option Instr
  | [.reg ri, .reg rj] => some (.movRR ri rj)
  | [.reg ri, .int v] => some (.movRI ri v)
  | [.reg ri, .str w] => some (.movRS ri w)
  | [.reg ri, .memReg rj] => some (.movRM ri rj)
  | [.memReg ri, .reg rj] => some (.movMR ri rj)
  | [.memInt loc, .reg rj] => some (.movLR loc rj)
  | [.reg rj, .memInt loc] => some (.movRL rj loc)
  | [.memInt loc, .reg rj, .reg ri] => some (.movLXR loc rj ri)
  | [.memInt loc, .int index, .reg rj] => some (.movLIR loc index rj)
  | [.reg ri, .memInt loc, .reg rj] => some (.movRLX ri loc rj)
  | [.reg ri, .memInt loc, .int index] => some (.movRLI ri loc index)
  | _ => none

/-- Format Z. -/
def formZ (i : Instr) : List Operand → Option Instr
  | [] => some i
  | _ => none

/-- Format R. -/
def formR (f : Reg → Instr) : List Operand → Option Instr
  | [.reg ri] => some (f ri)
  | _ => none

/-- Format RR. -/
def formRR (f : Reg → Reg → Instr) : List Operand → Option Instr
  | [.reg ri, .reg rj] => some (f ri rj)
  | _ => none

/-- A jump target: a negative one makes the text illegal (R85, D41). -/
def targetOf (v : Int) : Option Nat := if 0 ≤ v then some v.toNat else none

/-- Format RT. -/
def formRT (f : Reg → Nat → Instr) : List Operand → Option Instr
  | [.reg ri, .int v] => (targetOf v).map (f ri)
  | _ => none

/-- Format T. -/
def formT (f : Nat → Instr) : List Operand → Option Instr
  | [.int v] => (targetOf v).map f
  | _ => none

/-- Format N: a number outside 1 to 7 makes the text illegal (R85, D28). -/
def formN : List Operand → Option Instr
  | [.int v] => if 1 ≤ v ∧ v ≤ 7 then some (.int v.toNat) else none
  | _ => none

/-- An argument of format XX. -/
def Operand.arg : Operand → Option Arg
  | .reg r => some (.reg r)
  | .int v => some (.lit v)
  | .str _ | .memReg _ | .memInt _ => none

/-- Format XX. -/
def formXX (f : Arg → Arg → Instr) : List Operand → Option Instr
  | [a, b] =>
    match a.arg, b.arg with
    | some x, some y => some (f x y)
    | _, _ => none
  | _ => none

/-- The row of R86 that a mnemonic and its operands match; at most one can (R88). -/
def assemble (m : Mnemonic) (ops : List Operand) : Option Instr :=
  match m with
  | .MOV => assembleMov ops
  | .ADD => formRR .add ops
  | .SUB => formRR .sub ops
  | .MUL => formRR .mul ops
  | .DIV => formRR .div ops
  | .MOD => formRR .mod ops
  | .INR => formR .inr ops
  | .DCR => formR .dcr ops
  | .LT => formRR .lt ops
  | .GT => formRR .gt ops
  | .EQ => formRR .eq ops
  | .NE => formRR .ne ops
  | .GE => formRR .ge ops
  | .LE => formRR .le ops
  | .JZ => formRT .jz ops
  | .JNZ => formRT .jnz ops
  | .JMP => formT .jmp ops
  | .PUSH => formR .push ops
  | .POP => formR .pop ops
  | .CALL => formT .call ops
  | .RET => formZ .ret ops
  | .IN => formR .inp ops
  | .OUT => formR .out ops
  | .BRKP => formZ .brkp ops
  | .END => formZ .fin ops
  | .INT => formN ops
  | .IRET => formZ .iret ops
  | .LOAD => formXX .load ops
  | .STORE => formXX .store ops
  | .HALT => formZ .halt ops

/-- The operands of a token list, in order; `none` where one is no operand. -/
def operandsOf : List Token → Option (List Operand)
  | [] => some []
  | t :: ts =>
    match t.operand, operandsOf ts with
    | some o, some os => some (o :: os)
    | _, _ => none

/-- The instruction a token sequence spells: the first token is a NAME and a mnemonic (R84). -/
def parseTokens : List Token → Option Instr
  | .name n :: rest =>
    match Mnemonic.ofName n, operandsOf rest with
    | some m, some ops => assemble m ops
    | _, _ => none
  | _ => none

/-- `Decode(T)` of R88; `none` is its `illegal`. -/
def decode (t : Text) : Option Instr :=
  match tokenise t with
  | some toks => parseTokens toks
  | none => none

/-- The instruction stored in two words, the lower-addressed one first: only `w0 ++ w1` counts (R81, R82). -/
def decodeWords (w0 w1 : Word) : Option Instr := decode (w0.chars ++ w1.chars)

/-! ### The encoder (R82, R98) -/

/-- An argument of LOAD or STORE as an operand. -/
def Arg.operand : Arg → Operand
  | .reg r => .reg r
  | .lit v => .int v

/-- An instruction's row of R86: its mnemonic and its operand tokens in order. -/
def Instr.parts : Instr → Mnemonic × List Operand
  | .movRR ri rj => (.MOV, [.reg ri, .reg rj])
  | .movRI ri v => (.MOV, [.reg ri, .int v])
  | .movRS ri w => (.MOV, [.reg ri, .str w])
  | .movRM ri rj => (.MOV, [.reg ri, .memReg rj])
  | .movMR ri rj => (.MOV, [.memReg ri, .reg rj])
  | .movLR loc rj => (.MOV, [.memInt loc, .reg rj])
  | .movRL rj loc => (.MOV, [.reg rj, .memInt loc])
  | .movLXR loc rj ri => (.MOV, [.memInt loc, .reg rj, .reg ri])
  | .movLIR loc index rj => (.MOV, [.memInt loc, .int index, .reg rj])
  | .movRLX ri loc rj => (.MOV, [.reg ri, .memInt loc, .reg rj])
  | .movRLI ri loc index => (.MOV, [.reg ri, .memInt loc, .int index])
  | .add ri rj => (.ADD, [.reg ri, .reg rj])
  | .sub ri rj => (.SUB, [.reg ri, .reg rj])
  | .mul ri rj => (.MUL, [.reg ri, .reg rj])
  | .div ri rj => (.DIV, [.reg ri, .reg rj])
  | .mod ri rj => (.MOD, [.reg ri, .reg rj])
  | .inr ri => (.INR, [.reg ri])
  | .dcr ri => (.DCR, [.reg ri])
  | .lt ri rj => (.LT, [.reg ri, .reg rj])
  | .gt ri rj => (.GT, [.reg ri, .reg rj])
  | .eq ri rj => (.EQ, [.reg ri, .reg rj])
  | .ne ri rj => (.NE, [.reg ri, .reg rj])
  | .ge ri rj => (.GE, [.reg ri, .reg rj])
  | .le ri rj => (.LE, [.reg ri, .reg rj])
  | .jz ri target => (.JZ, [.reg ri, .int target])
  | .jnz ri target => (.JNZ, [.reg ri, .int target])
  | .jmp target => (.JMP, [.int target])
  | .push ri => (.PUSH, [.reg ri])
  | .pop ri => (.POP, [.reg ri])
  | .call target => (.CALL, [.int target])
  | .ret => (.RET, [])
  | .inp ri => (.IN, [.reg ri])
  | .out ri => (.OUT, [.reg ri])
  | .brkp => (.BRKP, [])
  | .fin => (.END, [])
  | .int n => (.INT, [.int n])
  | .iret => (.IRET, [])
  | .load page block => (.LOAD, [page.operand, block.operand])
  | .store block page => (.STORE, [block.operand, page.operand])
  | .halt => (.HALT, [])

/-- An operand as it is written. -/
def Operand.text : Operand → Text
  | .reg r => r.name
  | .int v => intText v
  | .str w => Chr.quote :: (w.chars ++ [Chr.quote])
  | .memReg r => Chr.openBracket :: (r.name ++ [Chr.closeBracket])
  | .memInt v => Chr.openBracket :: (intText v ++ [Chr.closeBracket])

/-- What stands between two operands (R98): a comma and a space, but a space alone between `[LOC]` and its index. -/
def operandGap (indexed : Bool) : Operand → Text
  | .memInt _ => if indexed then txt " " else txt ", "
  | .reg _ | .int _ | .str _ | .memReg _ => txt ", "

/-- A row's operands with what stands between them. -/
def operandsText (indexed : Bool) : List Operand → Text
  | [] => []
  | [o] => o.text
  | o :: os => o.text ++ operandGap indexed o ++ operandsText indexed os

/-- The canonical spelling of R98. -/
def Instr.text (i : Instr) : Text :=
  match i.parts with
  | (m, []) => m.name
  | (m, o :: os) => m.name ++ txt " " ++ operandsText (decide ((o :: os).length = 3)) (o :: os)

/-- An instruction whose canonical text is longer than 30 characters cannot be encoded (R82). -/
def Instr.encodable (i : Instr) : Bool := i.wellFormed && decide (i.text.length ≤ 30)

/-- The canonical encoding: the canonical spelling cut after its 15th character (R82). -/
def encode (i : Instr) : Word × Word :=
  (Word.clip i.text, Word.clip (i.text.drop 15))

/-! ### Instructions as numbers -/

/-- The string in a 16-byte container: its characters up to the first zero byte, all of which must be there (R6, D1). -/
def wordOfBytes : List Nat → Option Word
  | bytes =>
    if h : ((bytes.takeWhile (· ≠ 0)).map Chr.ofNat).length ≤ 15 then
      some ⟨(bytes.takeWhile (· ≠ 0)).map Chr.ofNat, h⟩
    else none

/-- The `count` bytes of a number from byte `first` on, the least significant first. -/
def bytesFrom (first count n : Nat) : List Nat :=
  (List.range count).map fun k => (n >>> (8 * (first + k))) % 256

/-- The two words that a number of `nbits` bits lays out: bits 127 to 0 are the first word's 16 bytes, character 0 in
bits 7 to 0, and bits 255 to 128 the second word's. -/
def wordsOfNumber (nbits n : Nat) : Option (Word × Word) :=
  match wordOfBytes (bytesFrom 0 16 (n % 2 ^ nbits)), wordOfBytes (bytesFrom 16 16 (n % 2 ^ nbits)) with
  | some w0, some w1 => some (w0, w1)
  | _, _ => none

/-- The instruction the decoder reads from an instruction given as a number (see `wordsOfNumber`). -/
def decodeTableWord (nbits w : Nat) : Option Instr :=
  match wordsOfNumber nbits w with
  | some (w0, w1) => decodeWords w0 w1
  | none => none

end Sys2Proof
end

