-- ==== Sys2Proof/Config.lean ====
section
/-! DEFINITION. What D00 leaves to the implementation: the parameters of spec 00_scope.md R5, and the free values of
93_implementation_defined.md. A configuration is plain data, fixed for a run (10_state.md R39): State carries it in
one field that no step changes, so a statement over every state is a statement over every configuration. The free
values are opaque constants: nothing is known of them, and a claim holds whatever they are. -/

namespace Sys2Proof

/-- `DIV_ROUNDING` of R5: the conventions for DIV and MOD with a negative operand (41_arithmetic.md R138 (c), D14).
All of them agree on a dividend that is not negative and a positive divisor. -/
inductive DivRounding where
  | truncate   -- toward zero, the remainder has the dividend's sign: the spec's default
  | floor      -- toward minus infinity, the remainder has the divisor's sign
  | euclid     -- the remainder is never negative
deriving DecidableEq, Repr, Inhabited

/-- `END_SEMANTICS` of R5: what executing END does (45_io_debug_end.md R173, D33). -/
inductive EndSemantics where
  | refuse | nop | halt
deriving DecidableEq, Repr, Inhabited

/-- `INT_IN_KERNEL` of R5: what INT does in kernel mode (46_int.md R182, D27). -/
inductive IntInKernel where
  | refuse | exception1 | execute
deriving DecidableEq, Repr, Inhabited

/-- `ROM_WRITE` of R5: what a write to physical words 0 to 511 does (20_memory.md R62, D37). -/
inductive RomWrite where
  | refuse | ignore | write
deriving DecidableEq, Repr, Inhabited

/-- What a machine does where the spec calls a value it would write `unspecified`: `str(n)` for an `n` outside the range (R7,
U1) and an EFR whose fields overflow (10_state.md R29, U6). `refuse` is the spec's treatment (R12): there is no step.
`free` is the model's own (DESIGN CHOICE, notes/assumptions/10.md and 11.md): the machine goes on and the value is free. -/
inductive UnspecifiedValue where
  | refuse | free
deriving DecidableEq, Repr, Inhabited

/-- The parameters of R5 that are fixed for a run. `DISK_INIT` is the disk of the reset state (`State.resetWith`) and
`DECODE` an argument of the step (`stepWith`); they are no fields here. An interval of `some 0` is no value of
`TIMER_INTERVAL`, which is `none` or positive (60_exceptions.md R214); the type lets it in, and then the timer is due at the
start of every user-mode step (DESIGN CHOICE, notes/assumptions/4.md). `inputOpen` completes the `INPUT` oracle: with it the environment
goes on answering IN after the words listed in the state, with words nothing is known of; without it the oracle has no
answer once the listed words are used up (R170). -/
structure Config where
  timerInterval : Option Nat
  intMin : Int
  intMax : Int
  divRounding : DivRounding
  endSemantics : EndSemantics
  intInKernel : IntInKernel
  romWrite : RomWrite
  unspecifiedValue : UnspecifiedValue
  debugMode : Bool
  inputOpen : Bool
deriving DecidableEq, Repr, Inhabited

/-- The word an instruction or the machine writes where the spec states no value: `str(n)` for an `n` outside the range
(R7, U1) and an EFR whose fields overflow (R29, U6). Free: applied to the state's draw counter. -/
opaque Config.freeWord : Nat → Word

/-- The two BadVAddr digits of EFR for causes 1 to 4: any value 0 to 99 (R204, V4). Free. -/
opaque Config.freeBadVAddr : Nat → Fin 100

/-- Which integer a word can hold IP takes where a jump's target has no text that fits a word (R7, R9). Free: an index
into the integers from `wordIntMin` to `wordIntMax`. -/
opaque Config.freeIpIndex : Nat → Fin 1099999999999999

/-- The words the environment answers IN with after those listed in the state (R170, V5). Free. -/
opaque Config.inputWord : Nat → Word

end Sys2Proof
end

