-- ==== Sys2Proof/Machine/Memory.lean ====
section
/-! DEFINITION. A store of words by number, used for the main memory and for the disk (spec 10_state.md R32, R33;
20_memory.md R50): a list of (number, word) pairs in one canonical form. The word is the spec's only unit of access, so
the cells are words and there are no byte addresses. -/

namespace Sys2Proof.Machine

/-- The words of a memory that are not the blank word, by rising number. -/
abbrev Memory := List (Nat × Word)

/-- What a word that is not listed reads as. DESIGN CHOICE (notes/assumptions/2.md), unsafe: D00 gives no content. -/
def blankWord : Word := Word.empty

/-- The word at a number. -/
def Memory.read : Memory → Nat → Word
  | [], _ => blankWord
  | (k, v) :: rest, a => if k = a then v else Memory.read rest a

/-- The memory with one word replaced, in canonical form: writing the blank word removes the entry. -/
def Memory.write (m : Memory) (a : Nat) (w : Word) : Memory :=
  m.filter (fun e => decide (e.1 < a))
    ++ (if w = blankWord then [] else [(a, w)])
    ++ m.filter (fun e => decide (a < e.1))

/-- `n` words of `src` from number `slo` on, copied over the words of `dst` from number `dlo` on; every other word of
`dst` stays. This is the page-sized copy of LOAD and STORE (47_privileged.md R187, R188). -/
def Memory.copyWords (dst : Memory) (dlo : Nat) (src : Memory) (slo n : Nat) : Memory :=
  dst.filter (fun e => decide (e.1 < dlo))
    ++ (src.filter fun e => decide (slo ≤ e.1 ∧ e.1 < slo + n)).map (fun e => (e.1 - slo + dlo, e.2))
    ++ dst.filter (fun e => decide (dlo + n ≤ e.1))

/-- The canonical form of a memory of `size` words: numbers strictly rising and below the size, no entry blank. -/
abbrev Memory.wf (size : Nat) (m : Memory) : Prop :=
  m.Pairwise (fun a b => a.1 < b.1) ∧ ∀ e ∈ m, e.1 < size ∧ e.2 ≠ blankWord

/-- MEM_WORDS of 00_scope.md R4. -/
abbrev memWords : Nat := 32768

/-- DISK_WORDS of 00_scope.md R4: block b holds the words 512 b to 512 b + 511 (R33). -/
abbrev diskWords : Nat := 262144

/-- PAGE_WORDS and BLOCK_WORDS of 00_scope.md R4. -/
abbrev pageWords : Nat := 512

end Sys2Proof.Machine
end

