-- ==== Sys2Proof/Machine/Boot.lean ====
section
/-! DEFINITION. What the machine holds when it is switched on: the ROM code (70_reset_and_hazards.md R241), the
default configuration and that of the reset state, and the word every register without a reset value holds. -/

namespace Sys2Proof.Machine

/-- The ROM code of R241 at words 0 to 3: `LOAD 1, 0` and `JMP 512`, the second word of each empty. -/
def romCode : Memory := [(0, Word.lit "LOAD 1, 0"), (2, Word.lit "JMP 512")]

/-- The reset value of the registers for which the spec gives none (10_state.md R41). DESIGN CHOICE
(notes/assumptions/1.md), unsafe. -/
def resetWord : Word := Word.lit "0"

/-- The defaults of 00_scope.md R5, and of R12 for a value that is unspecified. `TIMER_INTERVAL` and `INPUT` have none there:
no timer and an environment that answers IN are DESIGN CHOICES (notes/assumptions/4.md and 8.md). -/
def standardConfig : Config where
  timerInterval := none
  intMin := -99999999999999
  intMax := 999999999999999
  divRounding := .truncate
  endSemantics := .refuse
  intInKernel := .refuse
  romWrite := .refuse
  unspecifiedValue := .refuse
  debugMode := false
  inputOpen := true

/-- The configuration of `State.reset`: the defaults, but that where a default is to refuse a step the machine goes on with
an effect the spec lists. DESIGN CHOICES (notes/assumptions/5.md, 6.md, 7.md, 10.md and 11.md), on which no statement
rests; the reset state under the defaults is `State.resetDefault`. -/
def resetConfig : Config :=
  { standardConfig with endSemantics := .nop, intInKernel := .execute, romWrite := .ignore, unspecifiedValue := .free }

end Sys2Proof.Machine
end

