-- ==== Sys2Proof/Machine/State.lean ====
section
/-! DEFINITION. The machine's state: everything spec 10_state.md gives it (R20 to R35), and the reset state (R41). -/

namespace Sys2Proof.Machine

/-- The two privilege modes (R27); interrupts are enabled exactly in user mode (R28). -/
inductive Mode where
  | user | kernel
deriving DecidableEq, Repr

/-- The five exceptions by their Cause code, 0 to 4 (60_exceptions.md R200). -/
inductive Cause where
  | pageFault | illegalInstruction | illegalMemoryAccess | arithmetic | illegalOperands
deriving DecidableEq, Repr

/-- Why a halted machine halted (R31). -/
inductive HaltReason where
  | halt                    -- the HALT instruction
  | exception (c : Cause)   -- an exception in kernel mode
  | fin                     -- END, under `END_SEMANTICS = halt`
deriving DecidableEq, Repr

/-- Whether the machine runs (R31). -/
inductive Status where
  | running
  | halted (why : HaltReason)
deriving DecidableEq, Repr

/-- Why a step stops with a fault. -/
inductive Fault where
  /-- Raised by `step` alone: the machine's status is not `running`, so there is no step (30_encoding.md R95, S1 of
  93_implementation_defined.md). Safe: the spec says the same. -/
  | halted
deriving DecidableEq, Repr

/-- Why a step is refused: the spec's `unspecified(...)` under the treatment `refuse` (00_scope.md R12), where it names
no effect. Each is safe: the model stops where a real machine may go on. -/
inductive Refusal where
  /-- An instruction without a meaning. Raised by no arm of this model. Safe. -/
  | notModelled (mnemonic : String)
  /-- A user-mode translation while PTBR or PTLR holds no integer (20_memory.md R55, U2). Raised by `translateAddr`. Safe. -/
  | pageTableRegisters
  /-- A page-table entry that does not lie in memory (R55, U3). Raised by `translateAddr`. Safe. -/
  | pageTableEntryOutside
  /-- An auxiliary word whose first two characters are not `0` or `1` (R55, U4). Raised by `translateAddr`. Safe. -/
  | malformedAuxiliary
  /-- A valid entry whose first word is no integer 0 to 63 (R55, U5). Raised by `translateAddr`. Safe. -/
  | badPhysicalPage
  /-- `str(n)` for an `n` that has no text (00_scope.md R7, R12, U1), under `refuse`. Raised by `needText`. Safe. -/
  | noText
  /-- An exception whose EFR fields overflow (10_state.md R29, U6), under `refuse`. Raised by `raiseException`. Safe. -/
  | efrOverflow
  /-- A write to the ROM page under `ROM_WRITE = refuse` (R62, U7). Raised by `storeWord` and LOAD. Safe. -/
  | romWrite
  /-- INT in kernel mode under `INT_IN_KERNEL = refuse` (46_int.md R182, U8). Raised by INT. Safe. -/
  | intInKernel
  /-- END under `END_SEMANTICS = refuse` (45_io_debug_end.md R173, U9). Raised by END. Safe. -/
  | endExecuted
  /-- IN while the environment has no answer (R170, S2): the processor has no step until it has one. Raised by IN. Safe. -/
  | awaitingInput
deriving DecidableEq, Repr

/-- The state. The fields from `cfg` on are the machine's surroundings: the configuration (which no step changes), what
the host will say and has been told, and the counter that free values are drawn with. -/
structure State where
  prog : Vector Word 8       -- R0 to R7 (R22)
  kern : Vector Word 16      -- S0 to S15 (R23)
  temp : Vector Word 4       -- T0 to T3 (R23)
  bp : Word                  -- the base pointer (R25)
  sp : Word                  -- the stack pointer (R25)
  ptbr : Word                -- the page table base register (R26)
  ptlr : Word                -- the page table length register (R26)
  efr : Word                 -- the exception flag register (R29)
  ip : Int                   -- the instruction pointer as the integer its word holds; the word is `str ip` (R9, R24)
  mode : Mode                -- hidden (R27)
  timerCount : Nat           -- hidden: user-mode instructions since the last timer interrupt (R30)
  status : Status            -- hidden (R31)
  mem : Memory               -- M, 32768 words (R32)
  disk : Memory              -- D, 262144 words, block b at 512 b (R33)
  out : List Word            -- standard output, oldest first (R34)
  input : List Word          -- the INPUT oracle's next answers, oldest first (R34, R170)
  cfg : Config               -- the parameters of 00_scope.md R5
  debugCalls : Nat           -- how often BRKP has entered the host's debugger (R172, R244)
  draws : Nat                -- the model's own: how many free values have been drawn
deriving DecidableEq, Repr

/-- The state right after reset under a configuration, with a disk image and an input (R41, R240): kernel mode, IP 0,
running, the timer count 0, nothing written out, the ROM code in page 0. -/
def State.resetWith (cfg : Config) (disk : Memory) (input : List Word) : State where
  prog := Vector.replicate 8 resetWord
  kern := Vector.replicate 16 resetWord
  temp := Vector.replicate 4 resetWord
  bp := resetWord
  sp := resetWord
  ptbr := resetWord
  ptlr := resetWord
  efr := resetWord
  ip := 0
  mode := .kernel
  timerCount := 0
  status := .running
  mem := romCode
  disk := disk
  out := []
  input := input
  cfg := cfg
  debugCalls := 0
  draws := 0

/-- The reset state: a blank disk, no input word listed, and the configuration that refuses least. -/
def State.reset : State := State.resetWith resetConfig [] []

/-- The reset state under the defaults of 00_scope.md R5. -/
def State.resetDefault : State := State.resetWith standardConfig [] []

/-- A reset after a run: the disk keeps what STORE wrote to it, the configuration stays (R33, R240). What becomes of the
position in standard input the spec does not say (R34, R41, R240, 45_io_debug_end.md R170). DESIGN CHOICE
(notes/assumptions/26.md), unsafe: input goes on where it stood, the unread listed words and then further free words. -/
def State.restart (s : State) : State := { State.resetWith s.cfg s.disk s.input with draws := s.draws }

/-- What a step answers. -/
abbrev Outcome := Host.Outcome State Fault Refusal

end Sys2Proof.Machine
end

