-- ==== Sys2Proof/Machine/Legality.lean ====
section
/-! DEFINITION. Which instructions are legal in which mode: the privilege check and the register checks of 30_encoding.md
R90 to R94 and 10_state.md R38. -/

namespace Sys2Proof.Machine

/-- The position of a register operand (R38, R94); `pushed` is PUSH's, a read position in which IP may not stand (R93).
A register that is read and written counts as written. -/
inductive Access where
  | read | write | address | pushed
deriving DecidableEq, Repr

/-- The register an argument of LOAD or STORE reads, if it is one. -/
def argUses : Arg → List (Access × Reg)
  | .reg r => [(.read, r)]
  | .lit _ => []

/-- The register operands of an instruction with their positions: the table of R94. -/
def regUses : Instr → List (Access × Reg)
  | .movRR ri rj => [(.write, ri), (.read, rj)]
  | .movRI ri _ => [(.write, ri)]
  | .movRS ri _ => [(.write, ri)]
  | .movRM ri rj => [(.write, ri), (.address, rj)]
  | .movMR ri rj => [(.address, ri), (.read, rj)]
  | .movLR _ rj => [(.read, rj)]
  | .movRL rj _ => [(.write, rj)]
  | .movLXR _ rj ri => [(.address, rj), (.read, ri)]
  | .movLIR _ _ rj => [(.read, rj)]
  | .movRLX ri _ rj => [(.write, ri), (.address, rj)]
  | .movRLI ri _ _ => [(.write, ri)]
  | .add ri rj | .sub ri rj | .mul ri rj | .div ri rj | .mod ri rj => [(.write, ri), (.read, rj)]
  | .inr ri | .dcr ri => [(.write, ri)]
  | .lt ri rj | .gt ri rj | .eq ri rj | .ne ri rj | .ge ri rj | .le ri rj => [(.write, ri), (.read, rj)]
  | .jz ri _ | .jnz ri _ => [(.read, ri)]
  | .jmp _ => []
  | .push ri => [(.pushed, ri)]
  | .pop ri => [(.write, ri)]
  | .call _ | .ret => []
  | .inp ri => [(.write, ri)]
  | .out ri => [(.read, ri)]
  | .brkp | .fin | .int _ | .iret => []
  | .load a b | .store a b => argUses a ++ argUses b
  | .halt => []

/-- The four instructions that only kernel mode may execute (R90, 47_privileged.md R185). -/
def privileged : Instr → Bool
  | .movRR _ _ | .movRI _ _ | .movRS _ _ | .movRM _ _ | .movMR _ _ | .movLR _ _ | .movRL _ _ => false
  | .movLXR _ _ _ | .movLIR _ _ _ | .movRLX _ _ _ | .movRLI _ _ _ => false
  | .add _ _ | .sub _ _ | .mul _ _ | .div _ _ | .mod _ _ | .inr _ | .dcr _ => false
  | .lt _ _ | .gt _ _ | .eq _ _ | .ne _ _ | .ge _ _ | .le _ _ => false
  | .jz _ _ | .jnz _ _ | .jmp _ | .push _ | .pop _ | .call _ | .ret => false
  | .inp _ | .out _ | .brkp | .fin | .int _ => false
  | .iret | .load _ _ | .store _ _ | .halt => true

/-- The registers a user-mode instruction may name: R0 to R7, SP and BP (R91). -/
def userRegister : Reg → Bool
  | .r _ | .bp | .sp => true
  | .s _ | .t _ | .ip | .ptbr | .ptlr | .efr => false

/-- Whether a kernel-mode instruction may name a register in a position: IP and EFR are only read, and IP is not
pushed (R92, R93). -/
def kernelUse : Access → Reg → Bool
  | .read, _ => true
  | .pushed, r => decide (r ≠ .ip)
  | .write, r | .address, r => decide (r ≠ .ip ∧ r ≠ .efr)

/-- Whether an instruction passes R90 to R93 in a mode; where it does not it raises IllegalInstruction. -/
def legalIn : Mode → Instr → Bool
  | .user, i => !privileged i && (regUses i).all fun u => userRegister u.2
  | .kernel, i => (regUses i).all fun u => kernelUse u.1 u.2

end Sys2Proof.Machine
end

