-- ==== Sys2Proof/Machine/Ops.lean ====
section
/-! DEFINITION. The named operations of the machine: registers, integers written as words, address translation and memory
(20_memory.md), the stack, taking an exception and an interrupt and returning from one (60_exceptions.md). -/

namespace Sys2Proof.Machine

/-! ### Results -/

/-- An exception as `raise` names it (00_scope.md R11); a page fault carries its logical page number. -/
inductive Exn where
  | pageFault (lpn : Nat)
  | illegalInstruction
  | illegalMemoryAccess
  | arithmetic
  | illegalOperands
deriving DecidableEq, Repr

/-- The Cause of an exception (R200). -/
def Exn.cause : Exn → Cause
  | .pageFault _ => .pageFault
  | .illegalInstruction => .illegalInstruction
  | .illegalMemoryAccess => .illegalMemoryAccess
  | .arithmetic => .arithmetic
  | .illegalOperands => .illegalOperands

/-- What a part of an instruction answers: a value, an exception, or a refusal. A raise carries the state it leaves: the
instruction's writes are not made in it, but the reference bits of translations that succeeded are (R208). -/
inductive Res (α : Type) where
  | ok (a : α) (s : State)
  | raise (e : Exn) (s : State)
  | refuse (r : Refusal)
deriving DecidableEq, Repr

/-- Go on with the value and the state, if there are any: the first raise or refusal ends the instruction (R16). -/
def Res.bind {α β : Type} (x : Res α) (f : α → State → Res β) : Res β :=
  match x with
  | .ok a s => f a s
  | .raise e s => .raise e s
  | .refuse r => .refuse r

/-! ### Registers and numerals -/

/-- `x[r]` (R9). IP reads as `str(pc)`, the address of the instruction being executed (R24, D10). -/
def State.getReg (s : State) : Reg → Word
  | .r n => s.prog[n.val]
  | .s n => s.kern[n.val]
  | .t n => s.temp[n.val]
  | .bp => s.bp
  | .sp => s.sp
  | .ip => Word.ofInt s.ip
  | .ptbr => s.ptbr
  | .ptlr => s.ptlr
  | .efr => s.efr

/-- `x[r] <- w`, the write an instruction may make. No instruction changes IP or EFR this way (R38): those are written by
`setIp` and `recordException` alone. -/
def State.setReg (s : State) (r : Reg) (w : Word) : State :=
  match r with
  | .r n => { s with prog := s.prog.set n.val w }
  | .s n => { s with kern := s.kern.set n.val w }
  | .t n => { s with temp := s.temp.set n.val w }
  | .bp => { s with bp := w }
  | .sp => { s with sp := w }
  | .ptbr => { s with ptbr := w }
  | .ptlr => { s with ptlr := w }
  | .ip | .efr => s

/-- Whether `str(n)` is defined: `INT_MIN <= n <= INT_MAX` (R7), and the text fits a word. -/
def strDefined (cfg : Config) (n : Int) : Bool :=
  decide (cfg.intMin ≤ n) && decide (n ≤ cfg.intMax) && decide (wordIntMin ≤ n) && decide (n ≤ wordIntMax)

/-- A step on from the last free value drawn. -/
def State.drawn (s : State) : State := { s with draws := s.draws + 1 }

/-- The word `str(n)`, with the state that follows. Outside the range the spec states no word (R7, U1): it is a free value
(notes/assumptions/10.md), drawn where `needText` lets the instruction go on. -/
def strWord (n : Int) (s : State) : Word × State :=
  if strDefined s.cfg n then (Word.ofInt n, s) else (Config.freeWord s.draws, s.drawn)

/-- The state after `x[r] <- str(n)`. -/
def State.setInt (s : State) (r : Reg) (n : Int) : State :=
  (strWord n s).2.setReg r (strWord n s).1

/-- The integer IP holds where its target has no text that fits a word: free. -/
def freeIp (k : Nat) : Int := wordIntMin + ((Config.freeIpIndex k).val : Int)

/-- The state after `pc <- n`, which is `x[IP] <- str(n)` (R9). -/
def State.setIp (s : State) (n : Int) : State :=
  if strDefined s.cfg n then { s with ip := n } else { s.drawn with ip := freeIp s.draws }

/-- The state after `pc <- pc + 2`: an exact sum, nothing wraps (R24, D45). -/
def State.advance (s : State) : State := s.setIp (s.ip + 2)

/-- Whether the machine goes on where it takes `str(n)`: the text is defined, or the configuration lets a free value stand
for it. -/
def hasText (cfg : Config) (n : Int) : Bool :=
  strDefined cfg n || decide (cfg.unspecifiedValue = .free)

/-- `str(n)` is about to be taken: outside the range it is unspecified and ends the instruction (R7, R12, R16, U1), unless
the configuration lets the machine go on. -/
def needText (n : Int) (s : State) : Res Unit :=
  if hasText s.cfg n then .ok () s else .refuse .noText

/-- `x[r] <- str(n)`. -/
def writeInt (r : Reg) (n : Int) (s : State) : Res Unit :=
  (needText n s).bind fun _ s => .ok () (s.setInt r n)

/-- `pc <- n`. -/
def goTo (n : Int) (s : State) : Res Unit :=
  (needText n s).bind fun _ s => .ok () (s.setIp n)

/-- `pc <- pc + 2`, the end of an instruction that is no control transfer. -/
def goOn (s : State) : Res Unit := goTo (s.ip + 2) s

/-- `xi(r)` (R9): the integer in a register, or IllegalOperands. -/
def readInt (r : Reg) (s : State) : Res Int :=
  match (s.getReg r).int? with
  | some n => .ok n s
  | none => .raise .illegalOperands s

/-! ### Memory -/

/-- A write to a physical word. A write to page 0 is governed by `ROM_WRITE` (R62). -/
def storeWord (pa : Nat) (w : Word) (s : State) : Res Unit :=
  if pa < pageWords then
    match s.cfg.romWrite with
    | .refuse => .refuse .romWrite
    | .ignore => .ok () s
    | .write => .ok () { s with mem := s.mem.write pa w }
  else .ok () { s with mem := s.mem.write pa w }

/-- The character `0`. -/
def chrZero : Chr := Chr.ofNat 48

/-- The character `1`. -/
def chrOne : Chr := Chr.ofNat 49

/-- A page-table entry's auxiliary word (R57): its valid bit, and the word with the reference bit set (R58); `none`
where its first two characters are not both `0` or `1`. -/
def auxiliary (w : Word) : Option (Bool × Word) :=
  match w.chars with
  | c :: v :: rest =>
    if (c = chrZero ∨ c = chrOne) ∧ (v = chrZero ∨ v = chrOne) then
      some (decide (v = chrOne), Word.clip (chrOne :: v :: rest))
    else none
  | _ => none

/-- The second half of R55, for a logical page number below PTLR: the entry at PTBR + 2 lpn, its valid bit, its physical
page number, and the reference bit set at once. -/
def translateEntry (base : Int) (lpn off : Nat) (s : State) : Res Nat :=
  let e := base + 2 * (lpn : Int)
  if e < 0 ∨ e + 1 > 32767 then .refuse .pageTableEntryOutside
  else
    match auxiliary (s.mem.read (e.toNat + 1)) with
    | none => .refuse .malformedAuxiliary
    | some (false, _) => .raise (.pageFault lpn) s
    | some (true, marked) =>
      match (s.mem.read e.toNat).int? with
      | none => .refuse .badPhysicalPage
      | some ppn =>
        if ppn < 0 ∨ ppn > 63 then .refuse .badPhysicalPage
        else (storeWord (e.toNat + 1) marked s).bind fun _ s => .ok (ppn.toNat * pageWords + off) s

/-- `Translate(a)`: the identity on 0 to 32767 in kernel mode (R53), the page table in user mode (R55). -/
def translateAddr (a : Int) (s : State) : Res Nat :=
  match s.mode with
  | .kernel => if 0 ≤ a ∧ a ≤ 32767 then .ok a.toNat s else .raise .illegalMemoryAccess s
  | .user =>
    if a < 0 then .raise .illegalMemoryAccess s
    else
      match s.ptlr.int?, s.ptbr.int? with
      | some len, some base =>
        if ((a.toNat / pageWords : Nat) : Int) < len then
          translateEntry base (a.toNat / pageWords) (a.toNat % pageWords) s
        else .raise .illegalMemoryAccess s
      | _, _ => .refuse .pageTableRegisters

/-- `MemRead(a, 1)` (R10). -/
def memRead (a : Int) (s : State) : Res Word :=
  (translateAddr a s).bind fun pa s => .ok (s.mem.read pa) s

/-- `MemWrite(a, 1, w)` (R10). -/
def memWrite (a : Int) (w : Word) (s : State) : Res Unit :=
  (translateAddr a s).bind fun pa s => storeWord pa w s

/-- `MemWrite(a, 1, str(n))`: the text comes before the translation (R16). -/
def memWriteInt (a n : Int) (s : State) : Res Unit :=
  (needText n s).bind fun _ s =>
  (translateAddr a s).bind fun pa s => storeWord pa (strWord n s).1 (strWord n s).2

/-- `(w0, w1) <- MemRead(pc, 2)`: each word translated on its own, the lower address first (R81). -/
def fetch (s : State) : Res (Word × Word) :=
  (memRead s.ip s).bind fun w0 s =>
  (memRead (s.ip + 1) s).bind fun w1 s => .ok (w0, w1) s

/-! ### The stack -/

/-- Push the text of an integer: SP is incremented and the word stored at it (R162, R180, R216). -/
def pushInt (n : Int) (s : State) : Res Unit :=
  (readInt .sp s).bind fun top s =>
  (memWriteInt (top + 1) n s).bind fun _ s => writeInt .sp (top + 1) s

/-- Pop IP: the word at SP becomes IP and SP is decremented (R163, R186). -/
def popIp (s : State) : Res Unit :=
  (readInt .sp s).bind fun top s =>
  (memRead top s).bind fun w s =>
  match w.int? with
  | none => .raise .illegalOperands s
  | some n => (writeInt .sp (top - 1) s).bind fun _ s => goTo n s

/-! ### Exceptions and interrupts -/

/-- The digit of a Cause (R200). -/
def Cause.code : Cause → Nat
  | .pageFault => 0
  | .illegalInstruction => 1
  | .illegalMemoryAccess => 2
  | .arithmetic => 3
  | .illegalOperands => 4

/-- `str(pc) ++ d2(bad) ++ str(cause)`, the word of EFR (R29); IP's text stands in it under every configured range (DESIGN
CHOICE, notes/assumptions/27.md). -/
def efrWord (pc : Int) (bad : Nat) (c : Cause) : Word :=
  Word.clip (intText pc ++ twoDigits bad ++ [Chr.ofDigit c.code])

/-- Whether IP fits EFR's field of at most 5 digits (R29). -/
def ipFitsEfr (pc : Int) : Bool := decide (0 ≤ pc) && decide (pc ≤ 99999)

/-- Recording an exception in EFR (R204). BadVAddr is the logical page number of a page fault and two free digits for
the other causes; where a field overflows the whole word is free (R29, U6, notes/assumptions/11.md). -/
def recordException (e : Exn) (s : State) : State :=
  match e with
  | .pageFault lpn =>
    if ipFitsEfr s.ip && decide (lpn ≤ 99) then { s with efr := efrWord s.ip lpn .pageFault }
    else { s.drawn with efr := Config.freeWord s.draws }
  | .illegalInstruction | .illegalMemoryAccess | .arithmetic | .illegalOperands =>
    if ipFitsEfr s.ip then { s.drawn with efr := efrWord s.ip (Config.freeBadVAddr s.draws).val e.cause }
    else { s.drawn with efr := Config.freeWord s.draws }

/-- The word address of the exception handler, page 7 (R205). -/
def exceptionVector : Int := 3584

/-- The word address of the timer interrupt routine, page 9 (R216). -/
def timerVector : Int := 4608

/-- The word address of the routine of software interrupt n, `(9 + 2n) * 512` (R180). -/
def interruptVector (n : Nat) : Int := (9 + 2 * (n : Int)) * 512

/-- Whether the fields of an exception's EFR word have their widths (R29). -/
def efrFits (e : Exn) (s : State) : Bool :=
  match e with
  | .pageFault lpn => ipFitsEfr s.ip && decide (lpn ≤ 99)
  | .illegalInstruction | .illegalMemoryAccess | .arithmetic | .illegalOperands => ipFitsEfr s.ip

/-- The state after an exception: EFR is written; then user mode enters the kernel at 3584 (R205), and kernel mode halts
(R206). The mode that counts is the one at the raise (R207). IP is 3584 and EFR has IP's text under every configuration:
that a configured range may leave those numbers without a text (R7) is settled so by the model (DESIGN CHOICE,
notes/assumptions/27.md). -/
def takeException (e : Exn) (s : State) : State :=
  match s.mode with
  | .user => { recordException e s with mode := .kernel, ip := exceptionVector }
  | .kernel => { recordException e s with status := .halted (.exception e.cause) }

/-- Whether the machine takes an exception: the fields fit, or the configuration lets a free EFR stand. -/
def efrTaken (e : Exn) (s : State) : Bool :=
  efrFits e s || decide (s.cfg.unspecifiedValue = .free)

/-- Taking an exception. An EFR whose fields overflow is unspecified and there is no step (R29, R12, U6), unless the
configuration lets the machine go on with a free EFR (notes/assumptions/11.md). -/
def raiseException (e : Exn) (s : State) : Outcome :=
  if efrTaken e s then .next (takeException e s) else .refused .efrOverflow

/-- Taking an interrupt: the return address is pushed in the mode the machine is in, then the machine is in kernel mode
at the vector (R180, R216), whatever range the configuration gives integers (DESIGN CHOICE, notes/assumptions/27.md). -/
def takeInterrupt (return_ vector : Int) (s : State) : Res Unit :=
  (pushInt return_ s).bind fun _ s => .ok () { s with mode := .kernel, ip := vector }

/-- Returning from an exception or an interrupt: the mode becomes user first, then IP is popped through the page table
(R186, D32). -/
def returnToUser (s : State) : Res Unit := popIp { s with mode := .user }

/-- How a part of an instruction ends the step: a raise takes its exception. -/
def Res.outcome (x : Res Unit) : Outcome :=
  match x with
  | .ok _ s => .next s
  | .raise e s => raiseException e s
  | .refuse r => .refused r

/-- An instruction behind the legality checks of its mode, which come before any operand is read (R95 step 5). -/
def checked (i : Instr) (s : State) (body : Res Unit) : Outcome :=
  if legalIn s.mode i then body.outcome else raiseException .illegalInstruction s

/-! ### The console -/

/-- `InputNext()` (R13, R170): the next word listed; then words nothing is known of, as long as the environment answers. -/
def readInput (s : State) : Res Word :=
  match s.input with
  | w :: rest => .ok w { s with input := rest }
  | [] => if s.cfg.inputOpen then .ok (Config.inputWord s.draws) s.drawn else .refuse .awaitingInput

/-! ### The timer -/

/-- Whether the timer interrupt is taken instead of a fetch (R215). -/
def timerDue (s : State) : Bool :=
  match s.mode, s.cfg.timerInterval with
  | .user, some n => decide (n ≤ s.timerCount)
  | _, _ => false

/-- The timer interrupt: the count is cleared, IP itself is pushed, control goes to 4608 (R216); a fault in the push is a
user-mode exception of the displaced instruction (R217). -/
def timerInterrupt (s : State) : Outcome :=
  (takeInterrupt s.ip timerVector { s with timerCount := 0 }).outcome

end Sys2Proof.Machine
end

