-- ==== Sys2Proof/Machine/Operands.lean ====
section
/-! DEFINITION. The operand forms of 30_encoding.md R87 that take more than one register read: the addresses of MOV
(40_mov.md R113 to R120) and the arguments of LOAD and STORE (47_privileged.md R189). -/

namespace Sys2Proof.Machine

/-- The address `[Rj]`: the register's integer (R113, R114). -/
def addrReg (r : Reg) (s : State) : Res Int := readInt r s

/-- The address `[LOC] Rj`: an exact sum (R117, R119, D45). -/
def addrIndexed (loc : Int) (r : Reg) (s : State) : Res Int :=
  (readInt r s).bind fun i s => .ok (loc + i) s

/-- Load the word at an address into a register and go on to the next instruction. -/
def loadFrom (a : Int) (r : Reg) (s : State) : Res Unit :=
  (memRead a s).bind fun w s => goOn (s.setReg r w)

/-- Store a word at an address and go on to the next instruction. -/
def storeTo (a : Int) (w : Word) (s : State) : Res Unit :=
  (memWrite a w s).bind fun _ s => goOn s

/-- `val(a)` of R189. -/
def argValue (a : Arg) (s : State) : Res Int :=
  match a with
  | .reg r => readInt r s
  | .lit v => .ok v s

/-- `check(p, b)` of R189: a page 0 to 63 and a block 0 to 511, or IllegalMemoryAccess. -/
def checkPageBlock (p b : Int) (s : State) : Res Unit :=
  if p < 0 ∨ p > 63 ∨ b < 0 ∨ b > 511 then .raise .illegalMemoryAccess s else .ok () s

end Sys2Proof.Machine
end

