-- ==== Sys2Proof/Machine/Arithmetic.lean ====
section
/-! DEFINITION. ADD, SUB, MUL, DIV, MOD, INR and DCR (41_arithmetic.md R130 to R138). -/

namespace Sys2Proof.Machine

/-- `quot(a, b)` for a divisor that is not zero (R138 (c)). -/
def quot (d : DivRounding) (a b : Int) : Int :=
  match d with
  | .truncate => a.tdiv b
  | .floor => a.fdiv b
  | .euclid => a.ediv b

/-- `rem(a, b)` for a divisor that is not zero (R138 (c)). -/
def rem (d : DivRounding) (a b : Int) : Int :=
  match d with
  | .truncate => a.tmod b
  | .floor => a.fmod b
  | .euclid => a.emod b

/-- Both operands are read as integers, then the result is written to the first as its text (R130, R131). -/
def arith (f : Int → Int → Int) (ri rj : Reg) (s : State) : Res Unit :=
  (readInt ri s).bind fun a s =>
  (readInt rj s).bind fun b s =>
  (writeInt ri (f a b) s).bind fun _ s => goOn s

/-- As `arith`, with ArithmeticException for a divisor of zero after both operands are known to be integers (R134). -/
def divide (f : Int → Int → Int) (ri rj : Reg) (s : State) : Res Unit :=
  (readInt ri s).bind fun a s =>
  (readInt rj s).bind fun b s =>
  if b = 0 then .raise .arithmetic s else (writeInt ri (f a b) s).bind fun _ s => goOn s

/-- One operand, read and written (R136). -/
def adjust (f : Int → Int) (ri : Reg) (s : State) : Res Unit :=
  (readInt ri s).bind fun a s => (writeInt ri (f a) s).bind fun _ s => goOn s

/-- ADD Ri, Rj (R131). -/
def execAdd (ri rj : Reg) (s : State) : Outcome :=
  checked (.add ri rj) s (arith (fun a b => a + b) ri rj s)

/-- SUB Ri, Rj (R132). -/
def execSub (ri rj : Reg) (s : State) : Outcome :=
  checked (.sub ri rj) s (arith (fun a b => a - b) ri rj s)

/-- MUL Ri, Rj (R133). -/
def execMul (ri rj : Reg) (s : State) : Outcome :=
  checked (.mul ri rj) s (arith (fun a b => a * b) ri rj s)

/-- DIV Ri, Rj (R134). -/
def execDiv (ri rj : Reg) (s : State) : Outcome :=
  checked (.div ri rj) s (divide (quot s.cfg.divRounding) ri rj s)

/-- MOD Ri, Rj (R135). -/
def execMod (ri rj : Reg) (s : State) : Outcome :=
  checked (.mod ri rj) s (divide (rem s.cfg.divRounding) ri rj s)

/-- INR Ri (R136). -/
def execInr (ri : Reg) (s : State) : Outcome :=
  checked (.inr ri) s (adjust (fun a => a + 1) ri s)

/-- DCR Ri (R137). -/
def execDcr (ri : Reg) (s : State) : Outcome :=
  checked (.dcr ri) s (adjust (fun a => a - 1) ri s)

end Sys2Proof.Machine
end

