-- ==== Sys2Proof/Machine/Branch.lean ====
section
/-! DEFINITION. JZ, JNZ and JMP (43_branch.md R150 to R154): absolute targets, not checked at the jump. -/

namespace Sys2Proof.Machine

/-- Jump where a test of the register's integer holds, go on otherwise (R151, R152). -/
def branch (test : Int → Bool) (ri : Reg) (target : Nat) (s : State) : Res Unit :=
  (readInt ri s).bind fun v s => if test v then goTo target s else goOn s

/-- JZ Ri, target (R151). -/
def execJz (ri : Reg) (target : Nat) (s : State) : Outcome :=
  checked (.jz ri target) s (branch (fun v => decide (v = 0)) ri target s)

/-- JNZ Ri, target (R152). -/
def execJnz (ri : Reg) (target : Nat) (s : State) : Outcome :=
  checked (.jnz ri target) s (branch (fun v => decide (v ≠ 0)) ri target s)

/-- JMP target (R153). -/
def execJmp (target : Nat) (s : State) : Outcome :=
  checked (.jmp target) s (goTo target s)

end Sys2Proof.Machine
end

