-- ==== Sys2Proof/Machine/Console.lean ====
section
/-! DEFINITION. IN, OUT, BRKP and END (45_io_debug_end.md R170 to R173). -/

namespace Sys2Proof.Machine

/-- IN Ri: the next word of standard input (R170). -/
def execIn (ri : Reg) (s : State) : Outcome :=
  checked (.inp ri) s ((readInput s).bind fun w s => goOn (s.setReg ri w))

/-- OUT Ri: the word is appended to standard output (R171). -/
def execOut (ri : Reg) (s : State) : Outcome :=
  checked (.out ri) s (goOn { s with out := s.out ++ [s.getReg ri] })

/-- The host's debugger is entered in debug mode; it changes nothing of the machine (R172, D34). That the
entries are counted is the model's choice (notes/assumptions/17.md). -/
def enterDebugger (s : State) : State :=
  if s.cfg.debugMode then { s with debugCalls := s.debugCalls + 1 } else s

/-- BRKP: nothing but IP changes (R172). -/
def execBrkp (s : State) : Outcome :=
  checked .brkp s (goOn (enterDebugger s))

/-- END, by `END_SEMANTICS` (R173, D33). -/
def execEnd (s : State) : Outcome :=
  checked .fin s
    (match s.cfg.endSemantics with
     | .refuse => .refuse .endExecuted
     | .nop => goOn s
     | .halt => .ok () { s with status := .halted .fin })

end Sys2Proof.Machine
end

