-- ==== Sys2Proof/Machine/Interrupt.lean ====
section
/-! DEFINITION. INT (46_int.md R180 to R183). The timer interrupt is in Machine/Ops.lean. -/

namespace Sys2Proof.Machine

/-- INT n: in user mode IP + 2 is pushed through the page table and control goes to the routine's address in kernel mode
(R180); in kernel mode it is `INT_IN_KERNEL`'s (R182). EFR and the timer count stay (R183). -/
def execInt (n : Nat) (s : State) : Outcome :=
  checked (.int n) s
    (match s.mode with
     | .user => takeInterrupt (s.ip + 2) (interruptVector n) s
     | .kernel =>
       match s.cfg.intInKernel with
       | .refuse => .refuse .intInKernel
       | .exception1 => .raise .illegalInstruction s
       | .execute => takeInterrupt (s.ip + 2) (interruptVector n) s)

end Sys2Proof.Machine
end

