-- ==== Sys2Proof/Machine/Flags.lean ====
section
/-! DEFINITION. XSM has no status flags (10_state.md R36). What stands in their place is the comparison `cmp` of
00_scope.md R14 and the truth words the comparison instructions write (42_logical.md R140). -/

namespace Sys2Proof.Machine

/-- The order of texts: by character code, the first difference deciding, a proper prefix less (R14). -/
def cmpText : Text → Text → Ordering
  | [], [] => .eq
  | [], _ :: _ => .lt
  | _ :: _, [] => .gt
  | a :: as, b :: bs => if a.code < b.code then .lt else if b.code < a.code then .gt else cmpText as bs

/-- The order of integers. -/
def cmpInt (a b : Int) : Ordering := if a < b then .lt else if b < a then .gt else .eq

/-- `cmp(a, b)`: numeric when both words are integers, otherwise as strings (R14, D15). -/
def cmpWord (a b : Word) : Ordering :=
  match a.int?, b.int? with
  | some m, some n => cmpInt m n
  | _, _ => cmpText a.chars b.chars

/-- The word `"1"` or `"0"` (R140). -/
def truthWord (b : Bool) : Word := if b then Word.lit "1" else Word.lit "0"

end Sys2Proof.Machine
end

