-- ==== Sys2Proof/Machine/Logical.lean ====
section
/-! DEFINITION. LT, GT, EQ, NE, GE and LE (42_logical.md R140 to R146). -/

namespace Sys2Proof.Machine

/-- Compare Ri with Rj and write the truth of a test of the result to Ri; nothing is raised (R140). -/
def compareRegs (test : Ordering → Bool) (ri rj : Reg) (s : State) : Res Unit :=
  goOn (s.setReg ri (truthWord (test (cmpWord (s.getReg ri) (s.getReg rj)))))

/-- LT Ri, Rj (R141). -/
def execLt (ri rj : Reg) (s : State) : Outcome :=
  checked (.lt ri rj) s (compareRegs (fun c => decide (c = .lt)) ri rj s)

/-- GT Ri, Rj (R142). -/
def execGt (ri rj : Reg) (s : State) : Outcome :=
  checked (.gt ri rj) s (compareRegs (fun c => decide (c = .gt)) ri rj s)

/-- EQ Ri, Rj (R143). -/
def execEq (ri rj : Reg) (s : State) : Outcome :=
  checked (.eq ri rj) s (compareRegs (fun c => decide (c = .eq)) ri rj s)

/-- NE Ri, Rj (R144). -/
def execNe (ri rj : Reg) (s : State) : Outcome :=
  checked (.ne ri rj) s (compareRegs (fun c => decide (c ≠ .eq)) ri rj s)

/-- GE Ri, Rj (R145). -/
def execGe (ri rj : Reg) (s : State) : Outcome :=
  checked (.ge ri rj) s (compareRegs (fun c => decide (c ≠ .lt)) ri rj s)

/-- LE Ri, Rj (R146). -/
def execLe (ri rj : Reg) (s : State) : Outcome :=
  checked (.le ri rj) s (compareRegs (fun c => decide (c ≠ .gt)) ri rj s)

end Sys2Proof.Machine
end

