-- ==== Sys2Proof/Machine/Mov.lean ====
section
/-! DEFINITION. MOV in its eleven forms (40_mov.md R111 to R120). -/

namespace Sys2Proof.Machine

/-- MOV Ri, Rj (R111). -/
def execMovRR (ri rj : Reg) (s : State) : Outcome :=
  checked (.movRR ri rj) s (goOn (s.setReg ri (s.getReg rj)))

/-- MOV Ri, INTEGER: the canonical text of the value (R112, D8). -/
def execMovRI (ri : Reg) (imm : Int) (s : State) : Outcome :=
  checked (.movRI ri imm) s ((writeInt ri imm s).bind fun _ s => goOn s)

/-- MOV Ri, STRING: the quoted characters (R112). -/
def execMovRS (ri : Reg) (str : Word) (s : State) : Outcome :=
  checked (.movRS ri str) s (goOn (s.setReg ri str))

/-- MOV Ri, [Rj] (R113). -/
def execMovRM (ri rj : Reg) (s : State) : Outcome :=
  checked (.movRM ri rj) s ((addrReg rj s).bind fun a s => loadFrom a ri s)

/-- MOV [Ri], Rj (R114). -/
def execMovMR (ri rj : Reg) (s : State) : Outcome :=
  checked (.movMR ri rj) s ((addrReg ri s).bind fun a s => storeTo a (s.getReg rj) s)

/-- MOV [LOC], Rj (R115). -/
def execMovLR (loc : Int) (rj : Reg) (s : State) : Outcome :=
  checked (.movLR loc rj) s (storeTo loc (s.getReg rj) s)

/-- MOV Rj, [LOC] (R116). -/
def execMovRL (rj : Reg) (loc : Int) (s : State) : Outcome :=
  checked (.movRL rj loc) s (loadFrom loc rj s)

/-- MOV [LOC] Rj, Ri (R117). -/
def execMovLXR (loc : Int) (rj ri : Reg) (s : State) : Outcome :=
  checked (.movLXR loc rj ri) s ((addrIndexed loc rj s).bind fun a s => storeTo a (s.getReg ri) s)

/-- MOV [LOC] Index, Rj (R118, C3). -/
def execMovLIR (loc index : Int) (rj : Reg) (s : State) : Outcome :=
  checked (.movLIR loc index rj) s (storeTo (loc + index) (s.getReg rj) s)

/-- MOV Ri, [LOC] Rj (R119). -/
def execMovRLX (ri : Reg) (loc : Int) (rj : Reg) (s : State) : Outcome :=
  checked (.movRLX ri loc rj) s ((addrIndexed loc rj s).bind fun a s => loadFrom a ri s)

/-- MOV Ri, [LOC] Index (R120). -/
def execMovRLI (ri : Reg) (loc index : Int) (s : State) : Outcome :=
  checked (.movRLI ri loc index) s (loadFrom (loc + index) ri s)

end Sys2Proof.Machine
end

