-- ==== Sys2Proof/Machine/Privileged.lean ====
section
/-! DEFINITION. IRET, LOAD, STORE and HALT (47_privileged.md R185 to R190); in user mode each raises IllegalInstruction,
which `checked` does. -/

namespace Sys2Proof.Machine

/-- IRET (R186). -/
def execIret (s : State) : Outcome :=
  checked .iret s (returnToUser s)

/-- Disk block b copied over memory page p; a copy over page 0 is a write to the ROM (R187, R62). -/
def loadPage (p b : Nat) (s : State) : Res Unit :=
  if p = 0 then
    match s.cfg.romWrite with
    | .refuse => .refuse .romWrite
    | .ignore => .ok () s
    | .write => .ok () { s with mem := s.mem.copyWords 0 s.disk (b * pageWords) pageWords }
  else .ok () { s with mem := s.mem.copyWords (p * pageWords) s.disk (b * pageWords) pageWords }

/-- Memory page p copied over disk block b (R188). -/
def storePage (b p : Nat) (s : State) : State :=
  { s with disk := s.disk.copyWords (b * pageWords) s.mem (p * pageWords) pageWords }

/-- LOAD pagenum blocknum (R187, R189). -/
def execLoad (page block : Arg) (s : State) : Outcome :=
  checked (.load page block) s
    ((argValue page s).bind fun p s =>
     (argValue block s).bind fun b s =>
     (checkPageBlock p b s).bind fun _ s =>
     (loadPage p.toNat b.toNat s).bind fun _ s => goOn s)

/-- STORE blocknum pagenum (R188, R189). -/
def execStore (block page : Arg) (s : State) : Outcome :=
  checked (.store block page) s
    ((argValue block s).bind fun b s =>
     (argValue page s).bind fun p s =>
     (checkPageBlock p b s).bind fun _ s => goOn (storePage b.toNat p.toNat s))

/-- HALT: IP keeps its own address (R190, D39). -/
def execHalt (s : State) : Outcome :=
  checked .halt s (.ok () { s with status := .halted .halt })

end Sys2Proof.Machine
end

