-- ==== Sys2Proof/Machine/Stack.lean ====
section
/-! DEFINITION. PUSH, POP, CALL and RET (44_stack_subroutine.md R160 to R163). SP points at the top element of a stack
that grows toward higher addresses. -/

namespace Sys2Proof.Machine

/-- The store of PUSH at the new top: the incremented SP for `PUSH SP`, the register's word otherwise (R160, D46). -/
def storePushed (ri : Reg) (top : Int) (s : State) : Res Unit :=
  if ri = .sp then memWriteInt top top s else memWrite top (s.getReg ri) s

/-- PUSH Ri (R160). -/
def execPush (ri : Reg) (s : State) : Outcome :=
  checked (.push ri) s
    ((readInt .sp s).bind fun n s =>
     (storePushed ri (n + 1) s).bind fun _ s =>
     (writeInt .sp (n + 1) s).bind fun _ s => goOn s)

/-- POP Ri (R161): `POP SP` leaves the popped integer less one (D46). -/
def execPop (ri : Reg) (s : State) : Outcome :=
  checked (.pop ri) s
    ((readInt .sp s).bind fun n s =>
     (memRead n s).bind fun w s =>
       if ri = .sp then
         match w.int? with
         | none => .raise .illegalOperands s
         | some v => (writeInt .sp (v - 1) s).bind fun _ s => goOn s
       else (writeInt .sp (n - 1) (s.setReg ri w)).bind fun _ s => goOn s)

/-- CALL target: the address after the CALL is pushed (R162). -/
def execCall (target : Nat) (s : State) : Outcome :=
  checked (.call target) s ((pushInt (s.ip + 2) s).bind fun _ s => goTo target s)

/-- RET (R163). -/
def execRet (s : State) : Outcome :=
  checked .ret s (popIp s)

end Sys2Proof.Machine
end

