-- ==== Sys2Proof/Machine/Dispatch.lean ====
section
/-! DEFINITION. One arm per instruction. -/

namespace Sys2Proof.Machine

/-- The meaning of an instruction in the state its fetch leaves. -/
def exec (i : Instr) (s : State) : Host.Outcome State Fault Refusal :=
  match i with
  | .movRR ri rj => Sys2Proof.Machine.execMovRR ri rj s
  | .movRI ri imm => Sys2Proof.Machine.execMovRI ri imm s
  | .movRS ri str => Sys2Proof.Machine.execMovRS ri str s
  | .movRM ri rj => Sys2Proof.Machine.execMovRM ri rj s
  | .movMR ri rj => Sys2Proof.Machine.execMovMR ri rj s
  | .movLR loc rj => Sys2Proof.Machine.execMovLR loc rj s
  | .movRL rj loc => Sys2Proof.Machine.execMovRL rj loc s
  | .movLXR loc rj ri => Sys2Proof.Machine.execMovLXR loc rj ri s
  | .movLIR loc index rj => Sys2Proof.Machine.execMovLIR loc index rj s
  | .movRLX ri loc rj => Sys2Proof.Machine.execMovRLX ri loc rj s
  | .movRLI ri loc index => Sys2Proof.Machine.execMovRLI ri loc index s
  | .add ri rj => Sys2Proof.Machine.execAdd ri rj s
  | .sub ri rj => Sys2Proof.Machine.execSub ri rj s
  | .mul ri rj => Sys2Proof.Machine.execMul ri rj s
  | .div ri rj => Sys2Proof.Machine.execDiv ri rj s
  | .mod ri rj => Sys2Proof.Machine.execMod ri rj s
  | .inr ri => Sys2Proof.Machine.execInr ri s
  | .dcr ri => Sys2Proof.Machine.execDcr ri s
  | .lt ri rj => Sys2Proof.Machine.execLt ri rj s
  | .gt ri rj => Sys2Proof.Machine.execGt ri rj s
  | .eq ri rj => Sys2Proof.Machine.execEq ri rj s
  | .ne ri rj => Sys2Proof.Machine.execNe ri rj s
  | .ge ri rj => Sys2Proof.Machine.execGe ri rj s
  | .le ri rj => Sys2Proof.Machine.execLe ri rj s
  | .jz ri target => Sys2Proof.Machine.execJz ri target s
  | .jnz ri target => Sys2Proof.Machine.execJnz ri target s
  | .jmp target => Sys2Proof.Machine.execJmp target s
  | .push ri => Sys2Proof.Machine.execPush ri s
  | .pop ri => Sys2Proof.Machine.execPop ri s
  | .call target => Sys2Proof.Machine.execCall target s
  | .ret => Sys2Proof.Machine.execRet s
  | .inp ri => Sys2Proof.Machine.execIn ri s
  | .out ri => Sys2Proof.Machine.execOut ri s
  | .brkp => Sys2Proof.Machine.execBrkp s
  | .fin => Sys2Proof.Machine.execEnd s
  | .int n => Sys2Proof.Machine.execInt n s
  | .iret => Sys2Proof.Machine.execIret s
  | .load page block => Sys2Proof.Machine.execLoad page block s
  | .store block page => Sys2Proof.Machine.execStore block page s
  | .halt => Sys2Proof.Machine.execHalt s

end Sys2Proof.Machine
end

