-- ==== Sys2Proof/Machine/Cycle.lean ====
section
/-! DEFINITION. The instruction cycle of 30_encoding.md R95: timer check, fetch, decode, execute, count. -/

namespace Sys2Proof.Machine

/-- The map from two words to an instruction: the parameter `DECODE` of 00_scope.md R5. -/
abbrev Decoder := Word → Word → Option Instr

/-- Steps 3 to 6 of R95: a fetch that faults and a text that does not decode raise, the rest is the instruction's. -/
def fetchExecute (dec : Decoder) (s : State) : Outcome :=
  match fetch s with
  | .ok (w0, w1) t =>
    match dec w0 w1 with
    | some i => exec i t
    | none => raiseException .illegalInstruction t
  | .raise e t => raiseException e t
  | .refuse r => .refused r

/-- Step 7 of R95: a step that began its fetch in user mode counts for the timer, whatever came of it (R214). -/
def countStep (began : Mode) (o : Outcome) : Outcome :=
  match began, o with
  | .user, .next t => .next { t with timerCount := t.timerCount + 1 }
  | .user, .fault f => .fault f
  | .user, .refused r => .refused r
  | .kernel, o => o

/-- One step of a running machine (R95). -/
def runningStep (dec : Decoder) (s : State) : Outcome :=
  if timerDue s then timerInterrupt s else countStep s.mode (fetchExecute dec s)

/-- One step under a decoder (R95); a machine that has halted has none (R31). -/
def stepWith (dec : Decoder) (s : State) : Outcome :=
  match s.status with
  | .running => runningStep dec s
  | .halted _ => .fault .halted

/-- The physical address a fetch reads for an address, where it has one. -/
def fetchAddress (a : Int) (s : State) : Option Nat :=
  match translateAddr a s with
  | .ok pa _ => some pa
  | .raise _ _ => none
  | .refuse _ => none

/-- A word put at the physical address the fetch reads, past the ROM rule: a program comes from outside the machine. -/
def placeAt (a : Int) (w : Word) (s : State) : State :=
  match fetchAddress a s with
  | some pa => { s with mem := s.mem.write pa w }
  | none => s

/-- An instruction's two words where the next step fetches, in a machine that runs and whose timer is not due. -/
def placeInstruction (w0 w1 : Word) (s : State) : State :=
  let ready : State := { s with status := .running, timerCount := if timerDue s then 0 else s.timerCount }
  placeAt (s.ip + 1) w1 (placeAt s.ip w0 ready)

end Sys2Proof.Machine
end

