-- ==== Sys2Proof/Machine/Step.lean ====
section
/-! DEFINITION. The step of the machine, and the placing of one instruction before it. -/

namespace Sys2Proof.Machine

/-- One step, under the default of `DECODE`: the text encoding of 30_encoding.md. -/
def step (s : State) : Host.Outcome State Fault Refusal := stepWith decodeWords s

/-- The state with an instruction given as a number (`wordsOfNumber`) stored where `step` fetches next. -/
def State.withFetchWord (s : State) (nbits w : Nat) : State :=
  match wordsOfNumber nbits w with
  | some (w0, w1) => placeInstruction w0 w1 s
  | none => s

end Sys2Proof.Machine
end

