-- ==== Sys2Proof/Safety.lean ====
section
/-! DEFINITION. The terms the statements use: what an instruction leaves unchanged, what holds of every reachable state,
what the spec states of the reset state, and when a run is safe; and, before them, which texts spell an instruction. -/

namespace Sys2Proof

/-! ### Texts (30_encoding.md R83 to R88), as the spec words them and not by way of the decoder -/

/-- A text is the token of an operand: a register's name, an integer's digits, a string in quotes, or one of the first two
immediately between brackets (R83, R84). -/
def OperandToken : Operand → Text → Prop
  | .reg r, t => t = r.name
  | .int v, t => parseInt t = some v
  | .str w, t => t = Chr.quote :: (w.chars ++ [Chr.quote]) ∧ ∀ c ∈ w.chars, c ≠ Chr.quote
  | .memReg r, t => t = Chr.openBracket :: (r.name ++ [Chr.closeBracket])
  | .memInt v, t => ∃ digits, parseInt digits = some v ∧ t = Chr.openBracket :: (digits ++ [Chr.closeBracket])

/-- A run of separators: spaces, horizontal tabs and commas (R83). -/
def Separators (t : Text) : Prop := ∀ c ∈ t, c.code = 32 ∨ c.code = 9 ∨ c.code = 44

/-- A text is these tokens in this order and nothing else but separators, which may stand before each token and after the
last; every token is followed by a separator or by the end (R83). -/
def LaidOut : List Text → Text → Prop
  | [], t => Separators t
  | token :: tokens, t => ∃ gap rest, t = gap ++ token ++ rest ∧ Separators gap
      ∧ (rest = [] ∨ ∃ c cs, rest = c :: cs ∧ Separators [c]) ∧ LaidOut tokens rest

/-- A text spells an instruction: its tokens are the mnemonic and the operand tokens of the instruction's row of the form
table (R86). -/
def Spells (i : Instr) (t : Text) : Prop :=
  ∃ operands, List.Forall₂ OperandToken i.parts.2 operands ∧ LaidOut (i.parts.1.name :: operands) t

end Sys2Proof

namespace Sys2Proof.Machine

/-! ### Frames -/

/-- Every register but IP and those listed reads as before. -/
def RegsKept (changed : List Reg) (s t : State) : Prop :=
  ∀ r : Reg, r ≠ .ip → r ∉ changed → t.getReg r = s.getReg r

/-- Every word of the main memory but those listed reads as before. -/
def MemKept (changed : List Nat) (s t : State) : Prop :=
  ∀ a : Nat, a ∉ changed → t.mem.read a = s.mem.read a

/-- The disk reads as before, word for word. -/
def DiskKept (s t : State) : Prop :=
  ∀ a : Nat, t.disk.read a = s.disk.read a

/-- The hidden state, the configuration and the host's view of the debugger stay. -/
def HiddenKept (s t : State) : Prop :=
  t.mode = s.mode ∧ t.status = s.status ∧ t.timerCount = s.timerCount ∧ t.cfg = s.cfg ∧ t.debugCalls = s.debugCalls

/-- Standard input and output stay. -/
def ConsoleKept (s t : State) : Prop :=
  t.out = s.out ∧ t.input = s.input

/-- The frame of an instruction that changes no more than IP, the listed registers and the listed words of memory. -/
def Frame (regs : List Reg) (words : List Nat) (s t : State) : Prop :=
  RegsKept regs s t ∧ MemKept words s t ∧ DiskKept s t ∧ HiddenKept s t ∧ ConsoleKept s t

/-- As `Frame`, where the instruction's address translation has left the state `s1`: memory is compared with `s1`'s, which
differs from `s`'s by a reference bit at most, and everything else with `s`'s. -/
def FrameVia (regs : List Reg) (words : List Nat) (s s1 t : State) : Prop :=
  RegsKept regs s t ∧ MemKept words s1 t ∧ DiskKept s t ∧ HiddenKept s t ∧ ConsoleKept s t

/-- The frame of entering the kernel by an interrupt: IP and the mode change, SP and the stack word too. -/
def EntryFrame (words : List Nat) (s s1 t : State) : Prop :=
  RegsKept [.sp] s t ∧ MemKept words s1 t ∧ DiskKept s t ∧ ConsoleKept s t
    ∧ t.status = s.status ∧ t.cfg = s.cfg ∧ t.debugCalls = s.debugCalls

/-- A write to a physical word takes effect: it is outside the ROM page, or `ROM_WRITE` lets it (20_memory.md R62). -/
def Writable (s : State) (pa : Nat) : Prop := 512 ≤ pa ∨ s.cfg.romWrite = .write

/-- IP is at a target, wherever the target has a text (00_scope.md R7). -/
def AtTarget (n : Int) (s t : State) : Prop :=
  strDefined s.cfg n = true → t.ip = n

/-! ### What a form of instruction does -/

/-- The instruction completes with IP at `n` and what `P` says. The text of `n` is taken on the way (00_scope.md R7):
where it is unspecified there is no step (R12, U1), unless the configuration lets a free value stand for it, and then nothing is
said of IP (the model's choice, notes/assumptions/10.md). -/
def CompletesAt (n : Int) (i : Instr) (s : State) (P : State → Prop) : Prop :=
  (hasText s.cfg n = true → ∃ t, exec i s = .next t ∧ AtTarget n s t ∧ P t)
    ∧ (hasText s.cfg n = false → exec i s = .refused .noText)

/-- The instruction completes and goes on to the next one, with what `P` says. -/
def Completes (i : Instr) (s : State) (P : State → Prop) : Prop := CompletesAt (s.ip + 2) i s P

/-- The instruction completes: it writes `w` to `dest` and goes on, and changes nothing else. -/
def Writes (i : Instr) (dest : Reg) (w : Word) (s : State) : Prop :=
  Completes i s fun t => t.getReg dest = w ∧ Frame [dest] [] s t

/-- Where its address translates, the instruction completes: it writes the word there to `dest` and goes on, and changes
nothing else. -/
def LoadsFrom (i : Instr) (dest : Reg) (a : Int) (s : State) : Prop :=
  ∀ pa s1, translateAddr a s = .ok pa s1 →
    Completes i s fun t => t.getReg dest = s1.mem.read pa ∧ FrameVia [dest] [] s s1 t

/-- Where its address translates to a word that can be written, the instruction completes: it writes `w` there and goes
on, and changes nothing else; where the ROM page drops writes, it changes nothing but IP; where the ROM page refuses them,
so is the instruction. -/
def StoresTo (i : Instr) (a : Int) (w : Word) (s : State) : Prop :=
  ∀ pa s1, translateAddr a s = .ok pa s1 →
    (Writable s pa → Completes i s fun t => t.mem.read pa = w ∧ FrameVia [] [pa] s s1 t)
    ∧ (pa < 512 → s.cfg.romWrite = .ignore → Completes i s fun t => FrameVia [] [] s s1 t)
    ∧ (pa < 512 → s.cfg.romWrite = .refuse → exec i s = .refused .romWrite)

/-- The instruction raises an exception from the state `u`, which is the state before it but for reference bits. What
comes of it is `raiseException`'s: the state after the exception, unless its EFR is unspecified. -/
def RaisesFrom (i : Instr) (x : Exn) (u s : State) : Prop :=
  exec i s = raiseException x u

/-- The value of an argument of LOAD or STORE, if it has one (47_privileged.md R189). -/
def argInt (s : State) : Arg → Option Int
  | .reg r => (s.getReg r).int?
  | .lit v => some v

/-! ### The page table as the hardware reads it (20_memory.md R54 to R57) -/

/-- Entry k of the page table is at physical words `e` and `e + 1`. -/
def EntryAt (s : State) (k e : Nat) : Prop :=
  ∃ len base : Int, s.ptlr.int? = some len ∧ s.ptbr.int? = some base ∧ (k : Int) < len ∧ (e : Int) = base + 2 * (k : Int)
    ∧ e + 1 ≤ 32767

/-- The second word of the entry at `e` is well formed: its first character, the reference bit, is `c`, its second, the
valid bit, is `v`, each the character `0` (48) or `1` (49), and `rest` follows (R57). -/
def EntryBits (s : State) (e : Nat) (c v : Chr) (rest : Text) : Prop :=
  (s.mem.read (e + 1)).chars = c :: v :: rest ∧ (c.code = 48 ∨ c.code = 49) ∧ (v.code = 48 ∨ v.code = 49)

/-- Entry k is valid and names physical page p. -/
def MapsPage (s : State) (k p : Nat) : Prop :=
  ∃ (e : Nat) (c v : Chr) (rest : Text), EntryAt s k e ∧ (s.mem.read e).int? = some (p : Int) ∧ p ≤ 63
    ∧ EntryBits s e c v rest ∧ v.code = 49

/-! ### Reachable states -/

/-- What every step keeps. The memories are canonical and within their sizes; IP is an integer a word can hold; the timer
is never past its interval; a machine halted by an exception or by HALT is in kernel mode, and no page fault halts it. -/
def State.Inv (s : State) : Prop :=
  Memory.wf memWords s.mem ∧ Memory.wf diskWords s.disk
    ∧ wordIntMin ≤ s.ip ∧ s.ip ≤ wordIntMax
    ∧ (∀ n, s.cfg.timerInterval = some n → s.timerCount ≤ n)
    ∧ (∀ c, s.status = .halted (.exception c) → s.mode = .kernel ∧ c ≠ .pageFault)
    ∧ (s.status = .halted .halt → s.mode = .kernel)

/-- What 10_state.md R41 states of the state after reset: every other register, every other word of memory and the disk
may hold anything. -/
def State.AtReset (s : State) : Prop :=
  s.mode = .kernel ∧ s.ip = 0 ∧ s.status = .running ∧ s.timerCount = 0 ∧ s.out = []
    ∧ s.mem.read 0 = Word.lit "LOAD 1, 0" ∧ s.mem.read 1 = Word.lit ""
    ∧ s.mem.read 2 = Word.lit "JMP 512" ∧ s.mem.read 3 = Word.lit ""

/-- A step that goes on: neither stuck nor refused. -/
def State.Steps (s : State) : Prop := ∃ t, step s = .next t

/-- A run of n steps that never stops short and never halts with an exception (70_reset_and_hazards.md R246). -/
def SafeRun : Nat → State → Prop
  | 0, _ => True
  | n + 1, s => ∃ t, step s = .next t ∧ (∀ c, t.status ≠ .halted (.exception c)) ∧ SafeRun n t

end Sys2Proof.Machine
end

