-- ==== Sys2Proof/Certificates/Slice0/Obligations.lean ====
section
/-! DEFINITION. The statements. Each docstring names the rule of spec/ it formalises, or says that it is the model's own
choice and names the log entry. -/

open Sys2Proof Sys2Proof.Machine

/-! ### Encoding -/

/-- A few texts of every family decode to the instruction they spell (30_encoding.md R86). -/
def Obligations.SampleTextsDecode : Prop :=
  decodeWords (Word.lit "MOV R0, R1") (Word.lit "") = some (.movRR (.r 0) (.r 1))
    ∧ decodeWords (Word.lit "MOV [1024] S1, ") (Word.lit "S0") = some (.movLXR 1024 (.s 1) (.s 0))
    ∧ decodeWords (Word.lit "MOD T3, BP") (Word.lit "") = some (.mod (.t 3) .bp)
    ∧ decodeWords (Word.lit "GE R5, R6") (Word.lit "") = some (.ge (.r 5) (.r 6))
    ∧ decodeWords (Word.lit "JNZ R0, 5") (Word.lit "24") = some (.jnz (.r 0) 524)
    ∧ decodeWords (Word.lit "CALL 0") (Word.lit "") = some (.call 0)
    ∧ decodeWords (Word.lit "OUT IP") (Word.lit "") = some (.out .ip)
    ∧ decodeWords (Word.lit "INT 07") (Word.lit "") = some (.int 7)
    ∧ decodeWords (Word.lit "STORE R1, 31") (Word.lit "") = some (.store (.reg (.r 1)) (.lit 31))
    ∧ decodeWords (Word.lit "MOV 4 R0") (Word.lit "") = none

/-- The decoder reads every instruction back from its canonical encoding (R82, R88): no operand is dropped. -/
def Obligations.DecodeReadsBackEncode : Prop :=
  ∀ i : Instr, i.encodable = true → decodeWords (encode i).1 (encode i).2 = some i

/-- Two words decode to an instruction exactly where their text spells it, token by token, by its row of the form table, and its
literals satisfy the constraints of R85: INT's number is 1 to 7 and a string holds no quote. Every other text is illegal
(R83 to R86, R88, R89). -/
def Obligations.DecodesExactlyItsFormTable : Prop :=
  ∀ (w0 w1 : Word) (i : Instr),
    decodeWords w0 w1 = some i ↔ Spells i (w0.chars ++ w1.chars) ∧ i.wellFormed = true

/-- Separators are interchangeable and carry no meaning (R83): outside strings any of them may stand for any other, and
one more before the text changes nothing. -/
def Obligations.SeparatorsCarryNoMeaning : Prop :=
  (∀ t : Text, (∀ c ∈ t, c ≠ Chr.quote) →
      decode (t.map fun c => if c.isSeparator then Chr.ofNat 32 else c) = decode t)
    ∧ ∀ (c : Chr) (t : Text), c.isSeparator = true → decode (c :: t) = decode t

/-! ### Integers as text -/

/-- A word is an integer exactly where it is an optional minus sign, code 45, then one or more digits, codes 48 to 57, and
nothing else; `str` writes what `int` reads back, without leading zeros and with a minus sign exactly on the negative numbers;
`int` accepts leading zeros (00_scope.md R7). -/
def Obligations.IntegerTextIsCanonical : Prop :=
  (∀ w : Word, (∃ n, w.int? = some n) ↔
      ∃ ds : Text, ds ≠ [] ∧ (∀ c ∈ ds, 48 ≤ c.code ∧ c.code ≤ 57) ∧ (w.chars = ds ∨ w.chars = Chr.ofNat 45 :: ds))
    ∧ (∀ (cfg : Config) (n : Int), strDefined cfg n = true →
      (Word.ofInt n).int? = some n
        ∧ ((∃ rest, (Word.ofInt n).chars = Chr.minus :: rest) ↔ n < 0)
        ∧ (∀ rest, (Word.ofInt n).chars = chrZero :: rest → n = 0 ∧ rest = [])
        ∧ ∀ rest, (Word.ofInt n).chars ≠ Chr.minus :: chrZero :: rest)
    ∧ ∀ t : Text, isDigits t = true →
        parseInt (chrZero :: t) = parseInt t ∧ parseInt (Chr.minus :: chrZero :: t) = parseInt (Chr.minus :: t)

/-! ### MOV -/

/-- MOV from a register and from a literal (40_mov.md R111, R112). Where IP + 2 has no text (00_scope.md R7) there is no step
under the spec's treatment, refuse (R12, U1); that the instruction completes there under the other value of that parameter, with
a free IP, is the model's choice (notes/assumptions/10.md). -/
def Obligations.MovCopiesRegisterOrLiteral : Prop :=
  ∀ (s : State) (ri rj : Reg) (imm : Int) (str : Word),
    (legalIn s.mode (.movRR ri rj) = true → Writes (.movRR ri rj) ri (s.getReg rj) s)
    ∧ (legalIn s.mode (.movRI ri imm) = true → strDefined s.cfg imm = true →
        Writes (.movRI ri imm) ri (Word.ofInt imm) s)
    ∧ (legalIn s.mode (.movRS ri str) = true → Writes (.movRS ri str) ri str s)

/-- The four loads of MOV read the word at their address (R113, R116, R119, R120). Where IP + 2 has no text (00_scope.md R7)
there is no step under the spec's treatment, refuse (R12, U1); that the instruction completes there under the other value of
that parameter, with a free IP, is the model's choice (notes/assumptions/10.md). -/
def Obligations.MovLoadsWordAtAddress : Prop :=
  ∀ (s : State) (ri rj : Reg) (loc index : Int),
    (legalIn s.mode (.movRM ri rj) = true → ∀ a, (s.getReg rj).int? = some a → LoadsFrom (.movRM ri rj) ri a s)
    ∧ (legalIn s.mode (.movRL ri loc) = true → LoadsFrom (.movRL ri loc) ri loc s)
    ∧ (legalIn s.mode (.movRLX ri loc rj) = true → ∀ a, (s.getReg rj).int? = some a →
        LoadsFrom (.movRLX ri loc rj) ri (loc + a) s)
    ∧ (legalIn s.mode (.movRLI ri loc index) = true → LoadsFrom (.movRLI ri loc index) ri (loc + index) s)

/-- The four stores of MOV write the word at their address (R114, R115, R117, R118). Where IP + 2 has no text (00_scope.md R7)
there is no step under the spec's treatment, refuse (R12, U1); that the instruction completes there under the other value of
that parameter, with a free IP, is the model's choice (notes/assumptions/10.md). -/
def Obligations.MovStoresWordAtAddress : Prop :=
  ∀ (s : State) (ri rj : Reg) (loc index : Int),
    (legalIn s.mode (.movMR ri rj) = true → ∀ a, (s.getReg ri).int? = some a →
        StoresTo (.movMR ri rj) a (s.getReg rj) s)
    ∧ (legalIn s.mode (.movLR loc rj) = true → StoresTo (.movLR loc rj) loc (s.getReg rj) s)
    ∧ (legalIn s.mode (.movLXR loc rj ri) = true → ∀ a, (s.getReg rj).int? = some a →
        StoresTo (.movLXR loc rj ri) (loc + a) (s.getReg ri) s)
    ∧ (legalIn s.mode (.movLIR loc index rj) = true → StoresTo (.movLIR loc index rj) (loc + index) (s.getReg rj) s)

/-- The memory forms of MOV raise what their address raises: IllegalOperands where the register holds no integer, and the
exception of the translation otherwise; nothing is loaded or stored then (R113 to R120). -/
def Obligations.MovRaisesWhatItsAddressRaises : Prop :=
  ∀ (s : State) (ri rj : Reg) (loc index : Int),
    (∀ i ∈ [Instr.movRM ri rj, .movMR rj ri, .movRLX ri loc rj, .movLXR loc rj ri], legalIn s.mode i = true →
        (s.getReg rj).int? = none → RaisesFrom i .illegalOperands s s)
    ∧ (∀ i ∈ [Instr.movRM ri rj, .movMR rj ri], legalIn s.mode i = true →
        ∀ a x u, (s.getReg rj).int? = some a → translateAddr a s = .raise x u → RaisesFrom i x s s)
    ∧ (∀ i ∈ [Instr.movRLX ri loc rj, .movLXR loc rj ri], legalIn s.mode i = true →
        ∀ a x u, (s.getReg rj).int? = some a → translateAddr (loc + a) s = .raise x u → RaisesFrom i x s s)
    ∧ (∀ i ∈ [Instr.movRL ri loc, .movLR loc ri], legalIn s.mode i = true →
        ∀ x u, translateAddr loc s = .raise x u → RaisesFrom i x s s)
    ∧ (∀ i ∈ [Instr.movRLI ri loc index, .movLIR loc index ri], legalIn s.mode i = true →
        ∀ x u, translateAddr (loc + index) s = .raise x u → RaisesFrom i x s s)

/-! ### Arithmetic -/

/-- ADD, SUB and MUL write the text of the exact result to the first operand; an operand that is no integer raises
IllegalOperands (41_arithmetic.md R131 to R133). Where IP + 2 has no text (00_scope.md R7) there is no step under the spec's
treatment, refuse (R12, U1); that the instruction completes there under the other value of that parameter, with a free IP, is
the model's choice (notes/assumptions/10.md). -/
def Obligations.AddSubMulWriteExactResult : Prop :=
  ∀ (s : State) (ri rj : Reg) (i : Instr) (f : Int → Int → Int),
    (i, f) ∈ [(Instr.add ri rj, fun a b => a + b), (.sub ri rj, fun a b => a - b), (.mul ri rj, fun a b => a * b)] →
    legalIn s.mode i = true →
      (∀ a b, (s.getReg ri).int? = some a → (s.getReg rj).int? = some b → strDefined s.cfg (f a b) = true →
          Writes i ri (Word.ofInt (f a b)) s)
      ∧ ((s.getReg ri).int? = none ∨ (s.getReg rj).int? = none → RaisesFrom i .illegalOperands s s)

/-- DIV and MOD write the quotient and the remainder; IllegalOperands comes first, then ArithmeticException for a divisor of
zero (R134, R135). Where IP + 2 has no text (00_scope.md R7) there is no step under the spec's treatment, refuse (R12, U1); that
the instruction completes there under the other value of that parameter, with a free IP, is the model's choice
(notes/assumptions/10.md). -/
def Obligations.DivModWriteQuotientRemainder : Prop :=
  ∀ (s : State) (ri rj : Reg) (i : Instr) (f : Int → Int → Int),
    (i, f) ∈ [(Instr.div ri rj, quot s.cfg.divRounding), (.mod ri rj, rem s.cfg.divRounding)] →
    legalIn s.mode i = true →
      (∀ a b, (s.getReg ri).int? = some a → (s.getReg rj).int? = some b → b ≠ 0 → strDefined s.cfg (f a b) = true →
          Writes i ri (Word.ofInt (f a b)) s)
      ∧ (∀ a, (s.getReg ri).int? = some a → (s.getReg rj).int? = some 0 → RaisesFrom i .arithmetic s s)
      ∧ ((s.getReg ri).int? = none ∨ (s.getReg rj).int? = none → RaisesFrom i .illegalOperands s s)

/-- INR and DCR add and take one (R136, R137). Where IP + 2 has no text (00_scope.md R7) there is no step under the spec's
treatment, refuse (R12, U1); that the instruction completes there under the other value of that parameter, with a free IP, is
the model's choice (notes/assumptions/10.md). -/
def Obligations.IncrementDecrementByOne : Prop :=
  ∀ (s : State) (ri : Reg) (i : Instr) (d : Int), (i, d) ∈ [(Instr.inr ri, 1), (.dcr ri, -1)] →
    legalIn s.mode i = true →
      (∀ a, (s.getReg ri).int? = some a → strDefined s.cfg (a + d) = true → Writes i ri (Word.ofInt (a + d)) s)
      ∧ ((s.getReg ri).int? = none → RaisesFrom i .illegalOperands s s)

/-- `quot` and `rem`. Of the default, truncation: they divide, the remainder is smaller than the divisor, the quotient is
truncated toward zero and the remainder has the dividend's sign; of every convention, that all agree on a dividend that is not
negative and a positive divisor (R138 (c)). That the other two conventions are floor division, whose remainder has the divisor's
sign, and Euclidean division, whose remainder is not negative, is the model's choice (notes/assumptions/19.md). -/
def Obligations.QuotientRemainderLaws : Prop :=
  ∀ (d : DivRounding) (a b : Int), b ≠ 0 →
    a = b * quot d a b + rem d a b ∧ (rem d a b).natAbs < b.natAbs
      ∧ (0 ≤ a → 0 < b → quot d a b = a / b ∧ rem d a b = a % b)
      ∧ (d = .truncate → (quot d a b).natAbs = a.natAbs / b.natAbs ∧ 0 ≤ a * rem d a b ∧ 0 ≤ a * b * quot d a b)
      ∧ (d = .floor → 0 ≤ b * rem d a b)
      ∧ (d = .euclid → 0 ≤ rem d a b)

/-- Which truncated quotients and remainders of two integers in the default range leave it: no remainder does, and a
quotient does just where a dividend of 15 digits is divided by a negative number small enough. R134 says that no quotient
does; its reason, that the quotient is no larger than the dividend, overlooks that the range has one digit less below
zero (notes/assumptions/12.md). -/
def Obligations.QuotientLeavesRangeOnlyDownward : Prop :=
  ∀ a b : Int, strDefined standardConfig a = true → strDefined standardConfig b = true → b ≠ 0 →
    strDefined standardConfig (rem .truncate a b) = true
      ∧ (strDefined standardConfig (quot .truncate a b) = false ↔ b < 0 ∧ 100000000000000 * -b ≤ a)
      ∧ (strDefined standardConfig (quot .truncate a b) = false → -9 ≤ b ∧ b ≤ -1 ∧ 100000000000000 ≤ a)

/-- A result or an immediate without a text is unspecified (R131 to R138, U1): under the spec's treatment, refuse, there is no
step; under the model's other value of that parameter (notes/assumptions/10.md) the instruction completes and changes nothing
but its destination, whose word is free, and IP. -/
def Obligations.ResultOutOfRangeFollowsItsParameter : Prop :=
  ∀ (s : State) (ri rj : Reg) (i : Instr) (r : Int), legalIn s.mode i = true → strDefined s.cfg r = false →
    (i = .movRI ri r
      ∨ (∃ a, (s.getReg ri).int? = some a ∧ (i, r) ∈ [(Instr.inr ri, a + 1), (.dcr ri, a - 1)])
      ∨ (∃ a b, (s.getReg ri).int? = some a ∧ (s.getReg rj).int? = some b
          ∧ (i, r) ∈ [(Instr.add ri rj, a + b), (.sub ri rj, a - b), (.mul ri rj, a * b)])
      ∨ (∃ a b, (s.getReg ri).int? = some a ∧ (s.getReg rj).int? = some b ∧ b ≠ 0
          ∧ (i, r) ∈ [(Instr.div ri rj, quot s.cfg.divRounding a b), (.mod ri rj, rem s.cfg.divRounding a b)])) →
      (s.cfg.unspecifiedValue = .refuse → exec i s = .refused .noText)
      ∧ (s.cfg.unspecifiedValue = .free → ∃ t, exec i s = .next t ∧ AtTarget (s.ip + 2) s t ∧ Frame [ri] [] s t)

/-! ### Comparison -/

/-- The six comparisons write "1" or "0" to the first operand and raise nothing (42_logical.md R141 to R146). Where IP + 2 has
no text (00_scope.md R7) there is no step under the spec's treatment, refuse (R12, U1); that the instruction completes there
under the other value of that parameter, with a free IP, is the model's choice (notes/assumptions/10.md). -/
def Obligations.ComparisonsWriteTruth : Prop :=
  ∀ (s : State) (ri rj : Reg) (i : Instr) (test : Ordering → Prop) (w : Word),
    (i, test) ∈ [(Instr.lt ri rj, fun c => c = .lt), (.gt ri rj, fun c => c = .gt), (.eq ri rj, fun c => c = .eq),
      (.ne ri rj, fun c => c ≠ .eq), (.ge ri rj, fun c => c ≠ .lt), (.le ri rj, fun c => c ≠ .gt)] →
    legalIn s.mode i = true →
    (test (cmpWord (s.getReg ri) (s.getReg rj)) ∧ w = Word.lit "1"
      ∨ ¬ test (cmpWord (s.getReg ri) (s.getReg rj)) ∧ w = Word.lit "0") →
      Writes i ri w s

/-- `cmp` is numeric on two integers; otherwise it is lexicographic by character code, a proper prefix being less
(00_scope.md R14). -/
def Obligations.CmpIsNumericOrLexicographic : Prop :=
  ∀ a b : Word,
    (∀ m n : Int, a.int? = some m → b.int? = some n →
      (cmpWord a b = .lt ↔ m < n) ∧ (cmpWord a b = .eq ↔ m = n) ∧ (cmpWord a b = .gt ↔ n < m))
    ∧ (a.int? = none ∨ b.int? = none →
      (cmpWord a b = .eq ↔ a = b)
      ∧ (cmpWord a b = .lt ↔
          (∃ (p x y : Text) (c d : Chr), a.chars = p ++ c :: x ∧ b.chars = p ++ d :: y ∧ c.code < d.code)
          ∨ ∃ (c : Chr) (y : Text), b.chars = a.chars ++ c :: y)
      ∧ (cmpWord a b = .gt ↔ cmpWord b a = .lt))

/-- `cmp` is antisymmetric on all words and transitive on the integers and on the words that are none; on all words taken
together it is not transitive: "9" < "10" < "1a" < "9" (42_logical.md R147). -/
def Obligations.CmpOrdersEachKindButNotAll : Prop :=
  (∀ a b : Word, cmpWord b a = (cmpWord a b).swap)
    ∧ (∀ a b c : Word, (a.isInt = true ∧ b.isInt = true ∧ c.isInt = true
          ∨ a.isInt = false ∧ b.isInt = false ∧ c.isInt = false) →
        cmpWord a b = .lt → cmpWord b c = .lt → cmpWord a c = .lt)
    ∧ cmpWord (Word.lit "9") (Word.lit "10") = .lt ∧ cmpWord (Word.lit "10") (Word.lit "1a") = .lt
    ∧ cmpWord (Word.lit "1a") (Word.lit "9") = .lt

/-! ### Branches -/

/-- JZ and JNZ jump on a register that is zero, or is not, and go on otherwise; a register that holds no integer raises
IllegalOperands (43_branch.md R151, R152). An address gone to, the target or the next instruction's, that has no text is
unspecified (00_scope.md R7): under the spec's treatment, refuse, there is no step (R12, U1); that under the other value of that
parameter the instruction completes, with a free IP, is the model's choice (notes/assumptions/10.md). -/
def Obligations.ConditionalJumpsTestForZero : Prop :=
  ∀ (s : State) (ri : Reg) (target : Nat) (i : Instr) (taken : Int → Prop),
    (i, taken) ∈ [(Instr.jz ri target, fun v => v = 0), (.jnz ri target, fun v => v ≠ 0)] →
    legalIn s.mode i = true →
      (∀ v, (s.getReg ri).int? = some v →
        (taken v → CompletesAt target i s (Frame [] [] s)) ∧ (¬ taken v → Completes i s (Frame [] [] s)))
      ∧ ((s.getReg ri).int? = none → RaisesFrom i .illegalOperands s s)

/-- Where its target has a text, JMP goes to it and changes nothing else (R153). A target without one is unspecified (00_scope.md
R7): under the spec's treatment, refuse, there is no step (R12, U1); that under the other value of that parameter JMP completes,
with a free IP, is the model's choice (notes/assumptions/10.md). -/
def Obligations.JmpGoesToTarget : Prop :=
  ∀ (s : State) (target : Nat), CompletesAt target (.jmp target) s (Frame [] [] s)

/-! ### Stack and subroutines -/

/-- PUSH stores the register at SP + 1 and moves SP there; `PUSH SP` stores the incremented SP (44_stack_subroutine.md R160).
Where IP + 2 has no text (00_scope.md R7) there is no step under the spec's treatment, refuse (R12, U1); that PUSH completes
there under the other value of that parameter, with a free IP, is the model's choice (notes/assumptions/10.md). -/
def Obligations.PushStoresAboveTop : Prop :=
  ∀ (s : State) (ri : Reg) (n : Int) (pa : Nat) (s1 : State), legalIn s.mode (.push ri) = true →
    (s.getReg .sp).int? = some n → strDefined s.cfg (n + 1) = true → translateAddr (n + 1) s = .ok pa s1 → Writable s pa →
      Completes (.push ri) s fun t =>
        t.mem.read pa = (if ri = .sp then Word.ofInt (n + 1) else s.getReg ri)
          ∧ t.getReg .sp = Word.ofInt (n + 1) ∧ FrameVia [.sp] [pa] s s1 t

/-- POP loads the register from SP and takes one from SP; `POP SP` leaves the popped integer less one, and raises
IllegalOperands where the popped word is none (R161). Where IP + 2 has no text (00_scope.md R7) there is no step under the
spec's treatment, refuse (R12, U1); that POP completes there under the other value of that parameter, with a free IP, is the
model's choice (notes/assumptions/10.md). -/
def Obligations.PopLoadsTop : Prop :=
  ∀ (s : State) (ri : Reg) (n : Int) (pa : Nat) (s1 : State), legalIn s.mode (.pop ri) = true →
    (s.getReg .sp).int? = some n → translateAddr n s = .ok pa s1 →
      (ri ≠ .sp → strDefined s.cfg (n - 1) = true →
        Completes (.pop ri) s fun t =>
          t.getReg ri = s1.mem.read pa ∧ t.getReg .sp = Word.ofInt (n - 1) ∧ FrameVia [ri, .sp] [] s s1 t)
      ∧ (ri = .sp → ∀ v, (s1.mem.read pa).int? = some v → strDefined s.cfg (v - 1) = true →
        Completes (.pop ri) s fun t => t.getReg .sp = Word.ofInt (v - 1) ∧ FrameVia [.sp] [] s s1 t)
      ∧ (ri = .sp → (s1.mem.read pa).int? = none → RaisesFrom (.pop ri) .illegalOperands s1 s)

/-- CALL stores the address after it at SP + 1, moves SP there and jumps (R162). A target that has no text is unspecified
(00_scope.md R7): under the spec's treatment, refuse, there is no step (R12, U1); that under the other value of that parameter CALL
completes, with a free IP, is the model's choice (notes/assumptions/10.md). -/
def Obligations.CallPushesReturnAddress : Prop :=
  ∀ (s : State) (target : Nat) (n : Int) (pa : Nat) (s1 : State),
    (s.getReg .sp).int? = some n → strDefined s.cfg (n + 1) = true → strDefined s.cfg (s.ip + 2) = true →
    translateAddr (n + 1) s = .ok pa s1 → Writable s pa →
      CompletesAt target (.call target) s fun t =>
        t.mem.read pa = Word.ofInt (s.ip + 2) ∧ t.getReg .sp = Word.ofInt (n + 1) ∧ FrameVia [.sp] [pa] s s1 t

/-- RET takes IP from SP and takes one from SP; a popped word that is no integer raises IllegalOperands (R163). A popped integer
that has no text is unspecified (00_scope.md R7): under the spec's treatment, refuse, there is no step (R12, U1); that under the
other value of that parameter RET completes, with a free IP, is the model's choice (notes/assumptions/10.md). -/
def Obligations.RetPopsIp : Prop :=
  ∀ (s : State) (n : Int) (pa : Nat) (s1 : State), (s.getReg .sp).int? = some n → translateAddr n s = .ok pa s1 →
    (∀ v, (s1.mem.read pa).int? = some v → strDefined s.cfg (n - 1) = true →
      CompletesAt v .ret s fun t => t.getReg .sp = Word.ofInt (n - 1) ∧ FrameVia [.sp] [] s s1 t)
    ∧ ((s1.mem.read pa).int? = none → RaisesFrom .ret .illegalOperands s1 s)

/-- The stack instructions raise IllegalOperands where SP holds no integer and what the translation of their address
raises otherwise; SP does not move then (R160 to R163, 60_exceptions.md R208). The text CALL and `PUSH SP` store is taken before
that address is translated (00_scope.md R16): where it is unspecified (R7) there is no step under the spec's treatment, refuse,
whatever the translation would do (R12, U1); that under the other value of that parameter the instruction goes on, and raises what
the translation raises, is the model's choice (notes/assumptions/10.md). -/
def Obligations.StackInstructionsRaise : Prop :=
  ∀ (s : State) (ri : Reg) (target : Nat) (i : Instr), legalIn s.mode i = true →
    (i ∈ [Instr.push ri, .pop ri, .call target, .ret] → (s.getReg .sp).int? = none →
        RaisesFrom i .illegalOperands s s)
    ∧ (∀ n stored, (s.getReg .sp).int? = some n →
        (i, stored) ∈ [(Instr.push .sp, n + 1), (.call target, s.ip + 2)] →
        (hasText s.cfg stored = false → exec i s = .refused .noText)
        ∧ (hasText s.cfg stored = true → ∀ x u, translateAddr (n + 1) s = .raise x u → RaisesFrom i x s s))
    ∧ (∀ n x u, (s.getReg .sp).int? = some n → i = .push ri → ri ≠ .sp → translateAddr (n + 1) s = .raise x u →
        RaisesFrom i x s s)
    ∧ (∀ n x u, (s.getReg .sp).int? = some n → i ∈ [Instr.pop ri, .ret] → translateAddr n s = .raise x u →
        RaisesFrom i x s s)

/-! ### Console, debugger, END -/

/-- IN takes the next word of the input and writes it to the register (45_io_debug_end.md R170). What happens when no word is
listed is the model's choice of the INPUT oracle (notes/assumptions/8.md). Where IP + 2 has no text (00_scope.md R7) there is no
step under the spec's treatment, refuse (R12, U1); that IN completes there under the other value of that parameter, with a free
IP, is the model's choice (notes/assumptions/10.md). -/
def Obligations.InTakesNextInputWord : Prop :=
  ∀ (s : State) (ri : Reg), legalIn s.mode (.inp ri) = true →
    (∀ w rest, s.input = w :: rest →
      Completes (.inp ri) s fun t => t.getReg ri = w ∧ t.input = rest ∧ t.out = s.out
        ∧ RegsKept [ri] s t ∧ MemKept [] s t ∧ DiskKept s t ∧ HiddenKept s t)
    ∧ (s.input = [] → s.cfg.inputOpen = true → Completes (.inp ri) s (Frame [ri] [] s))
    ∧ (s.input = [] → s.cfg.inputOpen = false → exec (.inp ri) s = .refused .awaitingInput)

/-- OUT appends the register's word to the output (R171). Where IP + 2 has no text (00_scope.md R7) there is no step under the
spec's treatment, refuse (R12, U1); that OUT completes there under the other value of that parameter, with a free IP, is the
model's choice (notes/assumptions/10.md). -/
def Obligations.OutAppendsWord : Prop :=
  ∀ (s : State) (ri : Reg), legalIn s.mode (.out ri) = true →
    Completes (.out ri) s fun t => t.out = s.out ++ [s.getReg ri] ∧ t.input = s.input
      ∧ RegsKept [] s t ∧ MemKept [] s t ∧ DiskKept s t ∧ HiddenKept s t

/-- BRKP changes nothing of the machine but IP, in debug mode or not, in either mode (R172). That the model counts the entries
of the host's debugger is its own choice (notes/assumptions/17.md). Where IP + 2 has no text (00_scope.md R7) there is no step
under the spec's treatment, refuse (R12, U1); that BRKP completes there under the other value of that parameter, with a free IP,
is the model's choice (notes/assumptions/10.md). -/
def Obligations.BrkpOnlyAdvances : Prop :=
  ∀ s : State, Completes .brkp s fun t => RegsKept [] s t ∧ MemKept [] s t ∧ DiskKept s t
    ∧ ConsoleKept s t ∧ t.mode = s.mode ∧ t.status = s.status ∧ t.timerCount = s.timerCount ∧ t.cfg = s.cfg
    ∧ t.debugCalls = s.debugCalls + (if s.cfg.debugMode then 1 else 0)

/-- END does what the case lines of R173 say: under `refuse` there is no step, under `nop` IP goes on, under `halt` the status
becomes halted by END. Where IP + 2 has no text (00_scope.md R7) there is no step under the spec's treatment, refuse (R12, U1);
that END under `nop` completes there under the other value of that parameter, with a free IP, is the model's choice
(notes/assumptions/10.md). -/
def Obligations.EndFollowsItsParameter : Prop :=
  ∀ s : State,
    (s.cfg.endSemantics = .nop → Completes .fin s (Frame [] [] s))
    ∧ (s.cfg.endSemantics = .halt →
        ∃ t, exec .fin s = .next t ∧ t.status = .halted .fin ∧ t.ip = s.ip ∧ t.mode = s.mode ∧ RegsKept [] s t
          ∧ MemKept [] s t ∧ DiskKept s t ∧ ConsoleKept s t ∧ t.timerCount = s.timerCount ∧ t.cfg = s.cfg)
    ∧ (s.cfg.endSemantics = .refuse → exec .fin s = .refused .endExecuted)

/-! ### INT -/

/-- INT in user mode pushes the address after it through the page table and enters the kernel at `(9 + 2n) * 512`; what its push
raises is a user-mode exception (46_int.md R180). The text of IP + 2 is taken before the address is translated (00_scope.md
R16): where it is unspecified (R7) there is no step under the spec's treatment, refuse (R12, U1); that under the other value of
that parameter INT goes on, and raises what the translation raises, is the model's choice (notes/assumptions/10.md). That INT
completes there where the configured range leaves its vector without a text (R7, R9) is the model's choice
(notes/assumptions/27.md). -/
def Obligations.IntEntersKernelAtItsVector : Prop :=
  ∀ (s : State) (n : Nat), s.mode = .user → 1 ≤ n → n ≤ 7 →
    (∀ (m : Int) (pa : Nat) (s1 : State), (s.getReg .sp).int? = some m → strDefined s.cfg (m + 1) = true →
        strDefined s.cfg (s.ip + 2) = true → translateAddr (m + 1) s = .ok pa s1 → Writable s pa →
      ∃ t, exec (.int n) s = .next t ∧ t.mem.read pa = Word.ofInt (s.ip + 2) ∧ t.getReg .sp = Word.ofInt (m + 1)
        ∧ t.mode = .kernel ∧ t.ip = (9 + 2 * (n : Int)) * 512 ∧ t.timerCount = s.timerCount ∧ EntryFrame [pa] s s1 t)
    ∧ ((s.getReg .sp).int? = none → RaisesFrom (.int n) .illegalOperands s s)
    ∧ (∀ (m : Int) x u, (s.getReg .sp).int? = some m → hasText s.cfg (s.ip + 2) = true →
        translateAddr (m + 1) s = .raise x u → RaisesFrom (.int n) x s s)
    ∧ (∀ m : Int, (s.getReg .sp).int? = some m → hasText s.cfg (s.ip + 2) = false → exec (.int n) s = .refused .noText)

/-- INT in kernel mode does what `INT_IN_KERNEL` says (R182): refused, an exception, or the interrupt on the physical stack,
whose push raises what it raises. The text of IP + 2 is taken before the address is translated (R16): where it is unspecified
(R7) there is no step under the spec's treatment, refuse (R12, U1); that under the other value of that parameter INT goes on,
and raises what the translation raises, is the model's choice (notes/assumptions/10.md). That INT completes where the configured
range leaves its vector without a text (R7, R9) is the model's choice (notes/assumptions/27.md). -/
def Obligations.IntInKernelFollowsItsParameter : Prop :=
  ∀ (s : State) (n : Nat), s.mode = .kernel →
    (s.cfg.intInKernel = .refuse → exec (.int n) s = .refused .intInKernel)
    ∧ (s.cfg.intInKernel = .exception1 → RaisesFrom (.int n) .illegalInstruction s s)
    ∧ (s.cfg.intInKernel = .execute →
        (∀ m : Int, (s.getReg .sp).int? = some m → 0 ≤ m + 1 → m + 1 ≤ 32767 → Writable s (m + 1).toNat →
          strDefined s.cfg (m + 1) = true → strDefined s.cfg (s.ip + 2) = true →
          ∃ t, exec (.int n) s = .next t ∧ t.mem.read (m + 1).toNat = Word.ofInt (s.ip + 2)
            ∧ t.getReg .sp = Word.ofInt (m + 1) ∧ t.mode = .kernel ∧ t.ip = (9 + 2 * (n : Int)) * 512
            ∧ t.timerCount = s.timerCount ∧ EntryFrame [(m + 1).toNat] s s t)
        ∧ ((s.getReg .sp).int? = none → RaisesFrom (.int n) .illegalOperands s s)
        ∧ (∀ m : Int, (s.getReg .sp).int? = some m → hasText s.cfg (s.ip + 2) = true → (m + 1 < 0 ∨ 32767 < m + 1) →
            RaisesFrom (.int n) .illegalMemoryAccess s s)
        ∧ ∀ m : Int, (s.getReg .sp).int? = some m → hasText s.cfg (s.ip + 2) = false → exec (.int n) s = .refused .noText)

/-! ### Privileged instructions -/

/-- IRET enters user mode, then pops IP through the page table (47_privileged.md R186). A popped integer that has no text is
unspecified (00_scope.md R7): under the spec's treatment, refuse, there is no step (R12, U1); that under the other value of that
parameter IRET completes, with a free IP, is the model's choice (notes/assumptions/10.md). -/
def Obligations.IretEntersUserModeAndPopsIp : Prop :=
  ∀ (s : State) (n v : Int) (pa : Nat) (s1 : State), s.mode = .kernel → (s.getReg .sp).int? = some n →
    translateAddr n { s with mode := .user } = .ok pa s1 → (s1.mem.read pa).int? = some v →
    strDefined s.cfg (n - 1) = true →
      CompletesAt v .iret s fun t => t.mode = .user ∧ t.getReg .sp = Word.ofInt (n - 1)
        ∧ RegsKept [.sp] s t ∧ MemKept [] s1 t ∧ DiskKept s t ∧ ConsoleKept s t ∧ t.status = s.status
        ∧ t.timerCount = s.timerCount ∧ t.cfg = s.cfg

/-- A fault of IRET's pop is a user-mode exception: it is taken from the state in which the mode is user already, so the machine
goes on at 3584 in kernel mode with SP unchanged (R186, 60_exceptions.md R207). That the machine goes on at 3584 where the
configured range leaves 3584 or IP without a text (R7, R9) is the model's choice (notes/assumptions/27.md). -/
def Obligations.IretFaultsAreUserModeExceptions : Prop :=
  ∀ (s v : State), s.mode = .kernel → v = { s with mode := .user } →
    ((s.getReg .sp).int? = none → RaisesFrom .iret .illegalOperands v s)
    ∧ (∀ n x u, (s.getReg .sp).int? = some n → translateAddr n v = .raise x u → RaisesFrom .iret x v s)
    ∧ (∀ n pa u, (s.getReg .sp).int? = some n → translateAddr n v = .ok pa u → (u.mem.read pa).int? = none →
        RaisesFrom .iret .illegalOperands u s)
    ∧ ∀ x u, (u = v ∨ ∃ n pa, translateAddr n v = .ok pa u) →
        (takeException x u).mode = .kernel ∧ (takeException x u).ip = 3584 ∧ (takeException x u).status = s.status
          ∧ RegsKept [.efr] s (takeException x u)

/-- LOAD copies a disk block over a memory page and changes nothing else; a copy over page 0 follows `ROM_WRITE` (R187,
20_memory.md R62). Where IP + 2 has no text (00_scope.md R7) there is no step under the spec's treatment, refuse (R12, U1); that
LOAD completes there under the other value of that parameter, with a free IP, is the model's choice (notes/assumptions/10.md).
-/
def Obligations.LoadCopiesBlockToPage : Prop :=
  ∀ (s : State) (x y : Arg) (p b : Nat), s.mode = .kernel → argInt s x = some (p : Int) → argInt s y = some (b : Int) →
    p ≤ 63 → b ≤ 511 →
      (p ≠ 0 ∨ s.cfg.romWrite = .write →
        Completes (.load x y) s fun t => (∀ k, k < 512 → t.mem.read (512 * p + k) = s.disk.read (512 * b + k))
          ∧ (∀ a, a / 512 ≠ p → t.mem.read a = s.mem.read a)
          ∧ RegsKept [] s t ∧ DiskKept s t ∧ HiddenKept s t ∧ ConsoleKept s t)
      ∧ (p = 0 → s.cfg.romWrite = .ignore → Completes (.load x y) s (Frame [] [] s))
      ∧ (p = 0 → s.cfg.romWrite = .refuse → exec (.load x y) s = .refused .romWrite)

/-- STORE copies a memory page over a disk block and changes nothing else (R188). Where IP + 2 has no text (00_scope.md R7)
there is no step under the spec's treatment, refuse (R12, U1); that STORE completes there under the other value of that
parameter, with a free IP, is the model's choice (notes/assumptions/10.md). -/
def Obligations.StoreCopiesPageToBlock : Prop :=
  ∀ (s : State) (x y : Arg) (b p : Nat), s.mode = .kernel → argInt s x = some (b : Int) → argInt s y = some (p : Int) →
    b ≤ 511 → p ≤ 63 →
      Completes (.store x y) s fun t => (∀ k, k < 512 → t.disk.read (512 * b + k) = s.mem.read (512 * p + k))
        ∧ (∀ a, a / 512 ≠ b → t.disk.read a = s.disk.read a)
        ∧ RegsKept [] s t ∧ MemKept [] s t ∧ HiddenKept s t ∧ ConsoleKept s t

/-- The arguments of LOAD and STORE: IllegalOperands where a register holds no integer, IllegalMemoryAccess where the page
is not 0 to 63 or the block not 0 to 511 (R189). -/
def Obligations.LoadStoreArgumentsAreChecked : Prop :=
  ∀ (s : State) (x y : Arg), s.mode = .kernel →
    (∀ i ∈ [Instr.load x y, .store y x],
      (argInt s x = none ∨ argInt s y = none → RaisesFrom i .illegalOperands s s)
      ∧ ∀ p b : Int, argInt s x = some p → argInt s y = some b → (p < 0 ∨ 63 < p ∨ b < 0 ∨ 511 < b) →
          RaisesFrom i .illegalMemoryAccess s s)

/-- HALT stops the machine: nothing but the status changes, IP stays at the HALT, and there is no further step (R190). -/
def Obligations.HaltStopsTheMachine : Prop :=
  ∀ s : State, s.mode = .kernel →
    ∃ t, exec .halt s = .next t ∧ t = { s with status := .halted .halt } ∧ step t = .fault .halted

/-- Which instructions a mode does not allow: a privileged one in user mode, a register user mode may not name, IP or EFR
written or used as an address, PUSH IP. Such an instruction raises IllegalInstruction before anything else, and every
other instruction is legal (30_encoding.md R90 to R93, 10_state.md R38). -/
def Obligations.IllegalUseRaisesIllegalInstruction : Prop :=
  ∀ (i : Instr) (s : State) (illegal : Prop),
    (illegal ↔
      ((s.mode = .user ∧ (i ∈ [Instr.iret, .halt] ∨ (∃ x y, i = .load x y ∨ i = .store x y)))
        ∨ (s.mode = .user ∧ ∃ u ∈ regUses i, u.2 ∉ (List.finRange 8).map Reg.r ++ [Reg.sp, .bp])
        ∨ (∃ u ∈ regUses i, (u.1 = .write ∨ u.1 = .address) ∧ (u.2 = .ip ∨ u.2 = .efr))
        ∨ i = .push .ip)) →
      (illegal → RaisesFrom i .illegalInstruction s s) ∧ (¬ illegal → legalIn s.mode i = true)

/-! ### Exceptions and interrupts -/

/-- Taking an exception in user mode enters the kernel at 3584 and writes EFR, and nothing else (60_exceptions.md R205); in
kernel mode the machine halts with the cause, IP staying (R206). Where IP or the page number does not fit its field of EFR there
is no step under the spec's treatment, refuse (R29, U6); that under the other value of that parameter the exception is taken,
with a free EFR, is the model's choice (notes/assumptions/11.md). That the exception is taken where the configured range leaves
3584 or IP without a text (R7, R9) is the model's choice (notes/assumptions/27.md). -/
def Obligations.ExceptionEntersHandlerOrHalts : Prop :=
  ∀ (s : State) (x : Exn) (fits : Prop),
    (fits ↔ 0 ≤ s.ip ∧ s.ip ≤ 99999 ∧ ∀ lpn : Nat, x = .pageFault lpn → lpn ≤ 99) →
    (fits ∨ s.cfg.unspecifiedValue = .free → raiseException x s = .next (takeException x s))
      ∧ (¬ fits → s.cfg.unspecifiedValue = .refuse → raiseException x s = .refused .efrOverflow)
      ∧ RegsKept [.efr] s (takeException x s) ∧ MemKept [] s (takeException x s) ∧ DiskKept s (takeException x s)
      ∧ ConsoleKept s (takeException x s) ∧ (takeException x s).timerCount = s.timerCount
      ∧ (takeException x s).cfg = s.cfg ∧ (takeException x s).debugCalls = s.debugCalls
      ∧ (takeException x s).mode = .kernel
      ∧ (s.mode = .user → (takeException x s).ip = 3584 ∧ (takeException x s).status = s.status)
      ∧ (s.mode = .kernel →
          (takeException x s).ip = s.ip ∧ (takeException x s).status = .halted (.exception x.cause))

/-- EFR records the exception: its integer is `pc * 1000 + bad * 10 + cause`, `bad` being the logical page number of a page
fault and some two digits for the other causes (10_state.md R29, 60_exceptions.md R204). That EFR holds the text of IP where the
configured range leaves IP without a text (R7, R9) is the model's choice (notes/assumptions/27.md). -/
def Obligations.EfrHoldsIpPageAndCause : Prop :=
  ∀ (s : State) (x : Exn), 0 ≤ s.ip → s.ip ≤ 99999 →
    (∀ lpn : Nat, x = .pageFault lpn → lpn ≤ 99 →
      (takeException x s).efr.int? = some (s.ip * 1000 + lpn * 10)
        ∧ (takeException x s).efr.chars = intText s.ip ++ twoDigits lpn ++ [chrZero])
    ∧ ((∀ lpn, x ≠ .pageFault lpn) → ∃ d : Nat, d ≤ 99
        ∧ (takeException x s).efr.int? = some (s.ip * 1000 + d * 10 + Cause.code x.cause)
        ∧ (takeException x s).efr.chars = intText s.ip ++ twoDigits d ++ [Chr.ofDigit (Cause.code x.cause)])

/-- The timer interrupt is due exactly in user mode, with an interval, once the count has reached it: never in kernel mode,
never with `TIMER_INTERVAL = none`, never early (R215). A running machine's step then takes it: the count is cleared, IP itself
is pushed, and the kernel is entered at 4608 (R216). That the step completes where the configured range leaves 4608 without a
text (R7, R9) is the model's choice (notes/assumptions/27.md). -/
def Obligations.TimerInterruptsUserMode : Prop :=
  (∀ s : State, timerDue s = true ↔ s.mode = .user ∧ ∃ n, s.cfg.timerInterval = some n ∧ n ≤ s.timerCount)
  ∧ ∀ (s : State) (interval : Nat) (m : Int) (pa : Nat) (s1 : State), s.status = .running → s.mode = .user →
    s.cfg.timerInterval = some interval → interval ≤ s.timerCount → (s.getReg .sp).int? = some m →
    strDefined s.cfg (m + 1) = true → strDefined s.cfg s.ip = true → translateAddr (m + 1) s = .ok pa s1 → Writable s pa →
      ∃ t, step s = .next t ∧ t.timerCount = 0 ∧ t.mem.read pa = Word.ofInt s.ip ∧ t.getReg .sp = Word.ofInt (m + 1)
        ∧ t.mode = .kernel ∧ t.ip = 4608 ∧ EntryFrame [pa] s s1 t

/-- A fault in the timer's push is a user-mode exception of the displaced instruction: IllegalOperands where SP holds no
integer, otherwise what the translation raises; nothing is pushed, SP stays, and the count stays cleared (R217). The text of IP
is taken first (00_scope.md R16): that where it is unspecified (R7) and the configuration lets a free value stand for it the
translation's exception is raised is the model's choice (notes/assumptions/10.md). That the machine goes on at 3584 where the
configured range leaves 3584 or IP without a text (R7, R9) is the model's choice (notes/assumptions/27.md). -/
def Obligations.TimerPushFaultIsUserException : Prop :=
  ∀ (s v : State) (interval : Nat), s.status = .running → s.mode = .user → s.cfg.timerInterval = some interval →
    interval ≤ s.timerCount → v = { s with timerCount := 0 } →
    ((s.getReg .sp).int? = none → step s = raiseException .illegalOperands v)
    ∧ (∀ m x u, (s.getReg .sp).int? = some m → hasText s.cfg s.ip = true → translateAddr (m + 1) s = .raise x u →
        step s = raiseException x v)
    ∧ ∀ x, (takeException x v).timerCount = 0 ∧ (takeException x v).mode = .kernel ∧ (takeException x v).ip = 3584
        ∧ RegsKept [.efr] s (takeException x v) ∧ MemKept [] s (takeException x v)

/-- The timer counts every step that begins its fetch in user mode, whatever comes of it, and no other step; it is cleared
when it fires (R214). -/
def Obligations.TimerCountsUserSteps : Prop :=
  ∀ s t : State, step s = .next t →
    (s.mode = .kernel → t.timerCount = s.timerCount)
    ∧ (s.mode = .user → timerDue s = false → t.timerCount = s.timerCount + 1)
    ∧ (timerDue s = true → t.timerCount = 0)

/-! ### Memory -/

/-- In kernel mode an address is physical, and one outside 0 to 32767 raises IllegalMemoryAccess (20_memory.md R53). -/
def Obligations.KernelAddressesArePhysical : Prop :=
  ∀ (s : State) (a : Int), s.mode = .kernel →
    (0 ≤ a → a ≤ 32767 → translateAddr a s = .ok a.toNat s)
    ∧ (a < 0 ∨ 32767 < a → translateAddr a s = .raise .illegalMemoryAccess s)

/-- In user mode an address goes through the page table: where the second character of the entry's second word, the valid bit,
is `1`, the address is the page number in its first word times 512 plus the offset, and the first character of the second word,
the reference bit, is set to `1` while the others stay (R55, R57, R58). -/
def Obligations.UserAddressesGoThroughPageTable : Prop :=
  ∀ (s : State) (a e p : Nat) (c v : Chr) (rest : Text), s.mode = .user → EntryAt s (a / 512) e →
    EntryBits s e c v rest → v.code = 49 → (s.mem.read e).int? = some (p : Int) → p ≤ 63 → Writable s (e + 1) →
    ∃ (t : State) (marked : Word), translateAddr a s = .ok (p * 512 + a % 512) t
      ∧ t = { s with mem := s.mem.write (e + 1) marked } ∧ marked.chars = Chr.ofNat 49 :: v :: rest

/-- A user-mode address that is negative or whose page is not below PTLR raises IllegalMemoryAccess (R60); one whose entry
has the valid bit `0` raises the page fault of its page, and the entry stays (R57, R59). Where the page table is malformed the spec says
`unspecified` and the model refuses by name (R55, notes/assumptions/13.md). -/
def Obligations.UserAddressFaults : Prop :=
  ∀ s : State, s.mode = .user →
    (∀ a : Int, a < 0 → translateAddr a s = .raise .illegalMemoryAccess s)
    ∧ (∀ a : Nat, s.ptlr.int? = none ∨ s.ptbr.int? = none → translateAddr a s = .refuse .pageTableRegisters)
    ∧ (∀ (a : Nat) (len base : Int), s.ptlr.int? = some len → s.ptbr.int? = some base → len ≤ ((a / 512 : Nat) : Int) →
        translateAddr a s = .raise .illegalMemoryAccess s)
    ∧ (∀ (a : Nat) (len base : Int), s.ptlr.int? = some len → s.ptbr.int? = some base → ((a / 512 : Nat) : Int) < len →
        (base + 2 * ((a / 512 : Nat) : Int) < 0 ∨ 32767 < base + 2 * ((a / 512 : Nat) : Int) + 1) →
        translateAddr a s = .refuse .pageTableEntryOutside)
    ∧ (∀ a e : Nat, EntryAt s (a / 512) e →
        ((¬ ∃ c v rest, EntryBits s e c v rest) → translateAddr a s = .refuse .malformedAuxiliary)
        ∧ (∀ c v rest, EntryBits s e c v rest → v.code = 48 → translateAddr a s = .raise (.pageFault (a / 512)) s)
        ∧ (∀ c v rest, EntryBits s e c v rest → v.code = 49 →
            ((s.mem.read e).int? = none ∨ ∃ p, (s.mem.read e).int? = some p ∧ (p < 0 ∨ 63 < p)) →
            translateAddr a s = .refuse .badPhysicalPage))

/-- A translation changes nothing but the reference bit of an entry of the page table: the first character of its second
word becomes `1` and the others stay (R58). -/
def Obligations.TranslationSetsOnlyReferenceBit : Prop :=
  ∀ (s t : State) (a : Int) (pa : Nat), translateAddr a s = .ok pa t →
    t = { s with mem := t.mem }
    ∧ ∀ b, t.mem.read b ≠ s.mem.read b →
        s.mode = .user ∧ (∃ k e, EntryAt s k e ∧ b = e + 1)
        ∧ ∃ c v rest, (s.mem.read b).chars = c :: v :: rest ∧ (t.mem.read b).chars = Chr.ofNat 49 :: v :: rest

/-- A push into the ROM page does what `ROM_WRITE` says (R62), the pushes of PUSH, CALL, INT (in kernel mode too, where it
executes) and the timer interrupt: under `refuse` the step is refused; under `ignore` it goes on as if the word had been stored,
to the next instruction, the target or the vector. A reference bit in the ROM page likewise. That the timer interrupt completes
where the configured range leaves 4608 without a text (R7, R9) is the model's choice (notes/assumptions/27.md). -/
def Obligations.RomPageFollowsItsParameter : Prop :=
  (∀ (s : State) (ri : Reg) (target k : Nat) (n : Int) (pa : Nat) (s1 : State) (i : Instr) (m : Mode) (ip : Int),
    (i, m, ip) ∈ [(Instr.push ri, s.mode, s.ip + 2), (.call target, s.mode, (target : Int))]
      ∨ (i, m, ip) = (.int k, Mode.kernel, (9 + 2 * (k : Int)) * 512) ∧ (s.mode = .user ∨ s.cfg.intInKernel = .execute) →
    legalIn s.mode i = true → (s.getReg .sp).int? = some n → strDefined s.cfg (n + 1) = true →
    strDefined s.cfg (s.ip + 2) = true → strDefined s.cfg ip = true → translateAddr (n + 1) s = .ok pa s1 → pa < 512 →
      (s.cfg.romWrite = .refuse → exec i s = .refused .romWrite)
      ∧ (s.cfg.romWrite = .ignore →
          ∃ t, exec i s = .next t ∧ t.getReg .sp = Word.ofInt (n + 1) ∧ t.mode = m ∧ t.ip = ip
            ∧ t.timerCount = s.timerCount ∧ EntryFrame [] s s1 t))
  ∧ (∀ (s : State) (interval : Nat) (n : Int) (pa : Nat) (s1 : State), s.status = .running → s.mode = .user →
      s.cfg.timerInterval = some interval → interval ≤ s.timerCount → (s.getReg .sp).int? = some n →
      strDefined s.cfg (n + 1) = true → strDefined s.cfg s.ip = true → translateAddr (n + 1) s = .ok pa s1 → pa < 512 →
        (s.cfg.romWrite = .refuse → step s = .refused .romWrite)
        ∧ (s.cfg.romWrite = .ignore →
            ∃ t, step s = .next t ∧ t.timerCount = 0 ∧ t.getReg .sp = Word.ofInt (n + 1) ∧ t.mode = .kernel ∧ t.ip = 4608
              ∧ EntryFrame [] s s1 t))
  ∧ ∀ (s : State) (a e p : Nat) (c v : Chr) (rest : Text), s.mode = .user → EntryAt s (a / 512) e → e + 1 < 512 →
      EntryBits s e c v rest → v.code = 49 → (s.mem.read e).int? = some (p : Int) → p ≤ 63 →
      (s.cfg.romWrite = .refuse → translateAddr a s = .refuse .romWrite)
      ∧ (s.cfg.romWrite = .ignore → translateAddr a s = .ok (p * 512 + a % 512) s)

/-- The model's form of memory (notes/assumptions/3.md): equal memories are equal data, two canonical memories that read
alike are the same list, and a write keeps the form. -/
def Obligations.CanonicalMemoryIsUnique : Prop :=
  (∀ (size : Nat) (m n : Memory), Memory.wf size m → Memory.wf size n → (∀ a, m.read a = n.read a) → m = n)
    ∧ ∀ (size a b : Nat) (m : Memory) (w : Word), Memory.wf size m → a < size →
        Memory.wf size (m.write a w) ∧ (m.write a w).read b = if b = a then w else m.read b

/-! ### The machine -/

/-- A step of a running machine whose timer is not due runs the instruction that the two words at IP and IP + 1 decode to,
in the state the fetch leaves, and counts it (30_encoding.md R95); words that decode to nothing raise IllegalInstruction and a
fetch that faults raises its exception, counted likewise. It does so under every decoder; `step` has the text encoding. -/
def Obligations.StepRunsDecodedInstruction : Prop :=
  (∀ (dec : Decoder) (s u : State), s.status = .running → timerDue s = false →
    (∀ w0 w1, fetch s = .ok (w0, w1) u →
      (∀ i, dec w0 w1 = some i → stepWith dec s = countStep s.mode (exec i u))
      ∧ (dec w0 w1 = none → stepWith dec s = countStep s.mode (raiseException .illegalInstruction u)))
    ∧ (∀ x, fetch s = .raise x u → stepWith dec s = countStep s.mode (raiseException x u))
    ∧ (∀ r, fetch s = .refuse r → stepWith dec s = .refused r))
  ∧ ∀ s : State, step s = stepWith decodeWords s

/-- In kernel mode the fetch reads the physical words at IP and IP + 1; in either mode the second is translated on its own
after the first, and the fetch raises what the first of the two translations to fail raises (R81). -/
def Obligations.FetchReadsTwoWords : Prop :=
  (∀ (s : State) (a : Nat), s.mode = .kernel → s.ip = a → a ≤ 32766 →
      fetch s = .ok (s.mem.read a, s.mem.read (a + 1)) s)
    ∧ (∀ (s s1 s2 : State) (p0 p1 : Nat), translateAddr s.ip s = .ok p0 s1 → translateAddr (s.ip + 1) s1 = .ok p1 s2 →
        fetch s = .ok (s1.mem.read p0, s2.mem.read p1) s2)
    ∧ (∀ (s : State) x u, translateAddr s.ip s = .raise x u → fetch s = .raise x s)
    ∧ (∀ (s s1 : State) (p0 : Nat) x u, translateAddr s.ip s = .ok p0 s1 → translateAddr (s.ip + 1) s1 = .raise x u →
        fetch s = .raise x s1)

/-- A halted machine has no step, which the model says by the fault `halted` (10_state.md R31, notes/assumptions/15.md); a step
of a running machine ends in a next state or is refused (00_scope.md R12), and never in a fault. -/
def Obligations.StepFaultsExactlyWhenHalted : Prop :=
  ∀ s : State, (s.status ≠ .running → step s = .fault .halted)
    ∧ (s.status = .running → ∀ f, step s ≠ .fault f)

/-- Every step keeps the invariant, from every state that meets it, and no step changes the configuration
(10_state.md R39). -/
def Obligations.EveryStepKeepsTheInvariant : Prop :=
  ∀ s t : State, s.Inv → step s = .next t → t.Inv ∧ t.cfg = s.cfg

/-- The reset state meets the invariant, and so does every reset state with a canonical disk. -/
def Obligations.ResetMeetsTheInvariant : Prop :=
  State.reset.Inv ∧ ∀ (cfg : Config) (disk : Memory) (input : List Word), Memory.wf diskWords disk →
    (State.resetWith cfg disk input).Inv

/-- What the spec states of the reset state holds of the model's, under every configuration, disk and input; and a reset
after a run keeps the disk (10_state.md R41). -/
def Obligations.ResetStateIsAsStated : Prop :=
  State.reset.AtReset
    ∧ (∀ (cfg : Config) (disk : Memory) (input : List Word),
        (State.resetWith cfg disk input).AtReset ∧ (State.resetWith cfg disk input).disk = disk)
    ∧ ∀ s : State, s.restart.AtReset ∧ s.restart.disk = s.disk

/-- From every state the spec allows after reset, whatever its registers, its other memory words and its disk hold, two
steps load disk block 0 into page 1 and reach 512 in kernel mode, and nothing else changes (70_reset_and_hazards.md
R242). -/
def Obligations.BootLoadsBlockZero : Prop :=
  ∀ s : State, s.AtReset → strDefined s.cfg 2 = true → strDefined s.cfg 512 = true →
    ∃ s1 t, step s = .next s1 ∧ step s1 = .next t ∧ t.ip = 512 ∧ (∀ k, k < 512 → t.mem.read (512 + k) = s.disk.read k)
      ∧ (∀ a, a / 512 ≠ 1 → t.mem.read a = s.mem.read a)
      ∧ RegsKept [] s t ∧ DiskKept s t ∧ HiddenKept s t ∧ ConsoleKept s t

/-- No user-mode step changes a kernel register, a temporary register, PTBR, PTLR or the disk; EFR changes only where the step
ends at the exception handler (60_exceptions.md R221). That a step ends at 3584 where the configured range leaves 3584 without a
text (R7, R9) is the model's choice (notes/assumptions/27.md). -/
def Obligations.UserStepKeepsKernelState : Prop :=
  ∀ s t : State, s.mode = .user → step s = .next t →
    t.kern = s.kern ∧ t.temp = s.temp ∧ t.ptbr = s.ptbr ∧ t.ptlr = s.ptlr ∧ t.disk = s.disk
      ∧ (t.efr ≠ s.efr → t.mode = .kernel ∧ t.ip = 3584)

/-- The mode changes only at its gates: kernel mode is left by IRET alone, and entered from user mode only at the exception
handler, the timer routine or a software interrupt's routine (60_exceptions.md R220). That a step ends at one of these addresses
where the configured range leaves it without a text (R7, R9) is the model's choice (notes/assumptions/27.md). -/
def Obligations.ModeChangesOnlyAtItsGates : Prop :=
  ∀ s t : State, step s = .next t →
    (s.mode = .kernel → t.mode = .user → ∃ w0 w1 u, fetch s = .ok (w0, w1) u ∧ decodeWords w0 w1 = some .iret)
    ∧ (s.mode = .user → t.mode = .kernel →
        t.ip = 3584 ∨ t.ip = 4608 ∨ ∃ n : Nat, 1 ≤ n ∧ n ≤ 7 ∧ t.ip = (9 + 2 * (n : Int)) * 512)

/-- A user-mode step changes no word of memory but the second words of page-table entries and the words of physical pages
that valid entries map: there is no other protection and no way around this one (20_memory.md R63). -/
def Obligations.UserStepWritesOnlyMappedPages : Prop :=
  ∀ (s t : State) (a : Nat), s.mode = .user → step s = .next t → t.mem.read a ≠ s.mem.read a →
    (∃ k e, EntryAt s k e ∧ a = e + 1) ∨ ∃ k p, MapsPage s k p ∧ a / 512 = p

/-- Exceptions are precise: a user-mode step that ends at the exception handler has changed no register but EFR and IP, no
word of the disk, no input and no output, and of memory only reference bits: the first characters of second words of
page-table entries, which have become `1` (60_exceptions.md R208). -/
def Obligations.UserExceptionsArePrecise : Prop :=
  ∀ s t : State, s.mode = .user → step s = .next t → t.mode = .kernel → t.ip = 3584 →
    RegsKept [.efr] s t ∧ DiskKept s t ∧ ConsoleKept s t
      ∧ ∀ a, t.mem.read a ≠ s.mem.read a →
          (∃ k e, EntryAt s k e ∧ a = e + 1)
          ∧ ∃ c v rest, (s.mem.read a).chars = c :: v :: rest ∧ (t.mem.read a).chars = Chr.ofNat 49 :: v :: rest
end

