-- ==== Sys2Proof/Laws/Numerals.lean ====
section
/-! SUPPORT. Decimal text and integers: `str` writes what `int` reads back (spec 00_scope.md R7). -/

namespace Sys2Proof

theorem Chr.ofNat_code {n : Nat} (h : 1 ≤ n ∧ n ≤ 255) : (Chr.ofNat n).code = n := by simp [Chr.ofNat, h]

theorem Chr.ext_code {a b : Chr} (h : a.code = b.code) : a = b := by
  cases a; cases b; simp_all

/-- A digit reads back as the number it was written for. -/
@[simp] theorem digitValue_ofDigit (d : Nat) : (Chr.ofDigit d).digitValue = d % 10 := by
  have := Nat.mod_lt d (by decide : 10 > 0)
  rw [Chr.digitValue, Chr.ofDigit, Chr.ofNat_code (by omega)]
  omega

@[simp] theorem code_ofDigit (d : Nat) : (Chr.ofDigit d).code = 48 + d % 10 := by
  have := Nat.mod_lt d (by decide : 10 > 0)
  rw [Chr.ofDigit, Chr.ofNat_code (by omega)]

@[simp] theorem isDigit_ofDigit (d : Nat) : (Chr.ofDigit d).isDigit = true := by
  have := Nat.mod_lt d (by decide : 10 > 0)
  simp only [Chr.isDigit, code_ofDigit, Bool.and_eq_true, Nat.ble_eq]
  omega

theorem minus_not_digit : Chr.minus.isDigit = false := by decide

/-! ### Digits -/

/-- The value of a text of digits put before another. -/
theorem natOfDigits_foldl (t : Text) (acc : Nat) :
    t.foldl (fun acc c => acc * 10 + c.digitValue) acc = acc * 10 ^ t.length + natOfDigits t := by
  unfold natOfDigits
  induction t generalizing acc with
  | nil => simp
  | cons c t ih =>
    simp only [List.foldl_cons, List.length_cons]
    rw [ih, ih (0 * 10 + c.digitValue)]
    ring

theorem natOfDigits_cons (c : Chr) (t : Text) :
    natOfDigits (c :: t) = c.digitValue * 10 ^ t.length + natOfDigits t := by
  simpa [natOfDigits] using natOfDigits_foldl t c.digitValue

/-- With fuel for every digit, the digits put before a text have the number's value there. -/
theorem natOfDigits_digitsBefore (fuel n : Nat) (acc : Text) (h : n < 10 ^ fuel) :
    natOfDigits (digitsBefore fuel n acc) = n * 10 ^ acc.length + natOfDigits acc := by
  induction fuel generalizing n acc with
  | zero =>
    have : n = 0 := by simpa using h
    simp [digitsBefore, this]
  | succ fuel ih =>
    simp only [digitsBefore]
    split
    · rename_i hn
      rw [natOfDigits_cons, digitValue_ofDigit, Nat.mod_eq_of_lt hn]
    · rw [ih (n / 10) _ (by rw [pow_succ] at h; omega), natOfDigits_cons, digitValue_ofDigit, List.length_cons, pow_succ]
      have := Nat.div_add_mod n 10
      rw [Nat.mod_mod]
      calc n / 10 * (10 ^ acc.length * 10) + (n % 10 * 10 ^ acc.length + natOfDigits acc)
          = (10 * (n / 10) + n % 10) * 10 ^ acc.length + natOfDigits acc := by ring
        _ = _ := by rw [this]

theorem all_digitsBefore (fuel n : Nat) (acc : Text) (h : acc.all Chr.isDigit = true) :
    (digitsBefore fuel n acc).all Chr.isDigit = true := by
  induction fuel generalizing n acc with
  | zero => exact h
  | succ fuel ih =>
    simp only [digitsBefore]
    split
    · simp [h]
    · exact ih _ _ (by simp [h])

theorem length_digitsBefore (fuel n : Nat) (acc : Text) :
    (digitsBefore fuel n acc).length ≤ fuel + acc.length := by
  induction fuel generalizing n acc with
  | zero => simp [digitsBefore]
  | succ fuel ih =>
    simp only [digitsBefore]
    split
    · simp
    · refine (ih _ _).trans ?_
      simp; omega

/-- A number below 10 ^ k has at most k digits. -/
theorem length_digitsBefore_le (fuel n k : Nat) (acc : Text) (hk : 1 ≤ k) (h : n < 10 ^ k) :
    (digitsBefore fuel n acc).length ≤ k + acc.length := by
  induction fuel generalizing n acc k with
  | zero => simp [digitsBefore]
  | succ fuel ih =>
    simp only [digitsBefore]
    split
    · simp; omega
    · rename_i hn
      have hk2 : 2 ≤ k := by
        by_contra hlt
        have : k = 1 := by omega
        subst this
        omega
      obtain ⟨j, rfl⟩ : ∃ j, k = j + 1 := ⟨k - 1, by omega⟩
      refine (ih (n / 10) j _ (by omega) (by rw [pow_succ] at h; omega)).trans ?_
      simp; omega

theorem digitsBefore_ne_nil (fuel n : Nat) (acc : Text) (h : acc ≠ [] ∨ 0 < fuel) : digitsBefore fuel n acc ≠ [] := by
  induction fuel generalizing n acc with
  | zero => simpa [digitsBefore] using h
  | succ fuel ih =>
    simp only [digitsBefore]
    split
    · simp
    · exact ih _ _ (.inl (by simp))

/-- The fuel of `natText` is enough. -/
theorem lt_pow_log2 (n : Nat) : n < 10 ^ (Nat.log2 n + 1) := by
  calc n < 2 ^ (Nat.log2 n + 1) := Nat.lt_log2_self
    _ ≤ 10 ^ (Nat.log2 n + 1) := Nat.pow_le_pow_left (by decide) _

@[simp] theorem natOfDigits_natText (n : Nat) : natOfDigits (natText n) = n := by
  rw [natText, natOfDigits_digitsBefore _ _ _ (lt_pow_log2 n)]
  simp [natOfDigits]

theorem all_natText (n : Nat) : (natText n).all Chr.isDigit = true := all_digitsBefore _ _ _ rfl

theorem natText_ne_nil (n : Nat) : natText n ≠ [] := digitsBefore_ne_nil _ _ _ (.inr (by omega))

@[simp] theorem isDigits_natText (n : Nat) : isDigits (natText n) = true := by
  simp only [isDigits, all_natText, Bool.and_true, Bool.not_eq_true', List.isEmpty_eq_false_iff]
  exact natText_ne_nil n

theorem length_natText_le {n k : Nat} (hk : 1 ≤ k) (h : n < 10 ^ k) : (natText n).length ≤ k := by
  have := length_digitsBefore_le (Nat.log2 n + 1) n k [] hk h
  rwa [List.length_nil, Nat.add_zero] at this

/-- The first digit is no minus sign. -/
theorem natText_head {n : Nat} {c : Chr} {t : Text} (h : natText n = c :: t) : c.isDigit = true := by
  have := all_natText n
  rw [h] at this
  simp only [List.all_cons, Bool.and_eq_true] at this
  exact this.1

/-! ### Integers -/

/-- `int` reads back what `intText` writes. -/
@[simp] theorem parseInt_intText (n : Int) : parseInt (intText n) = some n := by
  cases n with
  | ofNat n =>
    show parseInt (natText n) = _
    cases h : natText n with
    | nil => exact absurd h (natText_ne_nil n)
    | cons c t =>
      have hc : c ≠ Chr.minus := by
        rintro rfl
        exact absurd (natText_head h) (by simp [minus_not_digit])
      have hd := isDigits_natText n
      have hv := natOfDigits_natText n
      rw [h] at hd hv
      simp [parseInt, hc, hd, hv]
  | negSucc n =>
    show parseInt (Chr.minus :: natText (n + 1)) = _
    simp only [parseInt, if_true, isDigits_natText, natOfDigits_natText]
    rfl

theorem length_intText_le {n : Int} (h : wordIntMin ≤ n ∧ n ≤ wordIntMax) : (intText n).length ≤ 15 := by
  obtain ⟨h1, h2⟩ := h
  cases n with
  | ofNat n =>
    refine length_natText_le (by decide) ?_
    simp only [wordIntMax, Int.ofNat_eq_natCast] at h2
    have : n ≤ 999999999999999 := by exact_mod_cast h2
    omega
  | negSucc n =>
    simp only [intText, List.length_cons]
    have : (natText (n + 1)).length ≤ 14 := by
      refine length_natText_le (by decide) ?_
      simp only [wordIntMin, Int.negSucc_eq] at h1
      omega
    omega

/-- A text that fits is kept whole by `clip`. -/
theorem chars_clip {t : Text} (h : t.length ≤ 15) : (Word.clip t).chars = t := by
  simp [Word.clip, List.take_of_length_le h]

/-- The characters of `str(n)` for an `n` that fits a word. -/
theorem chars_ofInt {n : Int} (h : wordIntMin ≤ n ∧ n ≤ wordIntMax) : (Word.ofInt n).chars = intText n :=
  chars_clip (length_intText_le h)

/-- `int(str(n)) = n` for every n that fits a word (R7). -/
theorem int?_ofInt {n : Int} (h : wordIntMin ≤ n ∧ n ≤ wordIntMax) : (Word.ofInt n).int? = some n := by
  rw [Word.int?, chars_ofInt h, parseInt_intText]

end Sys2Proof
end

