-- ==== Sys2Proof/Laws/Decode.lean ====
section
/-! SUPPORT. The decoder piece by piece: what it reads from a text that begins with one canonically written piece
(30_encoding.md R83, R84, R98). -/

namespace Sys2Proof

/-! ### Names -/

/-- Every register name names its register. -/
@[simp] theorem ofName_regName (r : Reg) : Reg.ofName r.name = some r := by
  cases r with
  | r n => revert n; decide
  | s n => revert n; decide
  | t n => revert n; decide
  | bp => decide
  | sp => decide
  | ip => decide
  | ptbr => decide
  | ptlr => decide
  | efr => decide

/-- Every mnemonic names itself. -/
@[simp] theorem ofName_mnemonicName (m : Mnemonic) : Mnemonic.ofName m.name = some m := by
  cases m <;> decide

/-- A name begins with a letter and goes on with letters and digits. -/
def IsName (t : Text) : Prop := ∃ c cs, t = c :: cs ∧ c.isUpper = true ∧ ∀ d ∈ c :: cs, d.isNameChar = true

theorem isName_of_check {t : Text} (h : (match t with
    | [] => false
    | c :: cs => c.isUpper && (c :: cs).all Chr.isNameChar) = true) : IsName t := by
  cases t with
  | nil => cases h
  | cons c cs =>
    simp only [Bool.and_eq_true, List.all_eq_true] at h
    exact ⟨c, cs, rfl, h.1, h.2⟩

theorem isName_regName (r : Reg) : IsName r.name := by
  apply isName_of_check
  cases r with
  | r n => revert n; decide
  | s n => revert n; decide
  | t n => revert n; decide
  | bp => decide
  | sp => decide
  | ip => decide
  | ptbr => decide
  | ptlr => decide
  | efr => decide

theorem isName_mnemonicName (m : Mnemonic) : IsName m.name := by
  apply isName_of_check
  cases m <;> decide

/-! ### Runs of characters -/

/-- What may follow a run of characters that satisfy `p`: the end, or a character that does not. -/
def StopsRun (p : Chr → Bool) (t : Text) : Prop := ∀ c cs, t = c :: cs → p c = false

theorem stopsRun_nil (p : Chr → Bool) : StopsRun p [] := fun _ _ h => by cases h

theorem stopsRun_cons {p : Chr → Bool} {c : Chr} {cs : Text} (h : p c = false) : StopsRun p (c :: cs) :=
  fun d ds hd => by simp only [List.cons.injEq] at hd; exact hd.1 ▸ h

/-- A run is read whole where what follows stops it. -/
theorem spanText_append {p : Chr → Bool} {t rest : Text} (ht : ∀ c ∈ t, p c = true) (hr : StopsRun p rest) :
    spanText p (t ++ rest) = (t, rest) := by
  induction t with
  | nil =>
    cases rest with
    | nil => rfl
    | cons c cs => simp [spanText, hr c cs rfl]
  | cons c cs ih =>
    have hc := ht c (by simp)
    have := ih fun d hd => ht d (by simp [hd])
    simp [spanText, hc, this]

theorem isDigit_isNameChar {c : Chr} (h : c.isDigit = true) : c.isNameChar = true := by simp [Chr.isNameChar, h]

theorem isDigit_not_isUpper {c : Chr} (h : c.isDigit = true) : c.isUpper = false := by
  simp only [Chr.isDigit, Chr.isUpper, Bool.and_eq_true, Nat.ble_eq] at *
  simp only [Bool.and_eq_false_iff]
  left
  by_contra hc
  simp only [Bool.not_eq_false, Nat.ble_eq] at hc
  omega

/-- A separator, a bracket or a quote ends names and integers. -/
theorem not_isNameChar {c : Chr} (h : c.isSeparator = true ∨ c = Chr.closeBracket) : c.isNameChar = false := by
  rcases h with h | rfl
  · simp only [Chr.isSeparator, Bool.or_eq_true, beq_iff_eq] at h
    simp only [Chr.isNameChar, Chr.isUpper, Chr.isDigit, Bool.or_eq_false_iff, Bool.and_eq_false_iff]
    rcases h with (h | h) | h <;> rw [h] <;> decide
  · decide

theorem StopsRun.digits {t : Text} (h : StopsRun Chr.isNameChar t) : StopsRun Chr.isDigit t := fun c cs hc => by
  have := h c cs hc
  by_contra hd
  rw [isDigit_isNameChar (by simpa using hd)] at this
  cases this

/-! ### Tokens -/

/-- An integer's canonical text is read as that integer. -/
theorem lexInt_intText (n : Int) {rest : Text} (hr : StopsRun Chr.isNameChar rest) :
    lexInt (intText n ++ rest) = some (n, rest) := by
  have hspan : ∀ m : Nat, spanText Chr.isDigit (natText m ++ rest) = (natText m, rest) := fun m =>
    spanText_append (by simpa [List.all_eq_true] using all_natText m) hr.digits
  cases n with
  | ofNat m =>
    have hm := hspan m
    have hv := natOfDigits_natText m
    show lexInt (natText m ++ rest) = _
    cases h : natText m with
    | nil => exact absurd h (natText_ne_nil m)
    | cons c cs =>
      have hc : c ≠ Chr.minus := by
        rintro rfl
        exact absurd (natText_head h) (by simp [minus_not_digit])
      rw [h] at hm hv
      simp only [List.cons_append] at hm ⊢
      simp [lexInt, hc, hm, hv]
  | negSucc m =>
    have hm := hspan (m + 1)
    have hv := natOfDigits_natText (m + 1)
    show lexInt (Chr.minus :: (natText (m + 1) ++ rest)) = _
    cases h : natText (m + 1) with
    | nil => exact absurd h (natText_ne_nil _)
    | cons c cs =>
      rw [h] at hm hv
      simp only [lexInt, if_true, hm, hv]
      rfl

/-- A name is read as that name. -/
theorem lexAtom_name {t rest : Text} (ht : IsName t) (hr : StopsRun Chr.isNameChar rest) :
    lexAtom (t ++ rest) = some (.name t, rest) := by
  obtain ⟨c, cs, rfl, hc, hall⟩ := ht
  have := spanText_append hall hr
  simp only [List.cons_append] at this ⊢
  simp [lexAtom, hc, this]

/-- The first character of an integer's text: a digit or a minus sign. -/
theorem intText_head (n : Int) : ∃ c cs, intText n = c :: cs ∧ (c.isDigit = true ∨ c = Chr.minus) := by
  cases n with
  | ofNat m =>
    cases h : natText m with
    | nil => exact absurd h (natText_ne_nil m)
    | cons c cs => exact ⟨c, cs, h, .inl (natText_head h)⟩
  | negSucc m => exact ⟨_, _, rfl, .inr rfl⟩

/-- An integer's text is read as that integer where a name could also stand. -/
theorem lexAtom_int (n : Int) {rest : Text} (hr : StopsRun Chr.isNameChar rest) :
    lexAtom (intText n ++ rest) = some (.int n, rest) := by
  have hl := lexInt_intText n hr
  obtain ⟨c, cs, hn, hc⟩ := intText_head n
  rw [hn] at hl ⊢
  have hu : c.isUpper = false := by
    rcases hc with hc | rfl
    · exact isDigit_not_isUpper hc
    · decide
  simp only [List.cons_append] at hl ⊢
  simp [lexAtom, hu, hl]

/-- The token a canonically written operand is read as. -/
def Operand.token : Operand → Token
  | .reg r => .name r.name
  | .int v => .int v
  | .str w => .str w
  | .memReg r => .memName r.name
  | .memInt v => .memInt v

@[simp] theorem operand_token (o : Operand) : o.token.operand = some o := by
  cases o <;> simp [Operand.token, Token.operand]

/-- An operand that some text spells: a string in it holds no quote. -/
def Operand.spells : Operand → Prop
  | .str w => validString w = true
  | .reg _ | .int _ | .memReg _ | .memInt _ => True

theorem lexToken_atom {c : Chr} {cs : Text} (h : c.isUpper = true ∨ c.isDigit = true ∨ c = Chr.minus) :
    lexToken (c :: cs) = lexAtom (c :: cs) := by
  have h1 : c ≠ Chr.quote := by rintro rfl; revert h; decide
  have h2 : c ≠ Chr.openBracket := by rintro rfl; revert h; decide
  simp [lexToken, h1, h2]

/-- A canonically written operand is read as its token. -/
theorem lexToken_operand {o : Operand} {rest : Text} (ho : o.spells) (hr : StopsRun Chr.isNameChar rest) :
    lexToken (o.text ++ rest) = some (o.token, rest) := by
  cases o with
  | reg r =>
    have h := lexAtom_name (isName_regName r) hr
    obtain ⟨c, cs, hc, hu, _⟩ := isName_regName r
    simp only [Operand.text, Operand.token]
    rw [hc] at h ⊢
    rw [← h]
    exact lexToken_atom (.inl hu)
  | int v =>
    have h := lexAtom_int v hr
    obtain ⟨c, cs, hc, hu⟩ := intText_head v
    simp only [Operand.text, Operand.token]
    rw [hc] at h ⊢
    rw [← h]
    exact lexToken_atom (.inr hu)
  | str w =>
    have hspan : spanText (fun c => decide (c ≠ Chr.quote)) (w.chars ++ (Chr.quote :: rest)) = (w.chars, Chr.quote :: rest) :=
      spanText_append (by simpa [Operand.spells, validString] using ho) (stopsRun_cons (by simp))
    have hlen := w.short
    simp only [Operand.text, Operand.token, List.cons_append, List.append_assoc, List.nil_append, lexToken, if_true, lexStr,
      hspan]
    simp [hlen]
  | memReg r =>
    have h := lexAtom_name (rest := Chr.closeBracket :: rest) (isName_regName r) (stopsRun_cons (not_isNameChar (.inr rfl)))
    have hq : Chr.openBracket ≠ Chr.quote := by decide
    simp only [Operand.text, Operand.token, List.cons_append, List.append_assoc, List.nil_append, lexToken, hq, if_false,
      if_true, lexMem, h]
  | memInt v =>
    have h := lexAtom_int (rest := Chr.closeBracket :: rest) v (stopsRun_cons (not_isNameChar (.inr rfl)))
    have hq : Chr.openBracket ≠ Chr.quote := by decide
    simp only [Operand.text, Operand.token, List.cons_append, List.append_assoc, List.nil_append, lexToken, hq, if_false,
      if_true, lexMem, h]

/-! ### Token lists -/

/-- One token at the head of a text, where fuel is left. -/
theorem tokensFrom_cons {fuel : Nat} {c : Chr} {cs rest : Text} {tok : Token} (hc : c.isSeparator = false)
    (hl : lexToken (c :: cs) = some (tok, rest)) (he : tokenEnds rest = true) :
    tokensFrom (fuel + 1) (c :: cs) = (tokensFrom fuel rest).map (tok :: ·) := by
  simp [tokensFrom, hc, hl, he]

/-- Separators before a token are skipped. -/
theorem tokensFrom_separator {fuel : Nat} {c : Chr} {cs : Text} (hc : c.isSeparator = true) :
    tokensFrom fuel (c :: cs) = tokensFrom fuel cs := by
  cases fuel with
  | zero => rfl
  | succ fuel => simp [tokensFrom, hc]

end Sys2Proof
end

