-- ==== Sys2Proof/Laws/Legality.lean ====
section
/-! SUPPORT. What a legal instruction may name (spec 10_state.md R38, 30_encoding.md R90 to R93). -/

namespace Sys2Proof.Machine

theorem legalIn_user {i : Instr} :
    legalIn .user i = true ↔ privileged i = false ∧ ∀ u ∈ regUses i, userRegister u.2 = true := by
  simp [legalIn]

theorem legalIn_kernel {i : Instr} :
    legalIn .kernel i = true ↔ ∀ u ∈ regUses i, kernelUse u.1 u.2 = true := by
  simp only [legalIn, List.all_eq_true]

theorem userRegister_ne {r : Reg} (h : userRegister r = true) : r ≠ .ip ∧ r ≠ .efr := by
  cases r <;> simp_all [userRegister]

/-- In either mode a legal instruction writes neither IP nor EFR. -/
theorem legalIn_write {m : Mode} {i : Instr} {r : Reg} (h : legalIn m i = true) (hr : (Access.write, r) ∈ regUses i) :
    r ≠ .ip ∧ r ≠ .efr := by
  cases m with
  | user => exact userRegister_ne ((legalIn_user.1 h).2 _ hr)
  | kernel => simpa [kernelUse] using legalIn_kernel.1 h _ hr

/-- In either mode a legal instruction addresses memory with neither IP nor EFR. -/
theorem legalIn_address {m : Mode} {i : Instr} {r : Reg} (h : legalIn m i = true)
    (hr : (Access.address, r) ∈ regUses i) : r ≠ .ip ∧ r ≠ .efr := by
  cases m with
  | user => exact userRegister_ne ((legalIn_user.1 h).2 _ hr)
  | kernel => simpa [kernelUse] using legalIn_kernel.1 h _ hr

/-- In user mode a legal instruction names no kernel register. -/
theorem legalIn_user_reg {i : Instr} {u : Access × Reg} (h : legalIn .user i = true) (hu : u ∈ regUses i) :
    (∃ n, u.2 = .r n) ∨ u.2 = .bp ∨ u.2 = .sp := by
  have := (legalIn_user.1 h).2 u hu
  cases hr : u.2 <;> simp_all [userRegister]

/-- In user mode no privileged instruction is legal (R90). -/
theorem legalIn_user_privileged {i : Instr} (h : privileged i = true) : legalIn .user i = false := by
  simp [legalIn, h]

end Sys2Proof.Machine
end

