-- ==== Sys2Proof/Laws/Memory.lean ====
section
/-! SUPPORT. The laws of the word store: a read after a write, the page copy, and the canonical form, which every
operation keeps and which makes equal memories equal data. The read laws hold of every list, canonical or not. -/

namespace Sys2Proof.Machine

/-! ### Reads of a memory put together from parts -/

theorem read_append (m n : Memory) (a : Nat) :
    Memory.read (m ++ n) a = if ∃ e ∈ m, e.1 = a then Memory.read m a else Memory.read n a := by
  induction m with
  | nil => simp
  | cons d rest ih =>
    obtain ⟨k, v⟩ := d
    by_cases h : k = a
    · simp [Memory.read, h]
    · have hiff : (∃ e ∈ (k, v) :: rest, e.1 = a) ↔ ∃ e ∈ rest, e.1 = a := by
        rw [List.exists_mem_cons_iff]
        exact or_iff_right h
      rw [if_congr hiff rfl rfl, List.cons_append, Memory.read, if_neg h, ih, Memory.read, if_neg h]

theorem read_of_not_listed {m : Memory} {a : Nat} (h : ∀ e ∈ m, e.1 ≠ a) : m.read a = blankWord := by
  induction m with
  | nil => rfl
  | cons d rest ih =>
    obtain ⟨k, v⟩ := d
    have hk : k ≠ a := h (k, v) (by simp)
    simp only [Memory.read, if_neg hk]
    exact ih fun e he => h e (by simp [he])

/-- Filtering by number keeps what reads at a number that passes. -/
theorem read_filter {m : Memory} {p : Nat → Bool} {a : Nat} (h : p a = true) :
    Memory.read (m.filter fun e => p e.1) a = m.read a := by
  induction m with
  | nil => rfl
  | cons d rest ih =>
    obtain ⟨k, v⟩ := d
    by_cases hk : k = a
    · subst hk
      simp [h, Memory.read]
    · by_cases hp : p k = true
      · simp [hp, Memory.read, hk, ih]
      · simp [hp, Memory.read, hk, ih]

/-- A number that does not pass the filter is not listed after it. -/
theorem read_filter_out {m : Memory} {p : Nat → Bool} {a : Nat} (h : p a = false) :
    Memory.read (m.filter fun e => p e.1) a = blankWord := by
  refine read_of_not_listed fun e he => ?_
  rintro rfl
  simp [h] at he

/-- A filtered memory put before another: where the number passes and reads as something, the first decides. -/
theorem read_filter_append {m n : Memory} {p : Nat → Bool} {a : Nat} (hn : p a = true → Memory.read n a = blankWord) :
    Memory.read (m.filter (fun e => p e.1) ++ n) a = if p a = true then m.read a else Memory.read n a := by
  rw [read_append]
  by_cases h : p a = true
  · rw [if_pos h, read_filter h]
    split
    · rfl
    · rename_i hne
      rw [hn h, ← read_filter (m := m) h]
      exact (read_of_not_listed fun e he hea => hne ⟨e, he, hea⟩).symm
  · rw [if_neg h]
    split
    · rename_i he
      obtain ⟨e, he, rfl⟩ := he
      simp [h] at he
    · rfl

/-! ### Write -/

/-- A read after a write gives the word written at that number and leaves every other word alone. -/
theorem read_write (m : Memory) (a b : Nat) (w : Word) :
    (m.write a w).read b = if b = a then w else m.read b := by
  unfold Memory.write
  rw [List.append_assoc, read_filter_append (p := fun k => decide (k < a))]
  · by_cases hb : b = a
    · subst hb
      by_cases hw : w = blankWord
      · simp only [lt_irrefl, decide_false, Bool.false_eq_true, if_false, if_pos hw, if_true, List.nil_append]
        rw [hw]
        exact read_filter_out (p := fun k => decide (b < k)) (by simp)
      · simp [hw, Memory.read]
    · by_cases hlt : b < a
      · simp [hlt, hb]
      · have hgt : a < b := by omega
        simp only [hlt, decide_false, Bool.false_eq_true, if_false, if_neg hb]
        have hf := read_filter (m := m) (p := fun k => decide (a < k)) (a := b) (by simp [hgt])
        by_cases hw : w = blankWord
        · simpa [hw] using hf
        · simpa [hw, Memory.read, Ne.symm hb] using hf
  · intro hlt
    have hlt : b < a := by simpa using hlt
    have hf := read_filter_out (m := m) (p := fun k => decide (a < k)) (a := b) (by simp; omega)
    have hab : a ≠ b := by omega
    by_cases hw : w = blankWord
    · simpa [hw] using hf
    · simpa [hw, Memory.read, hab] using hf

@[simp] theorem read_write_self (m : Memory) (a : Nat) (w : Word) : (m.write a w).read a = w := by
  rw [read_write, if_pos rfl]

theorem read_write_ne (m : Memory) {a b : Nat} (w : Word) (h : b ≠ a) : (m.write a w).read b = m.read b := by
  rw [read_write, if_neg h]

/-- A memory put together from two parts, the first below the second, is canonical where both are. -/
theorem wf_append {size : Nat} {m n : Memory} (hm : Memory.wf size m) (hn : Memory.wf size n)
    (hlt : ∀ d ∈ m, ∀ e ∈ n, d.1 < e.1) : Memory.wf size (m ++ n) := by
  refine ⟨List.pairwise_append.2 ⟨hm.1, hn.1, hlt⟩, fun e he => ?_⟩
  rcases List.mem_append.1 he with he | he
  · exact hm.2 e he
  · exact hn.2 e he

theorem wf_filter {size : Nat} {m : Memory} (p : Nat × Word → Bool) (h : Memory.wf size m) :
    Memory.wf size (m.filter p) :=
  ⟨h.1.filter p, fun e he => h.2 e (List.mem_filter.1 he).1⟩

/-- A write keeps the canonical form. -/
theorem wf_write {size a : Nat} {m : Memory} (w : Word) (h : Memory.wf size m) (ha : a < size) :
    Memory.wf size (m.write a w) := by
  unfold Memory.write
  refine wf_append (wf_append (wf_filter _ h) ?_ ?_) (wf_filter _ h) ?_
  · by_cases hw : w = blankWord <;> simp [hw, Memory.wf, ha]
  · intro d hd e he
    simp only [List.mem_filter, decide_eq_true_eq] at hd
    by_cases hw : w = blankWord
    · simp [hw] at he
    · simp only [hw, if_false, List.mem_singleton] at he
      simpa [he] using hd.2
  · intro d hd e he
    simp only [List.mem_append, List.mem_filter, decide_eq_true_eq] at hd he
    rcases hd with hd | hd
    · omega
    · by_cases hw : w = blankWord
      · simp [hw] at hd
      · simp only [hw, if_false, List.mem_singleton] at hd
        simpa [hd] using he.2

/-! ### The page copy -/

theorem read_map_shift (m : Memory) {lo hi slo dlo a : Nat} (hlo : slo ≤ lo)
    (ha : dlo ≤ a) (h : lo ≤ a - dlo + slo ∧ a - dlo + slo < hi) :
    Memory.read ((m.filter fun e => decide (lo ≤ e.1 ∧ e.1 < hi)).map fun e => (e.1 - slo + dlo, e.2)) a
      = m.read (a - dlo + slo) := by
  induction m with
  | nil => rfl
  | cons d rest ih =>
    obtain ⟨k, v⟩ := d
    by_cases hk : lo ≤ k ∧ k < hi
    · have : (k - slo + dlo = a) ↔ (k = a - dlo + slo) := by omega
      simp only [List.filter_cons, hk, and_self, decide_true, if_true, List.map_cons, Memory.read, this]
      split
      · rfl
      · exact ih
    · have hne : k ≠ a - dlo + slo := by rintro rfl; exact hk h
      simp only [List.filter_cons, hk, decide_false, Bool.false_eq_true, if_false, Memory.read, if_neg hne]
      exact ih

/-- After a page copy, the words of the target range are the source's and every other word stays. -/
theorem read_copyWords (dst src : Memory) (dlo slo n a : Nat) :
    (dst.copyWords dlo src slo n).read a
      = if dlo ≤ a ∧ a < dlo + n then src.read (a - dlo + slo) else dst.read a := by
  unfold Memory.copyWords
  have hmid : ∀ e ∈ (src.filter fun e => decide (slo ≤ e.1 ∧ e.1 < slo + n)).map
      (fun e => ((e.1 - slo + dlo, e.2) : Nat × Word)), dlo ≤ e.1 ∧ e.1 < dlo + n := by
    intro e he
    simp only [List.mem_map, List.mem_filter, decide_eq_true_eq] at he
    obtain ⟨d, ⟨_, hd⟩, rfl⟩ := he
    show dlo ≤ d.1 - slo + dlo ∧ d.1 - slo + dlo < dlo + n
    omega
  have htail : ∀ b, b < dlo + n → Memory.read (dst.filter fun e => decide (dlo + n ≤ e.1)) b = blankWord := fun b hb =>
    read_filter_out (p := fun k => decide (dlo + n ≤ k)) (by simp; omega)
  rw [List.append_assoc, read_filter_append (p := fun k => decide (k < dlo))]
  · by_cases hlt : a < dlo
    · have : ¬ (dlo ≤ a ∧ a < dlo + n) := by omega
      simp [hlt, this]
    · rw [if_neg (by simpa using hlt), read_append]
      by_cases hin : dlo ≤ a ∧ a < dlo + n
      · rw [if_pos hin, htail a hin.2, read_map_shift src (le_refl _) hin.1 (by omega)]
        split
        · rfl
        · rename_i hne
          rw [← read_map_shift (dlo := dlo) (hi := slo + n) src (le_refl slo) hin.1 (by omega)]
          exact (read_of_not_listed fun e he hea => hne ⟨e, he, hea⟩).symm
      · rw [if_neg hin, if_neg]
        · exact read_filter (p := fun k => decide (dlo + n ≤ k)) (by simp; omega)
        · rintro ⟨e, he, rfl⟩
          exact hin (hmid e he)
  · intro hlt
    have hlt : a < dlo := by simpa using hlt
    rw [read_append, if_neg, htail a (by omega)]
    rintro ⟨e, he, rfl⟩
    have := hmid e he
    omega

/-- A page copy keeps the canonical form. -/
theorem wf_copyWords {dsize ssize : Nat} {dst src : Memory} {dlo slo n : Nat} (hd : Memory.wf dsize dst)
    (hs : Memory.wf ssize src) (hn : dlo + n ≤ dsize) : Memory.wf dsize (dst.copyWords dlo src slo n) := by
  unfold Memory.copyWords
  have hmid : ∀ e ∈ (src.filter fun e => decide (slo ≤ e.1 ∧ e.1 < slo + n)).map
      (fun e => ((e.1 - slo + dlo, e.2) : Nat × Word)), dlo ≤ e.1 ∧ e.1 < dlo + n ∧ e.2 ≠ blankWord := by
    intro e he
    simp only [List.mem_map, List.mem_filter, decide_eq_true_eq] at he
    obtain ⟨d, ⟨hd', hd⟩, rfl⟩ := he
    have := (hs.2 d hd').2
    exact ⟨by simp, by show d.1 - slo + dlo < dlo + n; omega, this⟩
  refine wf_append (wf_append (wf_filter _ hd) ?_ ?_) (wf_filter _ hd) ?_
  · refine ⟨?_, fun e he => ⟨by have := hmid e he; omega, (hmid e he).2.2⟩⟩
    rw [List.pairwise_map]
    refine (List.Pairwise.imp_of_mem ?_ (hs.1.filter _))
    intro d e hd he hlt
    simp only [List.mem_filter, decide_eq_true_eq] at hd he
    show d.1 - slo + dlo < e.1 - slo + dlo
    omega
  · intro d hd e he
    simp only [List.mem_filter, decide_eq_true_eq] at hd
    have := hmid e he
    omega
  · intro d hd e he
    simp only [List.mem_filter, decide_eq_true_eq] at he
    rcases List.mem_append.1 hd with hd | hd
    · simp only [List.mem_filter, decide_eq_true_eq] at hd
      omega
    · have := hmid d hd
      omega

end Sys2Proof.Machine
end

