-- ==== Sys2Proof/Laws/State.lean ====
section
/-! SUPPORT. What each update of State does to each field, so that no proof unfolds a record update. -/

namespace Sys2Proof.Machine

variable (s : State) (r r' : Reg) (w : Word) (n : Int)

/-! ### setReg -/

@[simp] theorem setReg_ip : (s.setReg r w).ip = s.ip := by cases r <;> rfl
@[simp] theorem setReg_efr : (s.setReg r w).efr = s.efr := by cases r <;> rfl
@[simp] theorem setReg_mode : (s.setReg r w).mode = s.mode := by cases r <;> rfl
@[simp] theorem setReg_timerCount : (s.setReg r w).timerCount = s.timerCount := by cases r <;> rfl
@[simp] theorem setReg_status : (s.setReg r w).status = s.status := by cases r <;> rfl
@[simp] theorem setReg_mem : (s.setReg r w).mem = s.mem := by cases r <;> rfl
@[simp] theorem setReg_disk : (s.setReg r w).disk = s.disk := by cases r <;> rfl
@[simp] theorem setReg_out : (s.setReg r w).out = s.out := by cases r <;> rfl
@[simp] theorem setReg_input : (s.setReg r w).input = s.input := by cases r <;> rfl
@[simp] theorem setReg_cfg : (s.setReg r w).cfg = s.cfg := by cases r <;> rfl
@[simp] theorem setReg_debugCalls : (s.setReg r w).debugCalls = s.debugCalls := by cases r <;> rfl
@[simp] theorem setReg_draws : (s.setReg r w).draws = s.draws := by cases r <;> rfl

/-- A register that an instruction may write reads back what was written to it. -/
theorem getReg_setReg_self (hip : r ≠ .ip) (hefr : r ≠ .efr) : (s.setReg r w).getReg r = w := by
  cases r <;> simp_all [State.setReg, State.getReg]

/-- The registers do not alias one another (10_state.md R21). -/
theorem getReg_setReg_ne (h : r' ≠ r) : (s.setReg r w).getReg r' = s.getReg r' := by
  cases r <;> cases r' <;>
    simp_all [State.setReg, State.getReg, Fin.ext_iff, eq_comm]

/-- Two states whose register fields are equal read every register alike. -/
theorem getReg_congr {s t : State} (hp : t.prog = s.prog) (hk : t.kern = s.kern) (ht : t.temp = s.temp)
    (hbp : t.bp = s.bp) (hsp : t.sp = s.sp) (hip : t.ip = s.ip) (hb : t.ptbr = s.ptbr) (hl : t.ptlr = s.ptlr)
    (he : t.efr = s.efr) (r : Reg) : t.getReg r = s.getReg r := by
  cases r <;> simp [State.getReg, hp, hk, ht, hbp, hsp, hip, hb, hl, he]

/-! ### drawn -/

@[simp] theorem drawn_ip : s.drawn.ip = s.ip := rfl
@[simp] theorem drawn_efr : s.drawn.efr = s.efr := rfl
@[simp] theorem drawn_mode : s.drawn.mode = s.mode := rfl
@[simp] theorem drawn_timerCount : s.drawn.timerCount = s.timerCount := rfl
@[simp] theorem drawn_status : s.drawn.status = s.status := rfl
@[simp] theorem drawn_mem : s.drawn.mem = s.mem := rfl
@[simp] theorem drawn_disk : s.drawn.disk = s.disk := rfl
@[simp] theorem drawn_out : s.drawn.out = s.out := rfl
@[simp] theorem drawn_input : s.drawn.input = s.input := rfl
@[simp] theorem drawn_cfg : s.drawn.cfg = s.cfg := rfl
@[simp] theorem drawn_debugCalls : s.drawn.debugCalls = s.debugCalls := rfl
@[simp] theorem drawn_draws : s.drawn.draws = s.draws + 1 := rfl
@[simp] theorem getReg_drawn : s.drawn.getReg r = s.getReg r := by cases r <;> rfl

/-! ### strWord: the state after it is the state before it, or one draw on -/

/-- Everything `strWord` can do. -/
theorem strWord_cases :
    (strDefined s.cfg n = true ∧ strWord n s = (Word.ofInt n, s))
      ∨ (strDefined s.cfg n = false ∧ strWord n s = (Config.freeWord s.draws, s.drawn)) := by
  unfold strWord
  cases h : strDefined s.cfg n <;> simp

/-- In the range, `strWord` is `str` and draws nothing. -/
theorem strWord_of_defined (h : strDefined s.cfg n = true) : strWord n s = (Word.ofInt n, s) := by
  simp [strWord, h]

@[simp] theorem strWord_ip : (strWord n s).2.ip = s.ip := by unfold strWord; split <;> rfl
@[simp] theorem strWord_efr : (strWord n s).2.efr = s.efr := by unfold strWord; split <;> rfl
@[simp] theorem strWord_mode : (strWord n s).2.mode = s.mode := by unfold strWord; split <;> rfl
@[simp] theorem strWord_timerCount : (strWord n s).2.timerCount = s.timerCount := by unfold strWord; split <;> rfl
@[simp] theorem strWord_status : (strWord n s).2.status = s.status := by unfold strWord; split <;> rfl
@[simp] theorem strWord_mem : (strWord n s).2.mem = s.mem := by unfold strWord; split <;> rfl
@[simp] theorem strWord_disk : (strWord n s).2.disk = s.disk := by unfold strWord; split <;> rfl
@[simp] theorem strWord_out : (strWord n s).2.out = s.out := by unfold strWord; split <;> rfl
@[simp] theorem strWord_input : (strWord n s).2.input = s.input := by unfold strWord; split <;> rfl
@[simp] theorem strWord_cfg : (strWord n s).2.cfg = s.cfg := by unfold strWord; split <;> rfl
@[simp] theorem strWord_debugCalls : (strWord n s).2.debugCalls = s.debugCalls := by unfold strWord; split <;> rfl
@[simp] theorem getReg_strWord : (strWord n s).2.getReg r = s.getReg r := by unfold strWord; split <;> simp

/-! ### setInt -/

@[simp] theorem setInt_ip : (s.setInt r n).ip = s.ip := by simp [State.setInt]
@[simp] theorem setInt_efr : (s.setInt r n).efr = s.efr := by simp [State.setInt]
@[simp] theorem setInt_mode : (s.setInt r n).mode = s.mode := by simp [State.setInt]
@[simp] theorem setInt_timerCount : (s.setInt r n).timerCount = s.timerCount := by simp [State.setInt]
@[simp] theorem setInt_status : (s.setInt r n).status = s.status := by simp [State.setInt]
@[simp] theorem setInt_mem : (s.setInt r n).mem = s.mem := by simp [State.setInt]
@[simp] theorem setInt_disk : (s.setInt r n).disk = s.disk := by simp [State.setInt]
@[simp] theorem setInt_out : (s.setInt r n).out = s.out := by simp [State.setInt]
@[simp] theorem setInt_input : (s.setInt r n).input = s.input := by simp [State.setInt]
@[simp] theorem setInt_cfg : (s.setInt r n).cfg = s.cfg := by simp [State.setInt]
@[simp] theorem setInt_debugCalls : (s.setInt r n).debugCalls = s.debugCalls := by simp [State.setInt]

/-- A register that an instruction may write holds `str(n)` after it. -/
theorem getReg_setInt_self (hip : r ≠ .ip) (hefr : r ≠ .efr) (h : strDefined s.cfg n = true) :
    (s.setInt r n).getReg r = Word.ofInt n := by
  rw [State.setInt, getReg_setReg_self _ _ _ hip hefr, strWord_of_defined _ _ h]

/-- Writing one register's integer leaves the others. -/
theorem getReg_setInt_ne (h : r' ≠ r) : (s.setInt r n).getReg r' = s.getReg r' := by
  rw [State.setInt, getReg_setReg_ne _ _ _ _ h, getReg_strWord]

/-! ### setIp and advance -/

@[simp] theorem setIp_efr : (s.setIp n).efr = s.efr := by unfold State.setIp; split <;> rfl
@[simp] theorem setIp_mode : (s.setIp n).mode = s.mode := by unfold State.setIp; split <;> rfl
@[simp] theorem setIp_timerCount : (s.setIp n).timerCount = s.timerCount := by unfold State.setIp; split <;> rfl
@[simp] theorem setIp_status : (s.setIp n).status = s.status := by unfold State.setIp; split <;> rfl
@[simp] theorem setIp_mem : (s.setIp n).mem = s.mem := by unfold State.setIp; split <;> rfl
@[simp] theorem setIp_disk : (s.setIp n).disk = s.disk := by unfold State.setIp; split <;> rfl
@[simp] theorem setIp_out : (s.setIp n).out = s.out := by unfold State.setIp; split <;> rfl
@[simp] theorem setIp_input : (s.setIp n).input = s.input := by unfold State.setIp; split <;> rfl
@[simp] theorem setIp_cfg : (s.setIp n).cfg = s.cfg := by unfold State.setIp; split <;> rfl
@[simp] theorem setIp_debugCalls : (s.setIp n).debugCalls = s.debugCalls := by unfold State.setIp; split <;> rfl

/-- IP is the target wherever the target has a text. -/
theorem setIp_ip (h : strDefined s.cfg n = true) : (s.setIp n).ip = n := by simp [State.setIp, h]

/-- Every register but IP stays where IP is written. -/
theorem getReg_setIp (h : r ≠ .ip) : (s.setIp n).getReg r = s.getReg r := by
  unfold State.setIp
  split <;> cases r <;> first | rfl | exact absurd rfl h

@[simp] theorem advance_efr : s.advance.efr = s.efr := by simp [State.advance]
@[simp] theorem advance_mode : s.advance.mode = s.mode := by simp [State.advance]
@[simp] theorem advance_timerCount : s.advance.timerCount = s.timerCount := by simp [State.advance]
@[simp] theorem advance_status : s.advance.status = s.status := by simp [State.advance]
@[simp] theorem advance_mem : s.advance.mem = s.mem := by simp [State.advance]
@[simp] theorem advance_disk : s.advance.disk = s.disk := by simp [State.advance]
@[simp] theorem advance_out : s.advance.out = s.out := by simp [State.advance]
@[simp] theorem advance_input : s.advance.input = s.input := by simp [State.advance]
@[simp] theorem advance_cfg : s.advance.cfg = s.cfg := by simp [State.advance]
@[simp] theorem advance_debugCalls : s.advance.debugCalls = s.debugCalls := by simp [State.advance]

/-- The next instruction is two words on. -/
theorem advance_ip (h : strDefined s.cfg (s.ip + 2) = true) : s.advance.ip = s.ip + 2 := setIp_ip s _ h

/-- Every register but IP stays where IP advances. -/
theorem getReg_advance (h : r ≠ .ip) : s.advance.getReg r = s.getReg r := getReg_setIp s r _ h

/-! ### recordException and takeException -/

variable (e : Exn)

@[simp] theorem recordException_ip : (recordException e s).ip = s.ip := by
  cases e <;> simp only [recordException] <;> split <;> rfl
@[simp] theorem recordException_mode : (recordException e s).mode = s.mode := by
  cases e <;> simp only [recordException] <;> split <;> rfl
@[simp] theorem recordException_timerCount : (recordException e s).timerCount = s.timerCount := by
  cases e <;> simp only [recordException] <;> split <;> rfl
@[simp] theorem recordException_status : (recordException e s).status = s.status := by
  cases e <;> simp only [recordException] <;> split <;> rfl
@[simp] theorem recordException_mem : (recordException e s).mem = s.mem := by
  cases e <;> simp only [recordException] <;> split <;> rfl
@[simp] theorem recordException_disk : (recordException e s).disk = s.disk := by
  cases e <;> simp only [recordException] <;> split <;> rfl
@[simp] theorem recordException_out : (recordException e s).out = s.out := by
  cases e <;> simp only [recordException] <;> split <;> rfl
@[simp] theorem recordException_input : (recordException e s).input = s.input := by
  cases e <;> simp only [recordException] <;> split <;> rfl
@[simp] theorem recordException_cfg : (recordException e s).cfg = s.cfg := by
  cases e <;> simp only [recordException] <;> split <;> rfl
@[simp] theorem recordException_debugCalls : (recordException e s).debugCalls = s.debugCalls := by
  cases e <;> simp only [recordException] <;> split <;> rfl

/-- Recording an exception writes EFR and no other register. -/
theorem getReg_recordException (h : r ≠ .efr) : (recordException e s).getReg r = s.getReg r := by
  cases e <;> simp only [recordException] <;> split <;> cases r <;> first | rfl | exact absurd rfl h

@[simp] theorem takeException_timerCount : (takeException e s).timerCount = s.timerCount := by
  unfold takeException; split <;> simp
@[simp] theorem takeException_mem : (takeException e s).mem = s.mem := by unfold takeException; split <;> simp
@[simp] theorem takeException_disk : (takeException e s).disk = s.disk := by unfold takeException; split <;> simp
@[simp] theorem takeException_out : (takeException e s).out = s.out := by unfold takeException; split <;> simp
@[simp] theorem takeException_input : (takeException e s).input = s.input := by unfold takeException; split <;> simp
@[simp] theorem takeException_cfg : (takeException e s).cfg = s.cfg := by unfold takeException; split <;> simp
@[simp] theorem takeException_debugCalls : (takeException e s).debugCalls = s.debugCalls := by
  unfold takeException; split <;> simp

/-- After an exception the machine is in kernel mode, whatever mode it was in. -/
@[simp] theorem takeException_mode : (takeException e s).mode = .kernel := by
  unfold takeException; split <;> simp_all

/-- Taking an exception writes EFR and, in user mode, IP, and no other register. -/
theorem getReg_takeException (hip : r ≠ .ip) (h : r ≠ .efr) : (takeException e s).getReg r = s.getReg r := by
  rw [← getReg_recordException s r e h]
  unfold takeException
  split <;> cases r <;> first | rfl | exact absurd rfl hip

/-! ### Reset -/

/-- The memory of a reset state is canonical, and its disk is if the disk image is. -/
theorem resetWith_wf (cfg : Config) (disk : Memory) (input : List Word) (h : Memory.wf diskWords disk) :
    Memory.wf memWords (State.resetWith cfg disk input).mem ∧ Memory.wf diskWords (State.resetWith cfg disk input).disk :=
  ⟨show Memory.wf memWords romCode by decide, h⟩

end Sys2Proof.Machine
end

