-- ==== Sys2Proof/Laws/Ops.lean ====
section
/-! SUPPORT. What each shared operation can do, said once: if it answers, one of these cases holds. -/

namespace Sys2Proof.Machine

/-! ### Res -/

section
variable {α β : Type}

@[simp] theorem bind_ok (a : α) (s : State) (f : α → State → Res β) : (Res.ok a s).bind f = f a s := rfl
@[simp] theorem bind_raise (e : Exn) (s : State) (f : α → State → Res β) : (Res.raise e s).bind f = .raise e s := rfl
@[simp] theorem bind_refuse (r : Refusal) (f : α → State → Res β) : (Res.refuse r : Res α).bind f = .refuse r := rfl

/-- A sequence answers a value exactly where both its parts do. -/
theorem bind_eq_ok {x : Res α} {f : α → State → Res β} {b : β} {t : State} :
    x.bind f = .ok b t ↔ ∃ a s, x = .ok a s ∧ f a s = .ok b t := by
  cases x <;> simp

/-- A sequence raises where its first part does, or its second after the first. -/
theorem bind_eq_raise {x : Res α} {f : α → State → Res β} {e : Exn} {t : State} :
    x.bind f = .raise e t ↔ x = .raise e t ∨ ∃ a s, x = .ok a s ∧ f a s = .raise e t := by
  cases x <;> simp

end

@[simp] theorem outcome_ok (s : State) : (Res.ok () s).outcome = .next s := rfl
@[simp] theorem outcome_raise (e : Exn) (s : State) : (Res.raise e s).outcome = raiseException e s := rfl
@[simp] theorem outcome_refuse (r : Refusal) : (Res.refuse r : Res Unit).outcome = .refused r := rfl

/-- An exception ends in the state after it, or is refused where its EFR is unspecified. -/
theorem raiseException_eq_next {e : Exn} {s t : State} :
    raiseException e s = .next t ↔ efrTaken e s = true ∧ t = takeException e s := by
  unfold raiseException
  cases efrTaken e s <;> simp [eq_comm]

/-- An exception is no fault. -/
theorem raiseException_ne_fault {e : Exn} {s : State} {f : Fault} : raiseException e s ≠ .fault f := by
  unfold raiseException
  split <;> simp

theorem raiseException_of_taken {e : Exn} {s : State} (h : efrTaken e s = true) :
    raiseException e s = .next (takeException e s) := by simp [raiseException, h]

/-- A part of an instruction ends in a next state by completing or by an exception. -/
theorem outcome_eq_next {x : Res Unit} {t : State} (h : x.outcome = .next t) :
    x = .ok () t ∨ ∃ e s, x = .raise e s ∧ t = takeException e s := by
  cases x with
  | ok a s => exact .inl (by simpa [Res.outcome] using h)
  | raise e s => exact .inr ⟨e, s, rfl, (raiseException_eq_next.1 h).2⟩
  | refuse r => simp at h

/-- A legal instruction is its body. -/
theorem checked_of_legal {i : Instr} {s : State} (body : Res Unit) (h : legalIn s.mode i = true) :
    checked i s body = body.outcome := by simp [checked, h]

/-- An illegal instruction raises IllegalInstruction (30_encoding.md R90 to R93). -/
theorem checked_of_illegal {i : Instr} {s : State} (body : Res Unit) (h : legalIn s.mode i = false) :
    checked i s body = raiseException .illegalInstruction s := by simp [checked, h]

/-! ### The range of integers -/

theorem strDefined_iff {cfg : Config} {n : Int} :
    strDefined cfg n = true ↔ cfg.intMin ≤ n ∧ n ≤ cfg.intMax ∧ wordIntMin ≤ n ∧ n ≤ wordIntMax := by
  simp [strDefined, and_assoc]

theorem hasText_of_defined {cfg : Config} {n : Int} (h : strDefined cfg n = true) : hasText cfg n = true := by
  simp [hasText, h]

/-- Taking a text goes on or refuses; it changes nothing. -/
theorem needText_cases (n : Int) (s : State) :
    (hasText s.cfg n = true ∧ needText n s = .ok () s) ∨ (hasText s.cfg n = false ∧ needText n s = .refuse .noText) := by
  unfold needText
  cases hasText s.cfg n <;> simp

theorem needText_of_hasText {n : Int} {s : State} (h : hasText s.cfg n = true) : needText n s = .ok () s := by
  simp [needText, h]

theorem needText_of_not {n : Int} {s : State} (h : hasText s.cfg n = false) : needText n s = .refuse .noText := by
  simp [needText, h]

theorem needText_eq_ok {n : Int} {s t : State} : needText n s = .ok () t ↔ hasText s.cfg n = true ∧ t = s := by
  unfold needText
  cases hasText s.cfg n <;> simp [eq_comm]

theorem needText_ne_raise {n : Int} {s t : State} {e : Exn} : needText n s ≠ .raise e t := by
  unfold needText
  split <;> simp

theorem writeInt_eq_ok {r : Reg} {n : Int} {s t : State} :
    writeInt r n s = .ok () t ↔ hasText s.cfg n = true ∧ t = s.setInt r n := by
  unfold writeInt needText
  cases hasText s.cfg n <;> simp [eq_comm]

theorem writeInt_of_hasText {r : Reg} {n : Int} {s : State} (h : hasText s.cfg n = true) :
    writeInt r n s = .ok () (s.setInt r n) := writeInt_eq_ok.2 ⟨h, rfl⟩

theorem goTo_eq_ok {n : Int} {s t : State} : goTo n s = .ok () t ↔ hasText s.cfg n = true ∧ t = s.setIp n := by
  unfold goTo needText
  cases hasText s.cfg n <;> simp [eq_comm]

/-- Going on is going to the next instruction. -/
theorem goOn_eq_ok {s t : State} : goOn s = .ok () t ↔ hasText s.cfg (s.ip + 2) = true ∧ t = s.advance := goTo_eq_ok

theorem goTo_of_not {n : Int} {s : State} (h : hasText s.cfg n = false) : goTo n s = .refuse .noText := by
  simp [goTo, needText_of_not h]

/-- `int(str(n)) = n` for every n in the range (00_scope.md R7). -/
theorem int?_ofInt_of_defined {cfg : Config} {n : Int} (h : strDefined cfg n = true) :
    (Word.ofInt n).int? = some n :=
  int?_ofInt (strDefined_iff.1 h).2.2

theorem freeIp_bounds (k : Nat) : wordIntMin ≤ freeIp k ∧ freeIp k ≤ wordIntMax := by
  have := (Config.freeIpIndex k).isLt
  simp only [freeIp, wordIntMin, wordIntMax]
  omega

/-- Wherever IP is written it is an integer a word can hold. -/
theorem setIp_bounds (s : State) (n : Int) : wordIntMin ≤ (s.setIp n).ip ∧ (s.setIp n).ip ≤ wordIntMax := by
  unfold State.setIp
  split
  · rename_i h
    exact (strDefined_iff.1 h).2.2
  · exact freeIp_bounds _

theorem advance_bounds (s : State) : wordIntMin ≤ s.advance.ip ∧ s.advance.ip ≤ wordIntMax := setIp_bounds _ _

/-! ### readInt -/

/-- `readInt` answers the register's integer and changes nothing. -/
theorem readInt_eq_ok {r : Reg} {s t : State} {n : Int} :
    readInt r s = .ok n t ↔ (s.getReg r).int? = some n ∧ t = s := by
  unfold readInt
  cases (s.getReg r).int? <;> simp [eq_comm]

/-- `readInt` raises IllegalOperands, on a register that holds no integer. -/
theorem readInt_eq_raise {r : Reg} {s t : State} {e : Exn} :
    readInt r s = .raise e t ↔ (s.getReg r).int? = none ∧ e = .illegalOperands ∧ t = s := by
  unfold readInt
  cases (s.getReg r).int? <;> simp [eq_comm]

theorem readInt_of_int {r : Reg} {s : State} {n : Int} (h : (s.getReg r).int? = some n) : readInt r s = .ok n s :=
  readInt_eq_ok.2 ⟨h, rfl⟩

theorem readInt_of_not_int {r : Reg} {s : State} (h : (s.getReg r).int? = none) :
    readInt r s = .raise .illegalOperands s :=
  readInt_eq_raise.2 ⟨h, rfl, rfl⟩

/-! ### storeWord -/

/-- A write to a physical word writes it, or is dropped by the ROM page; it changes nothing else. -/
theorem storeWord_eq_ok {pa : Nat} {w : Word} {s t : State} (h : storeWord pa w s = .ok () t) :
    (t = { s with mem := s.mem.write pa w } ∧ (pa < 512 → s.cfg.romWrite = .write))
      ∨ (t = s ∧ pa < 512 ∧ s.cfg.romWrite = .ignore) := by
  unfold storeWord at h
  split at h
  · rename_i hrom
    split at h
    · cases h
    · exact .inr ⟨by simpa [eq_comm] using h, hrom, by assumption⟩
    · exact .inl ⟨by simpa [eq_comm] using h, fun _ => by assumption⟩
  · rename_i hrom
    exact .inl ⟨by simpa [eq_comm] using h, fun hlt => absurd hlt hrom⟩

/-- A write never raises. -/
theorem storeWord_ne_raise {pa : Nat} {w : Word} {s t : State} {e : Exn} : storeWord pa w s ≠ .raise e t := by
  unfold storeWord
  split
  · split <;> simp
  · simp

/-- Outside the ROM page a write writes. -/
theorem storeWord_above {pa : Nat} (w : Word) (s : State) (h : 512 ≤ pa) :
    storeWord pa w s = .ok () { s with mem := s.mem.write pa w } := by
  have : ¬ pa < pageWords := by simp only [pageWords]; omega
  simp [storeWord, this]

/-! ### translateAddr -/

/-- Setting the reference bit sets the first character and leaves the others (20_memory.md R58). -/
theorem auxiliary_eq_some {w marked : Word} {valid : Bool} (h : auxiliary w = some (valid, marked)) :
    ∃ c v rest, w.chars = c :: v :: rest ∧ marked.chars = chrOne :: v :: rest
      ∧ (c = chrZero ∨ c = chrOne) ∧ (v = chrZero ∨ v = chrOne) ∧ valid = decide (v = chrOne) := by
  unfold auxiliary at h
  split at h
  · rename_i c v rest hw
    split at h
    · rename_i hcv
      simp only [Option.some.injEq, Prod.mk.injEq] at h
      obtain ⟨rfl, rfl⟩ := h
      refine ⟨c, v, rest, hw, chars_clip ?_, hcv.1, hcv.2, rfl⟩
      have := w.short
      rw [hw] at this
      simpa using this
    · cases h
  · cases h

/-- The bits are the characters `0`, of code 48, and `1`, of code 49 (R57). -/
theorem chr_bit_iff {c : Chr} : (c = chrZero ↔ c.code = 48) ∧ (c = chrOne ↔ c.code = 49) :=
  ⟨⟨fun h => h ▸ rfl, fun h => Chr.ext_code h⟩, ⟨fun h => h ▸ rfl, fun h => Chr.ext_code h⟩⟩

/-- A word whose first two characters are bits is well formed; its valid bit is the second, and marking it sets the first. -/
theorem auxiliary_of_bits {w : Word} {c v : Chr} {rest : Text} (hw : w.chars = c :: v :: rest)
    (hc : c.code = 48 ∨ c.code = 49) (hv : v.code = 48 ∨ v.code = 49) :
    auxiliary w = some (decide (v.code = 49), Word.clip (chrOne :: v :: rest)) := by
  simp only [auxiliary, hw, chr_bit_iff.1, chr_bit_iff.2]
  rw [if_pos ⟨hc, hv⟩]

/-- In kernel mode an address is physical (R53). -/
theorem translateAddr_kernel {a : Int} {s : State} (hm : s.mode = .kernel) :
    translateAddr a s = if 0 ≤ a ∧ a ≤ 32767 then .ok a.toNat s else .raise .illegalMemoryAccess s := by
  simp [translateAddr, hm]

/-- The second half of a user-mode translation, where it succeeds. -/
theorem translateEntry_eq_ok {base : Int} {lpn off pa : Nat} {s t : State}
    (h : translateEntry base lpn off s = .ok pa t) :
    ∃ (e p : Nat) (marked : Word), (e : Int) = base + 2 * (lpn : Int) ∧ e + 1 ≤ 32767
      ∧ auxiliary (s.mem.read (e + 1)) = some (true, marked)
      ∧ (s.mem.read e).int? = some (p : Int) ∧ p ≤ 63 ∧ pa = p * 512 + off
      ∧ storeWord (e + 1) marked s = .ok () t := by
  unfold translateEntry at h
  simp only at h
  split at h
  · cases h
  rename_i he
  obtain ⟨e, hbase⟩ : ∃ e : Nat, (e : Int) = base + 2 * (lpn : Int) := ⟨(base + 2 * (lpn : Int)).toNat, by omega⟩
  rw [← hbase] at he h
  simp only [Int.toNat_natCast] at h
  split at h
  · cases h
  · cases h
  rename_i marked haux
  split at h
  · cases h
  rename_i ppn hppn
  split at h
  · cases h
  rename_i hp
  obtain ⟨u, t', hst, hok⟩ := bind_eq_ok.1 h
  simp only [Res.ok.injEq] at hok
  obtain ⟨rfl, rfl⟩ := hok
  obtain ⟨p, rfl⟩ : ∃ p : Nat, ppn = (p : Int) := ⟨ppn.toNat, by omega⟩
  exact ⟨e, p, marked, hbase, by omega, haux, hppn, by omega, by simp [pageWords], hst⟩

/-- The second half of a user-mode translation raises only the page fault, and changes nothing then. -/
theorem translateEntry_eq_raise {base : Int} {lpn off : Nat} {s t : State} {x : Exn}
    (h : translateEntry base lpn off s = .raise x t) :
    x = .pageFault lpn ∧ t = s ∧ ∃ (e : Nat) (marked : Word), (e : Int) = base + 2 * (lpn : Int) ∧ e + 1 ≤ 32767
      ∧ auxiliary (s.mem.read (e + 1)) = some (false, marked) := by
  unfold translateEntry at h
  simp only at h
  split at h
  · cases h
  rename_i he
  obtain ⟨e, hbase⟩ : ∃ e : Nat, (e : Int) = base + 2 * (lpn : Int) := ⟨(base + 2 * (lpn : Int)).toNat, by omega⟩
  rw [← hbase] at he h
  simp only [Int.toNat_natCast] at h
  split at h
  · cases h
  · rename_i marked haux
    simp only [Res.raise.injEq] at h
    exact ⟨h.1.symm, h.2.symm, e, marked, hbase, by omega, haux⟩
  split at h
  · cases h
  split at h
  · cases h
  rcases bind_eq_raise.1 h with h | ⟨_, _, _, h⟩
  · exact absurd h storeWord_ne_raise
  · cases h

/-- Everything a successful translation can be: the address itself in kernel mode; in user mode the page table's entry,
whose reference bit is set at once (R53, R55, R58). -/
theorem translateAddr_eq_ok {a : Int} {pa : Nat} {s t : State} (h : translateAddr a s = .ok pa t) :
    (s.mode = .kernel ∧ (pa : Int) = a ∧ a ≤ 32767 ∧ t = s)
      ∨ (s.mode = .user ∧ 0 ≤ a ∧ ∃ (len base : Int) (e p : Nat) (marked : Word),
          s.ptlr.int? = some len ∧ s.ptbr.int? = some base ∧ ((a.toNat / 512 : Nat) : Int) < len
          ∧ (e : Int) = base + 2 * ((a.toNat / 512 : Nat) : Int) ∧ e + 1 ≤ 32767
          ∧ auxiliary (s.mem.read (e + 1)) = some (true, marked)
          ∧ (s.mem.read e).int? = some (p : Int) ∧ p ≤ 63 ∧ pa = p * 512 + a.toNat % 512
          ∧ storeWord (e + 1) marked s = .ok () t) := by
  unfold translateAddr at h
  split at h
  · rename_i hm
    split at h
    · simp only [Res.ok.injEq] at h
      obtain ⟨rfl, rfl⟩ := h
      exact .inl ⟨hm, by omega, by omega, rfl⟩
    · cases h
  · rename_i hm
    split at h
    · cases h
    split at h
    · rename_i len base hl hb
      split at h
      · rename_i hlt
        obtain ⟨e, p, marked, h1, h2, h3, h4, h5, h6, h7⟩ := translateEntry_eq_ok h
        exact .inr ⟨hm, by omega, len, base, e, p, marked, hl, hb, hlt, h1, h2, h3, h4, h5, h6, h7⟩
      · cases h
    · cases h

/-- A translation raises IllegalMemoryAccess, or a page fault in user mode, and changes nothing then. -/
theorem translateAddr_eq_raise {a : Int} {s t : State} {x : Exn} (h : translateAddr a s = .raise x t) :
    t = s ∧ (x = .illegalMemoryAccess ∨ (s.mode = .user ∧ 0 ≤ a ∧ x = .pageFault (a.toNat / 512))) := by
  unfold translateAddr at h
  split at h
  · split at h
    · cases h
    · simp only [Res.raise.injEq] at h
      exact ⟨h.2.symm, .inl h.1.symm⟩
  · rename_i hm
    split at h
    · simp only [Res.raise.injEq] at h
      exact ⟨h.2.symm, .inl h.1.symm⟩
    split at h
    · split at h
      · obtain ⟨hx, ht, _⟩ := translateEntry_eq_raise h
        exact ⟨ht, .inr ⟨hm, by omega, by simpa [pageWords] using hx⟩⟩
      · simp only [Res.raise.injEq] at h
        exact ⟨h.2.symm, .inl h.1.symm⟩
    · cases h

/-- A successful translation changes nothing but the memory. -/
theorem translateAddr_changes {a : Int} {pa : Nat} {s t : State} (h : translateAddr a s = .ok pa t) :
    t = { s with mem := t.mem } := by
  rcases translateAddr_eq_ok h with ⟨_, _, _, rfl⟩ | ⟨_, _, _, _, _, _, _, _, _, _, _, _, _, _, _, _, hs⟩
  · rfl
  · rcases storeWord_eq_ok hs with ⟨rfl, _⟩ | ⟨rfl, _⟩ <;> rfl

/-- A physical address is below the memory's size. -/
theorem translateAddr_lt {a : Int} {pa : Nat} {s t : State} (h : translateAddr a s = .ok pa t) : pa < memWords := by
  rcases translateAddr_eq_ok h with ⟨_, h1, h2, _⟩ | ⟨_, _, _, _, _, p, _, _, _, _, _, _, _, _, hp, rfl, _⟩
  · simp only [memWords]; omega
  · have := Nat.mod_lt a.toNat (by decide : 512 > 0)
    simp only [memWords]; omega

/-! ### memRead, memWrite, fetch -/

theorem memRead_eq_ok {a : Int} {w : Word} {s t : State} :
    memRead a s = .ok w t ↔ ∃ pa, translateAddr a s = .ok pa t ∧ w = t.mem.read pa := by
  unfold memRead
  rw [bind_eq_ok]
  constructor
  · rintro ⟨pa, t', h, hok⟩
    simp only [Res.ok.injEq] at hok
    obtain ⟨rfl, rfl⟩ := hok
    exact ⟨pa, h, rfl⟩
  · rintro ⟨pa, h, rfl⟩
    exact ⟨pa, t, h, rfl⟩

theorem memRead_eq_raise {a : Int} {s t : State} {e : Exn} :
    memRead a s = .raise e t ↔ translateAddr a s = .raise e t := by
  unfold memRead
  rw [bind_eq_raise]
  simp

theorem memWrite_eq_ok {a : Int} {w : Word} {s t : State} :
    memWrite a w s = .ok () t ↔ ∃ pa u, translateAddr a s = .ok pa u ∧ storeWord pa w u = .ok () t := by
  unfold memWrite
  rw [bind_eq_ok]

theorem memWrite_eq_raise {a : Int} {w : Word} {s t : State} {e : Exn} :
    memWrite a w s = .raise e t ↔ translateAddr a s = .raise e t := by
  unfold memWrite
  rw [bind_eq_raise]
  constructor
  · rintro (h | ⟨_, _, _, h⟩)
    · exact h
    · exact absurd h storeWord_ne_raise
  · exact .inl

/-- A memory read changes nothing but the memory (its reference bit). -/
theorem memRead_changes {a : Int} {w : Word} {s t : State} (h : memRead a s = .ok w t) : t = { s with mem := t.mem } := by
  obtain ⟨pa, h, _⟩ := memRead_eq_ok.1 h
  exact translateAddr_changes h

/-- A memory write changes nothing but the memory. -/
theorem memWrite_changes {a : Int} {w : Word} {s t : State} (h : memWrite a w s = .ok () t) :
    t = { s with mem := t.mem } := by
  obtain ⟨pa, u, hu, hs⟩ := memWrite_eq_ok.1 h
  have := translateAddr_changes hu
  rcases storeWord_eq_ok hs with ⟨rfl, _⟩ | ⟨rfl, _⟩
  · rw [this]
  · exact this

theorem memWriteInt_eq_ok {a n : Int} {s t : State} :
    memWriteInt a n s = .ok () t
      ↔ hasText s.cfg n = true
        ∧ ∃ pa u, translateAddr a s = .ok pa u ∧ storeWord pa (strWord n u).1 (strWord n u).2 = .ok () t := by
  unfold memWriteInt
  rcases needText_cases n s with ⟨h, hn⟩ | ⟨h, hn⟩ <;> simp [hn, h, bind_eq_ok]

theorem memWriteInt_eq_raise {a n : Int} {s t : State} {e : Exn} :
    memWriteInt a n s = .raise e t ↔ hasText s.cfg n = true ∧ translateAddr a s = .raise e t := by
  unfold memWriteInt
  rcases needText_cases n s with ⟨h, hn⟩ | ⟨h, hn⟩
  · simp only [hn, h, bind_ok, bind_eq_raise, true_and]
    constructor
    · rintro (h | ⟨_, _, _, h⟩)
      · exact h
      · exact absurd h storeWord_ne_raise
    · exact .inl
  · simp [hn, h]

/-- Storing an integer's text changes nothing but the memory and the draw counter. -/
theorem memWriteInt_changes {a n : Int} {s t : State} (h : memWriteInt a n s = .ok () t) :
    t = { s with mem := t.mem, draws := t.draws } := by
  obtain ⟨_, pa, u, hu, hs⟩ := memWriteInt_eq_ok.1 h
  have hc := translateAddr_changes hu
  rcases strWord_cases u n with ⟨_, hw⟩ | ⟨_, hw⟩ <;> rw [hw] at hs <;>
    rcases storeWord_eq_ok hs with ⟨rfl, _⟩ | ⟨rfl, _⟩ <;> rw [hc] <;> rfl

/-- A fetch changes nothing but the memory (its reference bits). -/
theorem fetch_changes {p : Word × Word} {s t : State} (h : fetch s = .ok p t) : t = { s with mem := t.mem } := by
  obtain ⟨w0, u, h0, h⟩ := bind_eq_ok.1 h
  obtain ⟨w1, v, h1, h⟩ := bind_eq_ok.1 h
  simp only [Res.ok.injEq] at h
  obtain ⟨_, rfl⟩ := h
  rw [memRead_changes h1, memRead_changes h0]

/-! ### The stack -/

/-- Everything a push of an integer's text can do: the text is stored at SP + 1, then SP is one more. -/
theorem pushInt_eq_ok {n : Int} {s t : State} (h : pushInt n s = .ok () t) :
    ∃ (top : Int) (u : State), (s.getReg .sp).int? = some top
      ∧ memWriteInt (top + 1) n s = .ok () u ∧ hasText u.cfg (top + 1) = true ∧ t = u.setInt .sp (top + 1) := by
  obtain ⟨top, s', h0, h1⟩ := bind_eq_ok.1 h
  obtain ⟨hi, hs⟩ := readInt_eq_ok.1 h0
  subst hs
  obtain ⟨_, u, hw, h2⟩ := bind_eq_ok.1 h1
  obtain ⟨ht, h2⟩ := writeInt_eq_ok.1 h2
  exact ⟨top, u, hi, hw, ht, h2⟩

/-- Everything a pop of IP can do: the integer at SP becomes IP, and SP is one less. -/
theorem popIp_eq_ok {s t : State} (h : popIp s = .ok () t) :
    ∃ (top n : Int) (w : Word) (u : State), (s.getReg .sp).int? = some top ∧ memRead top s = .ok w u
      ∧ w.int? = some n ∧ t = (u.setInt .sp (top - 1)).setIp n := by
  obtain ⟨top, s', h0, h1⟩ := bind_eq_ok.1 h
  obtain ⟨hi, hs⟩ := readInt_eq_ok.1 h0
  subst hs
  obtain ⟨w, u, hw, h2⟩ := bind_eq_ok.1 h1
  split at h2
  · cases h2
  · rename_i n hn
    obtain ⟨_, v, h2, h3⟩ := bind_eq_ok.1 h2
    obtain ⟨_, rfl⟩ := writeInt_eq_ok.1 h2
    obtain ⟨_, h3⟩ := goTo_eq_ok.1 h3
    exact ⟨top, n, w, u, hi, hw, hn, h3⟩

/-- Everything taking an interrupt can do: the return address is pushed, then the machine is in kernel mode at the
vector. -/
theorem takeInterrupt_eq_ok {n v : Int} {s t : State} (h : takeInterrupt n v s = .ok () t) :
    ∃ u, pushInt n s = .ok () u ∧ t = { u with mode := .kernel, ip := v } := by
  obtain ⟨_, u, hp, h⟩ := bind_eq_ok.1 h
  simp only [Res.ok.injEq, true_and] at h
  exact ⟨u, hp, h.symm⟩

/-- Reading input takes the next word listed, or draws one. -/
theorem readInput_eq_ok {w : Word} {s t : State} (h : readInput s = .ok w t) :
    (∃ rest, s.input = w :: rest ∧ t = { s with input := rest })
      ∨ (s.input = [] ∧ s.cfg.inputOpen = true ∧ w = Config.inputWord s.draws ∧ t = s.drawn) := by
  unfold readInput at h
  split at h
  · rename_i w' rest hin
    simp only [Res.ok.injEq] at h
    obtain ⟨rfl, rfl⟩ := h
    exact .inl ⟨rest, hin, rfl⟩
  · rename_i hin
    split at h
    · rename_i hopen
      simp only [Res.ok.injEq] at h
      exact .inr ⟨hin, hopen, h.1.symm, h.2.symm⟩
    · cases h

end Sys2Proof.Machine
end

