-- ==== Sys2Proof/Laws/Exec.lean ====
section
/-! SUPPORT. What a part of an instruction can do, composed: where it raises, it has set reference bits at most; where it
answers, a predicate that each operation's lemma provides. The whole of an ordinary instruction is `exec_ordinary`. -/

namespace Sys2Proof.Machine

/-! ### Reference bits and stores -/

/-- `b` is the second word of an entry of the page table. -/
def AuxWord (s : State) (b : Nat) : Prop := ∃ k e, EntryAt s k e ∧ b = e + 1

/-- `b` is in a physical page that a valid entry maps. -/
def MappedWord (s : State) (b : Nat) : Prop := ∃ k p, MapsPage s k p ∧ b / 512 = p

/-- `u` is `s` but for reference bits: the first characters of second words of entries (20_memory.md R58). -/
structure RefBits (s u : State) : Prop where
  rest : u = { s with mem := u.mem }
  kernel : s.mode = .kernel → u = s
  wf : Memory.wf memWords s.mem → Memory.wf memWords u.mem
  bit : ∀ b, u.mem.read b ≠ s.mem.read b →
    AuxWord s b ∧ ∃ c v rest, (s.mem.read b).chars = c :: v :: rest ∧ (u.mem.read b).chars = chrOne :: v :: rest
      ∧ (c = chrZero ∨ c = chrOne)

theorem RefBits.refl (s : State) : RefBits s s :=
  ⟨rfl, fun _ => rfl, id, fun _ h => absurd rfl h⟩

/-- The page table is where it was. -/
theorem entryAt_congr {s u : State} {k e : Nat} (h : u = { s with mem := u.mem }) : EntryAt u k e ↔ EntryAt s k e := by
  rw [h]; rfl

theorem RefBits.trans {s u v : State} (h1 : RefBits s u) (h2 : RefBits u v) : RefBits s v where
  rest := by rw [h2.rest, h1.rest]
  kernel hm := by
    have hu := h1.kernel hm
    subst hu
    exact h2.kernel hm
  wf h := h2.wf (h1.wf h)
  bit b hb := by
    by_cases hu : u.mem.read b = s.mem.read b
    · rw [← hu] at hb ⊢
      obtain ⟨⟨k, e, he, rfl⟩, hc⟩ := h2.bit b hb
      exact ⟨⟨k, e, (entryAt_congr h1.rest).1 he, rfl⟩, hc⟩
    · obtain ⟨ha, c, x, rest, h3, h4, hc⟩ := h1.bit b hu
      refine ⟨ha, c, x, rest, h3, ?_, hc⟩
      by_cases hv : v.mem.read b = u.mem.read b
      · rw [hv, h4]
      · obtain ⟨_, c', x', rest', h5, h6, _⟩ := h2.bit b hv
        rw [h4] at h5
        simp only [List.cons.injEq] at h5
        obtain ⟨_, rfl, rfl⟩ := h5
        exact h6

/-- A translation sets a reference bit at most. -/
theorem refBits_translateAddr {a : Int} {pa : Nat} {s t : State} (h : translateAddr a s = .ok pa t) : RefBits s t := by
  have hrest := translateAddr_changes h
  rcases translateAddr_eq_ok h with ⟨_, _, _, rfl⟩ | ⟨hm, _, len, base, e, p, marked, h2, h3, h4, h5, h6, h7, _, _, _, h11⟩
  · exact .refl _
  · refine ⟨hrest, fun hk => (by rw [hm] at hk; cases hk), ?_, ?_⟩
    · intro hwf
      rcases storeWord_eq_ok h11 with ⟨rfl, _⟩ | ⟨rfl, _⟩
      · exact wf_write _ hwf (by simp only [memWords]; omega)
      · exact hwf
    · intro b hb
      rcases storeWord_eq_ok h11 with ⟨rfl, _⟩ | ⟨rfl, _⟩
      · simp only [read_write] at hb ⊢
        by_cases hbe : b = e + 1
        · subst hbe
          rw [if_pos rfl]
          obtain ⟨c, v, rest, h8, h9, hc, _⟩ := auxiliary_eq_some h7
          exact ⟨⟨_, e, ⟨len, base, h2, h3, h4, h5, by omega⟩, rfl⟩, c, v, rest, h8, h9, hc⟩
        · rw [if_neg hbe] at hb
          exact absurd rfl hb
      · exact absurd rfl hb

/-- What `auxiliary` reads of a well-formed entry, in characters. -/
theorem auxiliary_of_entryBits {s : State} {e : Nat} {c v : Chr} {rest : Text} (h : EntryBits s e c v rest) :
    auxiliary (s.mem.read (e + 1)) = some (decide (v.code = 49), Word.clip (chrOne :: v :: rest)) :=
  auxiliary_of_bits h.1 h.2.1 h.2.2

/-- Whatever `auxiliary` reads is a well-formed entry. -/
theorem entryBits_of_auxiliary {s : State} {e : Nat} {valid : Bool} {marked : Word}
    (h : auxiliary (s.mem.read (e + 1)) = some (valid, marked)) :
    ∃ c v rest, EntryBits s e c v rest ∧ valid = decide (v.code = 49) ∧ marked = Word.clip (chrOne :: v :: rest) := by
  obtain ⟨c, v, rest, hw, _, hc, hv, _⟩ := auxiliary_eq_some h
  simp only [chr_bit_iff.1, chr_bit_iff.2] at hc hv
  have hb : EntryBits s e c v rest := ⟨hw, hc, hv⟩
  rw [auxiliary_of_entryBits hb] at h
  simp only [Option.some.injEq, Prod.mk.injEq] at h
  exact ⟨c, v, rest, hb, h.1.symm, h.2.symm⟩

/-- Setting reference bits maps no other pages: the first words of entries and the valid bits stay. -/
theorem RefBits.mapsPage {s u : State} {k p : Nat} (h : RefBits s u) (hu : MapsPage u k p) : MapsPage s k p := by
  obtain ⟨e, c, v, rest, he, hp, hle, hx, hv⟩ := hu
  have he' := (entryAt_congr h.rest).1 he
  have hp' : (s.mem.read e).int? = some (p : Int) := by
    by_cases hb : u.mem.read e = s.mem.read e
    · rwa [← hb]
    · exfalso
      obtain ⟨⟨k', e', ⟨_, _, h1, h2, _, h3, _⟩, heq⟩, _⟩ := h.bit e hb
      obtain ⟨_, _, h4, h5, _, h6, _⟩ := he'
      rw [h2] at h5
      cases h5
      omega
  by_cases hb : u.mem.read (e + 1) = s.mem.read (e + 1)
  · exact ⟨e, c, v, rest, he', hp', hle, by rwa [EntryBits, ← hb], hv⟩
  · obtain ⟨_, c', v', rest', h1, h2, hc⟩ := h.bit _ hb
    rw [hx.1] at h2
    simp only [List.cons.injEq] at h2
    obtain ⟨rfl, rfl, rfl⟩ := h2
    exact ⟨e, c', v, rest, he', hp', hle, ⟨h1, by simpa only [chr_bit_iff.1, chr_bit_iff.2] using hc, hx.2.2⟩, hv⟩

/-- `t` is `s` but for reference bits and one stored word, which lies in memory and, in user mode, in a mapped page; the
draw counter may move. -/
structure Stored (s t : State) : Prop where
  rest : t = { s with mem := t.mem, draws := t.draws }
  wf : Memory.wf memWords s.mem → Memory.wf memWords t.mem
  word : s.mode = .user → ∀ b, t.mem.read b ≠ s.mem.read b → AuxWord s b ∨ MappedWord s b

theorem RefBits.stored {s u : State} (h : RefBits s u) : Stored s u :=
  ⟨by rw [h.rest], h.wf, fun _ b hb => .inl (h.bit b hb).1⟩

/-- In user mode a physical address that a translation answers lies in a page that a valid entry maps. -/
theorem mapped_of_translateAddr {a : Int} {pa : Nat} {s t : State} (hm : s.mode = .user)
    (h : translateAddr a s = .ok pa t) : MappedWord s pa := by
  rcases translateAddr_eq_ok h with ⟨hk, _⟩ | ⟨_, _, len, base, e, p, marked, h2, h3, h4, h5, h6, h7, h8, h9, rfl, _⟩
  · rw [hm] at hk; cases hk
  · obtain ⟨c, v, rest, hb, hv, _⟩ := entryBits_of_auxiliary h7
    exact ⟨_, p, ⟨e, c, v, rest, ⟨len, base, h2, h3, h4, h5, by omega⟩, h8, h9, hb, by simpa using hv⟩, by omega⟩

/-- A store through a translation, in a state that differs from `s` by reference bits. -/
theorem stored_of {a : Int} {pa : Nat} {w : Word} {s u v t : State} {d : Nat} (h : RefBits s u)
    (ht : translateAddr a u = .ok pa v) (hs : storeWord pa w { v with draws := d } = .ok () t) : Stored s t := by
  have hv := h.trans (refBits_translateAddr ht)
  have hmap : s.mode = .user → MappedWord s pa := by
    intro hm
    have hum : u.mode = .user := by rw [h.rest]; exact hm
    obtain ⟨k, p, hp, hpa⟩ := mapped_of_translateAddr hum ht
    exact ⟨k, p, h.mapsPage hp, hpa⟩
  rcases storeWord_eq_ok hs with ⟨rfl, _⟩ | ⟨rfl, _⟩
  · refine ⟨by rw [hv.rest], fun hwf => wf_write _ (hv.wf hwf) (translateAddr_lt ht), ?_⟩
    intro hm b hb
    simp only [read_write] at hb
    split at hb
    · rename_i hbp
      exact .inr (hbp ▸ hmap hm)
    · exact .inl (hv.bit b hb).1
  · exact ⟨by rw [hv.rest], hv.wf, fun _ b hb => .inl (hv.bit b hb).1⟩

/-! ### How a part of an instruction ends -/

/-- A part of an instruction that began in `s`: a value and state that satisfy `P`, or an exception raised in a state that
differs from `s` by reference bits, which is a page fault in user mode only. -/
def Res.Ends {α : Type} (s : State) (P : α → State → Prop) : Res α → Prop
  | .ok a t => P a t
  | .raise e u => RefBits s u ∧ (s.mode = .kernel → ∀ lpn, e ≠ .pageFault lpn)
  | .refuse _ => True

theorem ends_bind {α β : Type} {s : State} {P : α → State → Prop} {Q : β → State → Prop} {x : Res α}
    {f : α → State → Res β} (hx : x.Ends s P) (hf : ∀ a t, P a t → (f a t).Ends s Q) : (x.bind f).Ends s Q := by
  cases x with
  | ok a t => exact hf a t hx
  | raise e u => exact hx
  | refuse r => trivial

/-- Reading a register's integer changes nothing. -/
theorem ends_readInt {β : Type} {s : State} {r : Reg} {Q : β → State → Prop} {f : Int → State → Res β}
    (hf : ∀ n, (f n s).Ends s Q) : ((readInt r s).bind f).Ends s Q := by
  unfold readInt
  split
  · exact hf _
  · exact ⟨.refl s, fun _ _ => by simp⟩

theorem ends_translateAddr {s u : State} (h : RefBits s u) (a : Int) :
    (translateAddr a u).Ends s fun pa t => translateAddr a u = .ok pa t := by
  cases ht : translateAddr a u with
  | ok pa t => exact rfl
  | refuse r => trivial
  | raise e v =>
    obtain ⟨rfl, he⟩ := translateAddr_eq_raise ht
    refine ⟨h, fun hk lpn hl => ?_⟩
    rcases he with rfl | ⟨hm, _, _⟩
    · cases hl
    · have := h.kernel hk
      subst this
      rw [hk] at hm; cases hm

theorem ends_memRead {s u : State} (h : RefBits s u) (a : Int) : (memRead a u).Ends s fun _ t => RefBits s t :=
  ends_bind (ends_translateAddr h a) fun _ _ ht => h.trans (refBits_translateAddr ht)

theorem ends_storeWord {s u : State} {pa : Nat} {w : Word} : (storeWord pa w u).Ends s fun _ t => storeWord pa w u = .ok () t := by
  cases h : storeWord pa w u with
  | ok x t => exact rfl
  | raise e v => exact absurd h storeWord_ne_raise
  | refuse r => trivial

theorem ends_memWrite {s u : State} (h : RefBits s u) (a : Int) (w : Word) : (memWrite a w u).Ends s fun _ t => Stored s t :=
  ends_bind (ends_translateAddr h a) fun pa v ht => by
    have := ends_storeWord (s := s) (u := v) (pa := pa) (w := w)
    cases hs : storeWord pa w v with
    | ok x t => exact stored_of (d := v.draws) h ht hs
    | raise e v => exact absurd hs storeWord_ne_raise
    | refuse r => trivial

/-- Taking a text raises nothing and changes nothing. -/
theorem ends_needText {β : Type} {s t : State} {n : Int} {Q : β → State → Prop} {f : Unit → State → Res β}
    (hf : (f () t).Ends s Q) : ((needText n t).bind f).Ends s Q := by
  rcases needText_cases n t with ⟨_, h⟩ | ⟨_, h⟩ <;> rw [h]
  · exact hf
  · trivial

theorem ends_writeInt {β : Type} {s t : State} {r : Reg} {n : Int} {Q : β → State → Prop} {f : Unit → State → Res β}
    (hf : (f () (t.setInt r n)).Ends s Q) : ((writeInt r n t).bind f).Ends s Q := by
  rcases needText_cases n t with ⟨_, h⟩ | ⟨_, h⟩ <;> rw [writeInt, h]
  · exact hf
  · trivial

theorem ends_memWriteInt {s u : State} (h : RefBits s u) (a n : Int) : (memWriteInt a n u).Ends s fun _ t => Stored s t :=
  ends_needText <| ends_bind (ends_translateAddr h a) fun pa v ht => by
    have hw : (strWord n v).2 = { v with draws := (strWord n v).2.draws } := by
      rcases strWord_cases v n with ⟨_, h⟩ | ⟨_, h⟩
      · rw [h]
      · rw [h]; rfl
    cases hs : storeWord pa (strWord n v).1 (strWord n v).2 with
    | ok x t => rw [hw] at hs; exact stored_of h ht hs
    | raise e v => exact absurd hs storeWord_ne_raise
    | refuse r => trivial

theorem ends_readInput (s : State) : (readInput s).Ends s fun _ t => t = { s with input := t.input, draws := t.draws } := by
  unfold readInput
  split
  · exact rfl
  · split
    · exact rfl
    · trivial

/-- A part of an instruction that ends the step ends in its value's state or in an exception's. -/
theorem next_of_ends {s t : State} {P : State → Prop} {x : Res Unit} (hx : x.Ends s fun _ => P) (h : x.outcome = .next t) :
    (∃ e u, t = takeException e u ∧ RefBits s u ∧ (s.mode = .kernel → ∀ lpn, e ≠ .pageFault lpn)) ∨ P t := by
  cases x with
  | ok a u =>
    have : u = t := by simpa [Res.outcome] using h
    exact .inr (this ▸ hx)
  | raise e u =>
    exact .inl ⟨e, u, (raiseException_eq_next.1 h).2, hx⟩
  | refuse r => cases h

/-! ### What an ordinary instruction changes -/

/-- What no instruction but INT, IRET, LOAD, STORE, HALT and END changes, and what user mode does not reach. -/
structure Kept (s t : State) : Prop where
  wf : Memory.wf memWords s.mem → Memory.wf memWords t.mem
  word : s.mode = .user → ∀ b, t.mem.read b ≠ s.mem.read b → AuxWord s b ∨ MappedWord s b
  disk : t.disk = s.disk
  mode : t.mode = s.mode
  status : t.status = s.status
  timerCount : t.timerCount = s.timerCount
  cfg : t.cfg = s.cfg
  efr : t.efr = s.efr
  hidden : s.mode = .user → t.kern = s.kern ∧ t.temp = s.temp ∧ t.ptbr = s.ptbr ∧ t.ptlr = s.ptlr

/-- What an ordinary instruction does: it keeps all that, and IP is an integer a word can hold. -/
def Effect (s t : State) : Prop := Kept s t ∧ wordIntMin ≤ t.ip ∧ t.ip ≤ wordIntMax

theorem Stored.kept {s t : State} (h : Stored s t) : Kept s t := by
  obtain ⟨h1, h2, h3⟩ := h
  refine ⟨h2, h3, ?_, ?_, ?_, ?_, ?_, ?_, fun _ => ⟨?_, ?_, ?_, ?_⟩⟩ <;> rw [h1]

theorem RefBits.kept {s u : State} (h : RefBits s u) : Kept s u := h.stored.kept

theorem Kept.setReg {s t : State} {r : Reg} (h : Kept s t) (hr : s.mode = .user → userRegister r = true) (w : Word) :
    Kept s (t.setReg r w) := by
  obtain ⟨h1, h2, h3, h4, h5, h6, h7, h8, h9⟩ := h
  refine ⟨by simpa using h1, by simpa using h2, by simpa, by simpa, by simpa, by simpa, by simpa, by simpa, ?_⟩
  intro hm
  have hu := hr hm
  obtain ⟨a, b, c, d⟩ := h9 hm
  cases r <;> first | exact ⟨a, b, c, d⟩ | (simp [userRegister] at hu)

theorem Kept.strWord {s t : State} (h : Kept s t) (n : Int) : Kept s (strWord n t).2 := by
  rcases strWord_cases t n with ⟨_, hw⟩ | ⟨_, hw⟩ <;> rw [hw]
  · exact h
  · obtain ⟨h1, h2, h3, h4, h5, h6, h7, h8, h9⟩ := h
    exact ⟨h1, h2, h3, h4, h5, h6, h7, h8, h9⟩

theorem Kept.setInt {s t : State} {r : Reg} (h : Kept s t) (hr : s.mode = .user → userRegister r = true) (n : Int) :
    Kept s (t.setInt r n) := (h.strWord n).setReg hr _

theorem Kept.setIp {s t : State} (h : Kept s t) (n : Int) : Effect s (t.setIp n) := by
  refine ⟨?_, setIp_bounds t n⟩
  obtain ⟨h1, h2, h3, h4, h5, h6, h7, h8, h9⟩ := h
  unfold State.setIp
  split <;> exact ⟨h1, h2, h3, h4, h5, h6, h7, h8, h9⟩

theorem Kept.advance {s t : State} (h : Kept s t) : Effect s t.advance := h.setIp _

theorem Kept.goTo {s t : State} (h : Kept s t) (n : Int) : (goTo n t).Ends s fun _ => Effect s :=
  ends_needText (h.setIp n)

theorem Kept.goOn {s t : State} (h : Kept s t) : (goOn t).Ends s fun _ => Effect s := h.goTo _

/-- A legal instruction names only registers that user mode may name, where it runs in user mode. -/
theorem userRegister_of_legal {s : State} {i : Instr} {a : Access} {r : Reg} (h : legalIn s.mode i = true)
    (hu : (a, r) ∈ regUses i) : s.mode = .user → userRegister r = true := fun hm => by
  rw [hm] at h
  simp only [legalIn, Bool.and_eq_true, List.all_eq_true] at h
  exact h.2 _ hu

section
variable {s : State} {i : Instr}

theorem ends_loadFrom {a : Int} {r : Reg} (hr : s.mode = .user → userRegister r = true) :
    (loadFrom a r s).Ends s fun _ => Effect s :=
  ends_bind (ends_memRead (.refl s) a) fun _ _ h => (h.kept.setReg hr _).goOn

theorem ends_storeTo {a : Int} {w : Word} : (storeTo a w s).Ends s fun _ => Effect s :=
  ends_bind (ends_memWrite (.refl s) a w) fun _ _ h => h.kept.goOn

/-- Computing an indexed address changes nothing. -/
theorem ends_addrIndexed {β : Type} {loc : Int} {r : Reg} {Q : β → State → Prop} {f : Int → State → Res β}
    (hf : ∀ n, (f n s).Ends s Q) : ((addrIndexed loc r s).bind f).Ends s Q := by
  unfold addrIndexed readInt
  split
  · exact hf _
  · exact ⟨.refl s, fun _ _ => by simp⟩

theorem ends_arith {f : Int → Int → Int} {ri rj : Reg} (hr : s.mode = .user → userRegister ri = true) :
    (arith f ri rj s).Ends s fun _ => Effect s :=
  ends_readInt fun _ => ends_readInt fun _ => ends_writeInt ((RefBits.refl s).kept.setInt hr _).goOn

theorem ends_divide {f : Int → Int → Int} {ri rj : Reg} (hr : s.mode = .user → userRegister ri = true) :
    (divide f ri rj s).Ends s fun _ => Effect s :=
  ends_readInt fun _ => ends_readInt fun _ => by
    split
    · exact ⟨.refl _, fun _ _ => by simp⟩
    · exact ends_writeInt ((RefBits.refl _).kept.setInt hr _).goOn

theorem ends_adjust {f : Int → Int} {ri : Reg} (hr : s.mode = .user → userRegister ri = true) :
    (adjust f ri s).Ends s fun _ => Effect s :=
  ends_readInt fun _ => ends_writeInt ((RefBits.refl s).kept.setInt hr _).goOn

theorem ends_branch {f : Int → Bool} {ri : Reg} {n : Nat} : (branch f ri n s).Ends s fun _ => Effect s :=
  ends_readInt fun _ => by
    split
    · exact (RefBits.refl _).kept.goTo _
    · exact (RefBits.refl _).kept.goOn

theorem ends_storePushed {u : State} {ri : Reg} {top : Int} (h : RefBits s u) :
    (storePushed ri top u).Ends s fun _ t => Stored s t := by
  unfold storePushed
  split
  · exact ends_memWriteInt h _ _
  · exact ends_memWrite h _ _

theorem ends_pushInt {n : Int} : (pushInt n s).Ends s fun _ => Kept s :=
  ends_readInt fun _ => ends_bind (ends_memWriteInt (.refl s) _ _) fun _ t h => by
    rcases needText_cases (_ : Int) t with ⟨_, hn⟩ | ⟨_, hn⟩ <;> rw [writeInt, hn]
    · exact h.kept.setInt (fun _ => rfl) _
    · trivial

theorem ends_popIp : (popIp s).Ends s fun _ => Effect s :=
  ends_readInt fun _ => ends_bind (ends_memRead (.refl s) _) fun _ _ h => by
    split
    · exact ⟨h, fun _ _ => by simp⟩
    · exact ends_writeInt ((h.kept.setInt (fun _ => rfl) _).goTo _)

end

/-- Everything an instruction that is legal in its mode and none of INT, IRET, LOAD, STORE, HALT and END can do. -/
theorem exec_ordinary {i : Instr} {s t : State} (hl : legalIn s.mode i = true) (h : exec i s = .next t)
    (h1 : ∀ n, i ≠ .int n) (h2 : privileged i = false) (h3 : i ≠ .fin) :
    (∃ e u, t = takeException e u ∧ RefBits s u ∧ (s.mode = .kernel → ∀ lpn, e ≠ .pageFault lpn)) ∨ Effect s t := by
  have key : ∀ body : Res Unit, exec i s = checked i s body → (body.Ends s fun _ => Effect s) →
      (∃ e u, t = takeException e u ∧ RefBits s u ∧ (s.mode = .kernel → ∀ lpn, e ≠ .pageFault lpn)) ∨ Effect s t := by
    intro body hb he
    rw [hb, checked_of_legal _ hl] at h
    exact next_of_ends he h
  have hw : ∀ r, (Access.write, r) ∈ regUses i → s.mode = .user → userRegister r = true :=
    fun r hr => userRegister_of_legal hl hr
  have kept := (RefBits.refl s).kept
  cases i with
  | movRR ri rj => exact key _ rfl (kept.setReg (hw ri (by simp [regUses])) _).goOn
  | movRI ri v => exact key _ rfl (ends_writeInt (kept.setInt (hw ri (by simp [regUses])) _).goOn)
  | movRS ri w => exact key _ rfl (kept.setReg (hw ri (by simp [regUses])) _).goOn
  | movRM ri rj => exact key _ rfl (ends_readInt fun _ =>
      ends_loadFrom (hw ri (by simp [regUses])))
  | movMR ri rj => exact key _ rfl (ends_readInt fun _ => ends_storeTo)
  | movLR loc rj => exact key _ rfl ends_storeTo
  | movRL rj loc => exact key _ rfl (ends_loadFrom (hw rj (by simp [regUses])))
  | movLXR loc rj ri => exact key _ rfl (ends_addrIndexed fun _ => ends_storeTo)
  | movLIR loc k rj => exact key _ rfl ends_storeTo
  | movRLX ri loc rj => exact key _ rfl (ends_addrIndexed fun _ =>
      ends_loadFrom (hw ri (by simp [regUses])))
  | movRLI ri loc k => exact key _ rfl (ends_loadFrom (hw ri (by simp [regUses])))
  | add ri rj | sub ri rj | mul ri rj => exact key _ rfl (ends_arith (hw ri (by simp [regUses])))
  | div ri rj | mod ri rj => exact key _ rfl (ends_divide (hw ri (by simp [regUses])))
  | inr ri | dcr ri => exact key _ rfl (ends_adjust (hw ri (by simp [regUses])))
  | lt ri rj | gt ri rj | eq ri rj | ne ri rj | ge ri rj | le ri rj =>
    exact key _ rfl (kept.setReg (hw ri (by simp [regUses])) _).goOn
  | jz ri n | jnz ri n => exact key _ rfl ends_branch
  | jmp n => exact key _ rfl (kept.goTo _)
  | push ri => exact key _ rfl (ends_readInt fun _ =>
      ends_bind (ends_storePushed (.refl s)) fun _ _ h => ends_writeInt (h.kept.setInt (fun _ => rfl) _).goOn)
  | pop ri => exact key _ rfl (ends_readInt fun _ =>
      ends_bind (ends_memRead (.refl s) _) fun _ _ h => by
        split
        · split
          · exact ⟨h, fun _ _ => by simp⟩
          · exact ends_writeInt (h.kept.setInt (fun _ => rfl) _).goOn
        · exact ends_writeInt ((h.kept.setReg (hw ri (by simp [regUses])) _).setInt (fun _ => rfl) _).goOn)
  | call n => exact key _ rfl (ends_bind ends_pushInt fun _ _ h => h.goTo _)
  | ret => exact key _ rfl ends_popIp
  | inp ri => exact key _ rfl (ends_bind (ends_readInput s) fun _ u h => by
      have hk : Kept s u := by
        rw [h]
        exact ⟨id, fun _ _ hb => absurd rfl hb, rfl, rfl, rfl, rfl, rfl, rfl, fun _ => ⟨rfl, rfl, rfl, rfl⟩⟩
      exact (hk.setReg (hw ri (by simp [regUses])) _).goOn)
  | out ri =>
    have hk : Kept s { s with out := s.out ++ [s.getReg ri] } :=
      ⟨id, fun _ _ hb => absurd rfl hb, rfl, rfl, rfl, rfl, rfl, rfl, fun _ => ⟨rfl, rfl, rfl, rfl⟩⟩
    exact key _ rfl hk.goOn
  | brkp =>
    have hk : Kept s (enterDebugger s) := by
      unfold enterDebugger
      split
      · exact ⟨id, fun _ _ hb => absurd rfl hb, rfl, rfl, rfl, rfl, rfl, rfl, fun _ => ⟨rfl, rfl, rfl, rfl⟩⟩
      · exact kept
    exact key _ rfl hk.goOn
  | fin => exact absurd rfl h3
  | int n => exact absurd rfl (h1 n)
  | iret | load _ _ | store _ _ | halt => cases h2

/-! ### The other instructions, and the step -/

/-- Everything that entering the kernel by a push of the return address can do. -/
theorem takeInterrupt_next {s t : State} {n v : Int} (h : (takeInterrupt n v s).outcome = .next t) :
    (∃ e u, t = takeException e u ∧ RefBits s u ∧ (s.mode = .kernel → ∀ lpn, e ≠ .pageFault lpn))
      ∨ ∃ u, Kept s u ∧ t = { u with mode := .kernel, ip := v } :=
  next_of_ends (P := fun t => ∃ u, Kept s u ∧ t = { u with mode := .kernel, ip := v })
    (ends_bind ends_pushInt fun _ u h => by exact ⟨u, h, rfl⟩) h

/-- Everything INT can do: an exception, or the entry at its routine. -/
theorem execInt_next {s t : State} {n : Nat} (h : exec (.int n) s = .next t) :
    (∃ e u, t = takeException e u ∧ RefBits s u ∧ (s.mode = .kernel → ∀ lpn, e ≠ .pageFault lpn))
      ∨ ∃ u, Kept s u ∧ t = { u with mode := .kernel, ip := interruptVector n } := by
  have hl : legalIn s.mode (.int n) = true := by cases s.mode <;> rfl
  simp only [exec, execInt, checked_of_legal _ hl] at h
  split at h
  · exact takeInterrupt_next h
  · split at h
    · cases h
    · exact .inl ⟨_, s, (raiseException_eq_next.1 h).2, .refl s, fun _ _ => by simp⟩
    · exact takeInterrupt_next h

/-- Everything IRET can do in kernel mode: the mode is user from the start, so an exception of its pop is user mode's. -/
theorem execIret_next {s t : State} (hm : s.mode = .kernel) (h : exec .iret s = .next t) :
    (∃ e u, t = takeException e u ∧ RefBits { s with mode := .user } u) ∨ Effect { s with mode := .user } t := by
  have hl : legalIn s.mode .iret = true := by rw [hm]; rfl
  simp only [exec, execIret, checked_of_legal _ hl] at h
  rcases next_of_ends (s := { s with mode := .user }) ends_popIp h with ⟨e, u, ht, hu, _⟩ | he
  · exact .inl ⟨e, u, ht, hu⟩
  · exact .inr he

/-- Reading and checking the arguments of LOAD and STORE changes nothing, and what passes is a page and a block. -/
theorem ends_arguments {s : State} {x y : Arg} {Q : State → Prop} {f : Int → Int → State → Res Unit}
    (page block : Int → Int → Int) (hf : ∀ p b : Nat, p ≤ 63 → b ≤ 511 → (f p b s).Ends s fun _ => Q) :
    ((argValue x s).bind fun m s => (argValue y s).bind fun n s =>
      (checkPageBlock (page m n) (block m n) s).bind fun _ s => f (page m n) (block m n) s).Ends s fun _ => Q := by
  have hr : ∀ (z : Arg), (∃ n, argValue z s = .ok n s) ∨ argValue z s = .raise .illegalOperands s := by
    intro z
    cases z with
    | lit v => exact .inl ⟨v, rfl⟩
    | reg r =>
      cases h : (s.getReg r).int? with
      | none => exact .inr (readInt_of_not_int h)
      | some n => exact .inl ⟨n, readInt_of_int h⟩
  have hraise : ∀ e, (∀ lpn, e ≠ .pageFault lpn) → (Res.raise (α := Unit) e s).Ends s fun _ => Q :=
    fun e he => ⟨.refl s, fun _ => he⟩
  rcases hr x with ⟨m, hm⟩ | hm
  · rcases hr y with ⟨n, hn⟩ | hn
    · simp only [hm, hn, bind_ok, checkPageBlock]
      split
      · exact hraise _ fun _ => by simp
      · rename_i hc
        obtain ⟨p, hp⟩ : ∃ p : Nat, page m n = p := ⟨(page m n).toNat, by omega⟩
        obtain ⟨b, hb⟩ : ∃ b : Nat, block m n = b := ⟨(block m n).toNat, by omega⟩
        simp only [bind_ok, hp, hb]
        exact hf p b (by omega) (by omega)
    · simp only [hm, hn, bind_ok, bind_raise]
      exact hraise _ fun _ => by simp
  · simp only [hm, bind_raise]
    exact hraise _ fun _ => by simp

/-- Everything LOAD can do in kernel mode: a page other than 0 is copied over, or page 0 as `ROM_WRITE` says. -/
theorem execLoad_next {s t : State} {x y : Arg} (hm : s.mode = .kernel) (h : exec (.load x y) s = .next t) :
    (∃ e u, t = takeException e u ∧ RefBits s u ∧ (s.mode = .kernel → ∀ lpn, e ≠ .pageFault lpn)) ∨ t = s.advance
      ∨ ∃ p b : Nat, p ≤ 63 ∧ b ≤ 511
          ∧ t = ({ s with mem := s.mem.copyWords (p * pageWords) s.disk (b * pageWords) pageWords } : State).advance := by
  have hl : legalIn s.mode (.load x y) = true := by
    rw [hm]; cases x <;> cases y <;> simp [legalIn, regUses, argUses, kernelUse]
  simp only [exec, execLoad, checked_of_legal _ hl] at h
  refine next_of_ends (P := fun t => t = s.advance ∨ ∃ p b : Nat, p ≤ 63 ∧ b ≤ 511
      ∧ t = ({ s with mem := s.mem.copyWords (p * pageWords) s.disk (b * pageWords) pageWords } : State).advance)
    (ends_arguments (f := fun p b s => (loadPage p.toNat b.toNat s).bind fun _ s => goOn s)
      (fun m _ => m) (fun _ n => n) ?_) h
  intro p b hp hb
  simp only [Int.toNat_natCast, loadPage]
  split
  · rename_i h0
    split
    · trivial
    · exact ends_needText (.inl rfl)
    · exact ends_needText (.inr ⟨0, b, by omega, hb, by simp only [Nat.zero_mul]; rfl⟩)
  · exact ends_needText (.inr ⟨p, b, hp, hb, rfl⟩)

/-- Everything STORE can do in kernel mode. -/
theorem execStore_next {s t : State} {x y : Arg} (hm : s.mode = .kernel) (h : exec (.store x y) s = .next t) :
    (∃ e u, t = takeException e u ∧ RefBits s u ∧ (s.mode = .kernel → ∀ lpn, e ≠ .pageFault lpn))
      ∨ ∃ p b : Nat, p ≤ 63 ∧ b ≤ 511 ∧ t = (storePage b p s).advance := by
  have hl : legalIn s.mode (.store x y) = true := by
    rw [hm]; cases x <;> cases y <;> simp [legalIn, regUses, argUses, kernelUse]
  simp only [exec, execStore, checked_of_legal _ hl] at h
  refine next_of_ends (P := fun t => ∃ p b : Nat, p ≤ 63 ∧ b ≤ 511 ∧ t = (storePage b p s).advance)
    (ends_arguments (f := fun p b s => goOn (storePage b.toNat p.toNat s)) (fun _ n => n) (fun m _ => m) ?_) h
  intro p b hp hb
  exact ends_needText ⟨p, b, hp, hb, rfl⟩

/-- A fetch raises a page fault in user mode only, and sets reference bits at most. -/
theorem ends_fetch (s : State) : (fetch s).Ends s fun _ t => RefBits s t :=
  ends_bind (ends_memRead (.refl s) _) fun _ _ h => ends_bind (ends_memRead h _) fun _ _ h => h

end Sys2Proof.Machine
end

