-- ==== Sys2Proof/Laws/PerInstr.lean ====
section
/-! SUPPORT. Per instruction: the row of the form table that an instruction's mnemonic and operand tokens match is its own
(30_encoding.md R86, R88), which is the half of the decoder's round trip that looks at the instruction. -/

namespace Sys2Proof.Laws.Assembles

/-- A well-formed instruction is the one its own row spells. -/
def Statement (i : Instr) : Prop :=
  i.wellFormed = true → assemble i.parts.1 i.parts.2 = some i

/-- The target of a jump is never negative, so it is read back as it was written. -/
theorem targetOf_natCast (n : Nat) : targetOf (n : Int) = some n := by
  simp [targetOf]

/-- An argument of LOAD or STORE is read back as it was written. -/
theorem arg_operand (a : Arg) : a.operand.arg = some a := by
  cases a <;> rfl

theorem movRR (ri rj : Reg) : Statement (.movRR ri rj) := fun _ => rfl
theorem movRI (ri : Reg) (imm : Int) : Statement (.movRI ri imm) := fun _ => rfl
theorem movRS (ri : Reg) (str : Word) : Statement (.movRS ri str) := fun _ => rfl
theorem movRM (ri rj : Reg) : Statement (.movRM ri rj) := fun _ => rfl
theorem movMR (ri rj : Reg) : Statement (.movMR ri rj) := fun _ => rfl
theorem movLR (loc : Int) (rj : Reg) : Statement (.movLR loc rj) := fun _ => rfl
theorem movRL (rj : Reg) (loc : Int) : Statement (.movRL rj loc) := fun _ => rfl
theorem movLXR (loc : Int) (rj ri : Reg) : Statement (.movLXR loc rj ri) := fun _ => rfl
theorem movLIR (loc index : Int) (rj : Reg) : Statement (.movLIR loc index rj) := fun _ => rfl
theorem movRLX (ri : Reg) (loc : Int) (rj : Reg) : Statement (.movRLX ri loc rj) := fun _ => rfl
theorem movRLI (ri : Reg) (loc index : Int) : Statement (.movRLI ri loc index) := fun _ => rfl
theorem add (ri rj : Reg) : Statement (.add ri rj) := fun _ => rfl
theorem sub (ri rj : Reg) : Statement (.sub ri rj) := fun _ => rfl
theorem mul (ri rj : Reg) : Statement (.mul ri rj) := fun _ => rfl
theorem div (ri rj : Reg) : Statement (.div ri rj) := fun _ => rfl
theorem mod (ri rj : Reg) : Statement (.mod ri rj) := fun _ => rfl
theorem inr (ri : Reg) : Statement (.inr ri) := fun _ => rfl
theorem dcr (ri : Reg) : Statement (.dcr ri) := fun _ => rfl
theorem lt (ri rj : Reg) : Statement (.lt ri rj) := fun _ => rfl
theorem gt (ri rj : Reg) : Statement (.gt ri rj) := fun _ => rfl
theorem eq (ri rj : Reg) : Statement (.eq ri rj) := fun _ => rfl
theorem ne (ri rj : Reg) : Statement (.ne ri rj) := fun _ => rfl
theorem ge (ri rj : Reg) : Statement (.ge ri rj) := fun _ => rfl
theorem le (ri rj : Reg) : Statement (.le ri rj) := fun _ => rfl
theorem jz (ri : Reg) (target : Nat) : Statement (.jz ri target) := fun _ => by
  simp [Instr.parts, assemble, formRT, targetOf_natCast]
theorem jnz (ri : Reg) (target : Nat) : Statement (.jnz ri target) := fun _ => by
  simp [Instr.parts, assemble, formRT, targetOf_natCast]
theorem jmp (target : Nat) : Statement (.jmp target) := fun _ => by
  simp [Instr.parts, assemble, formT, targetOf_natCast]
theorem push (ri : Reg) : Statement (.push ri) := fun _ => rfl
theorem pop (ri : Reg) : Statement (.pop ri) := fun _ => rfl
theorem call (target : Nat) : Statement (.call target) := fun _ => by
  simp [Instr.parts, assemble, formT, targetOf_natCast]
theorem ret : Statement .ret := fun _ => rfl
theorem inp (ri : Reg) : Statement (.inp ri) := fun _ => rfl
theorem out (ri : Reg) : Statement (.out ri) := fun _ => rfl
theorem brkp : Statement .brkp := fun _ => rfl
theorem fin : Statement .fin := fun _ => rfl
theorem int (n : Nat) : Statement (.int n) := fun h => by
  simp only [Instr.wellFormed, validInterrupt, decide_eq_true_eq] at h
  have h' : (1 : Int) ≤ n ∧ (n : Int) ≤ 7 := by omega
  simp [Instr.parts, assemble, formN, h']
theorem iret : Statement .iret := fun _ => rfl
theorem load (page block : Arg) : Statement (.load page block) := fun _ => by
  simp [Instr.parts, assemble, formXX, arg_operand]
theorem store (block page : Arg) : Statement (.store block page) := fun _ => by
  simp [Instr.parts, assemble, formXX, arg_operand]
theorem halt : Statement .halt := fun _ => rfl

end Sys2Proof.Laws.Assembles
end

