-- ==== Sys2Proof/Tests/Slice0.lean ====
section
/-! SUPPORT. Tests. Every expected result is the spec's: the vectors of 95_test_vectors.md by their numbers (V30-1 and so
on, E1 and so on), or its decoding and encoding rules; where the spec's vector rests on a parameter's default, the test
has the default configuration. Then one witness for every statement that has hypotheses. -/

namespace Sys2Proof.Tests

open Sys2Proof Sys2Proof.Machine

/-! ### Small states -/

/-- The outcome is a next state that satisfies `p`. -/
def nextSat (o : Outcome) (p : State → Bool) : Bool :=
  match o with
  | .next t => p t
  | .fault _ => false
  | .refused _ => false

/-- The outcome is a refusal for this reason. -/
def refusedFor (o : Outcome) (r : Refusal) : Bool :=
  match o with
  | .next _ => false
  | .fault _ => false
  | .refused q => decide (q = r)

/-- A register set to a text. -/
def put (r : Reg) (w : String) (s : State) : State := s.setReg r (Word.lit w)

/-- A word of memory set to a text. -/
def poke (a : Nat) (w : String) (s : State) : State := { s with mem := s.mem.write a (Word.lit w) }

/-- A machine in kernel mode with IP 2000 ("kernel, pc = 2000" of the vectors). -/
def kernel : State := { State.reset with ip := 2000 }

/-- The same with two texts in R0 and R1. -/
def kernel2 (a b : String) : State := put (.r 1) b (put (.r 0) a kernel)

/-- A machine in user mode at logical address 4 with the page table of the vectors: logical pages 0 and 1 are the physical
pages 25 and 26. -/
def user : State :=
  { put .ptbr "1024" (put .ptlr "2" (poke 1024 "25" (poke 1025 "01" (poke 1026 "26" (poke 1027 "01" State.reset)))))
    with ip := 4, mode := .user }

/-- That machine with an instruction's text at logical addresses 4 and 5. -/
def userRuns (text : String) : State :=
  { user with mem := ((user.mem.write 12804 (Word.clip (txt text))).write 12805 (Word.clip ((txt text).drop 15))) }

/-- The configuration of a state, changed. -/
def withCfg (f : Config → Config) (s : State) : State := { s with cfg := f s.cfg }

/-- A state under the defaults of 00_scope.md R5. -/
def byDefault (s : State) : State := withCfg (fun _ => standardConfig) s

/-- A state under the spec's treatment of an unspecified value (R12) and else as it is. -/
def strict (s : State) : State := withCfg (fun c => { c with unspecifiedValue := .refuse }) s

/-- The machine halted with an exception, IP staying at 2000. -/
def haltsWith (c : Cause) (o : Outcome) : Bool :=
  nextSat o fun t => decide (t.status = .halted (.exception c) ∧ t.ip = 2000 ∧ t.mode = .kernel)

/-- The machine is at the exception handler, its last EFR character being the cause. -/
def trapsWith (c : Cause) (o : Outcome) : Bool :=
  nextSat o fun t => decide (t.status = .running ∧ t.ip = 3584 ∧ t.mode = .kernel
    ∧ t.efr.chars.getLast? = some (Chr.ofDigit c.code))

/-! ### Well-formed instructions (30_encoding.md R83, R85) -/

/-- INT takes 1 to 7 (V30-23, V30-24). -/
theorem test_wellFormed_int_range :
    Instr.wellFormed (.int 0) = false ∧ Instr.wellFormed (.int 8) = false
      ∧ Instr.wellFormed (.int 1) = true ∧ Instr.wellFormed (.int 7) = true := by decide

/-- A string with a quote in it cannot be written. -/
theorem test_wellFormed_string_quote :
    Instr.wellFormed (.movRS (.r 0) ⟨[Chr.quote], by decide⟩) = false
      ∧ Instr.wellFormed (.movRS (.r 0) (Word.lit "a b,c")) = true := by decide

/-! ### Decoding: every constructor, from a word written out by its row of R86 -/

/-- What a text of at most 15 characters decodes to. -/
def reads (text : String) : Option Instr := decodeWords (Word.lit text) (Word.lit "")

theorem test_decode_mov_registers_and_literals :
    reads "MOV R0, R1" = some (.movRR (.r 0) (.r 1)) ∧ reads "MOV S15, T3" = some (.movRR (.s 15) (.t 3))
      ∧ reads "MOV R0, -5" = some (.movRI (.r 0) (-5))
      ∧ reads "MOV BP, \"a b\"" = some (.movRS .bp (Word.lit "a b")) := by decide

theorem test_decode_mov_memory :
    reads "MOV R0, [R1]" = some (.movRM (.r 0) (.r 1)) ∧ reads "MOV [R0], R1" = some (.movMR (.r 0) (.r 1))
      ∧ reads "MOV [13312], S0" = some (.movLR 13312 (.s 0)) ∧ reads "MOV R0, [-5]" = some (.movRL (.r 0) (-5))
      ∧ reads "MOV [24] S1, S0" = some (.movLXR 24 (.s 1) (.s 0)) ∧ reads "MOV [24] -5, S0" = some (.movLIR 24 (-5) (.s 0))
      ∧ reads "MOV S0, [24] S1" = some (.movRLX (.s 0) 24 (.s 1)) ∧ reads "MOV S0, [24] 5" = some (.movRLI (.s 0) 24 5) := by
  decide

theorem test_decode_arithmetic :
    reads "ADD R0, R1" = some (.add (.r 0) (.r 1)) ∧ reads "SUB R2, R3" = some (.sub (.r 2) (.r 3))
      ∧ reads "MUL R4, R5" = some (.mul (.r 4) (.r 5)) ∧ reads "DIV R6, R7" = some (.div (.r 6) (.r 7))
      ∧ reads "MOD S9, S10" = some (.mod (.s 9) (.s 10)) ∧ reads "INR SP" = some (.inr .sp)
      ∧ reads "DCR T0" = some (.dcr (.t 0)) := by decide

theorem test_decode_comparison :
    reads "LT R0, R1" = some (.lt (.r 0) (.r 1)) ∧ reads "GT R0, R1" = some (.gt (.r 0) (.r 1))
      ∧ reads "EQ R0, R1" = some (.eq (.r 0) (.r 1)) ∧ reads "NE R0, R1" = some (.ne (.r 0) (.r 1))
      ∧ reads "GE R0, R1" = some (.ge (.r 0) (.r 1)) ∧ reads "LE R0, R1" = some (.le (.r 0) (.r 1)) := by decide

theorem test_decode_branch_and_stack :
    reads "JZ R0 524" = some (.jz (.r 0) 524) ∧ reads "JNZ R0, 0" = some (.jnz (.r 0) 0) ∧ reads "JMP 512" = some (.jmp 512)
      ∧ reads "PUSH EFR" = some (.push .efr) ∧ reads "POP PTBR" = some (.pop .ptbr) ∧ reads "CALL 0" = some (.call 0)
      ∧ reads "RET" = some .ret := by decide

theorem test_decode_console_and_system :
    reads "IN R0" = some (.inp (.r 0)) ∧ reads "OUT IP" = some (.out .ip) ∧ reads "BRKP" = some .brkp
      ∧ reads "END" = some .fin ∧ reads "INT 07" = some (.int 7) ∧ reads "IRET" = some .iret
      ∧ reads "LOAD 1 0" = some (.load (.lit 1) (.lit 0)) ∧ reads "LOAD R1, R2" = some (.load (.reg (.r 1)) (.reg (.r 2)))
      ∧ reads "STORE R1, 31" = some (.store (.reg (.r 1)) (.lit 31)) ∧ reads "HALT" = some .halt := by decide

/-- Separators are free and the split between the words is (V30-2, V30-30 to V30-32). -/
theorem test_decode_separators_and_split :
    reads "MOV R0 R1" = reads "MOV R0, R1" ∧ reads "MOV  R0 ,R1" = reads "MOV R0, R1" ∧ reads "MOV\tR0,R1" = reads "MOV R0, R1"
      ∧ decodeWords (Word.lit "HA") (Word.lit "LT") = some .halt ∧ decodeWords (Word.lit "") (Word.lit "HALT") = some .halt
      ∧ decodeWords (Word.lit "MOV S0,") (Word.lit "5") = some (.movRI (.s 0) 5)
      ∧ decodeWords (Word.lit "MOV S0, 1") (Word.lit "5") = some (.movRI (.s 0) 15) := by decide

/-- Texts that are no instruction: names (V30-3, V30-4, V30-18, V30-22). -/
theorem test_decode_rejects_names :
    ∀ t ∈ ["mov R0, R1", "Mov R0, R1", "MOV R8, R1", "MOV S16, T3", "MOV T4, R0", "MOV R01, R1", "MOV MOV, R0", "R0 MOV R1",
      "NOP", "MOVE R0, R1", "", "   "], reads t = none := by decide

/-- Texts that are no instruction: tokens (V30-7, V30-11, V30-14, V30-17, E6). -/
theorem test_decode_rejects_tokens :
    ∀ t ∈ ["MOV R0, [ R1 ]", "MOV [24]S1, S0", "MOV R0, - 5", "MOV R0, +5", "MOV R0, 1.5", "MOV R0, 0x10", "MOV R0, 'a'",
      "MOV R0, 5R", "MOV R0, 5;", "MOV R0, \"abc", "HALT ;x", "MOV 4 R0"], reads t = none := by decide

/-- Texts that are no instruction: forms and ranges (V30-8, V30-9, V30-19 to V30-21, V30-24, V30-26, V30-29). -/
theorem test_decode_rejects_forms :
    ∀ t ∈ ["MOV [R0], 5", "MOV [100], \"a\"", "MOV [R0], [R1]", "MOV [R0] R1, R2", "MOV R0, [R1] R2", "MOV R0, 5 6",
      "HALT HALT", "RET 5", "PUSH", "JMP", "MOV R0", "ADD R0, 5", "LT R0, \"a\"", "JMP R0", "INT R1", "INT 0", "INT 8",
      "INT -1", "JZ R0, -1", "JMP -4", "CALL -2", "LOAD \"1\", 0"], reads t = none := by decide

/-- A string of 15 characters fits a literal, one of 16 does not (V30-17). -/
theorem test_decode_string_length :
    decodeWords (Word.lit "MOV R0, \"abcdef") (Word.lit "ghijklmno\"") = some (.movRS (.r 0) (Word.lit "abcdefghijklmno"))
      ∧ decodeWords (Word.lit "MOV R0, \"abcdef") (Word.lit "ghijklmnop\"") = none := by decide

/-- The canonical encodings of section 2 of the vectors. -/
theorem test_encode_vectors :
    encode (.load (.lit 1) (.lit 0)) = (Word.lit "LOAD 1, 0", Word.lit "")
      ∧ encode (.jz (.s 1) 524) = (Word.lit "JZ S1, 524", Word.lit "")
      ∧ encode (.movRLI (.s 0) 1024 5) = (Word.lit "MOV S0, [1024] ", Word.lit "5")
      ∧ encode (.movLXR 1024 (.s 1) (.s 0)) = (Word.lit "MOV [1024] S1, ", Word.lit "S0")
      ∧ encode (.movRS (.r 0) (Word.lit "hello world")) = (Word.lit "MOV R0, \"hello ", Word.lit "world\"")
      ∧ encode (.movLXR 32767 .ptbr .ptlr) = (Word.lit "MOV [32767] PTB", Word.lit "R, PTLR")
      ∧ encode (.movRS .ptbr (Word.lit "abcdefghijklmno")) = (Word.lit "MOV PTBR, \"abcd", Word.lit "efghijklmno\"") := by
  decide

/-- `HALT` is the codes 72, 65, 76, 84, the first in the lowest byte. -/
theorem test_decodeTableWord_halt :
    decodeTableWord 256 (72 + 65 * 256 + 76 * 65536 + 84 * 16777216) = some .halt := by decide

/-- The instruction placed for the next step is the one that runs. -/
theorem test_withFetchWord_runs_halt :
    nextSat (step (State.reset.withFetchWord 256 (72 + 65 * 256 + 76 * 65536 + 84 * 16777216)))
      (fun t => decide (t.status = .halted .halt ∧ t.ip = 0)) = true := by decide

/-! ### MOV -/

/-- V40-1, V40-7. -/
theorem test_mov_register :
    nextSat (exec (.movRR (.r 0) (.r 1)) (put (.r 1) "abc" kernel))
        (fun t => decide (t.getReg (.r 0) = Word.lit "abc" ∧ t.ip = 2002)) = true
      ∧ nextSat (exec (.movRR (.s 0) .ip) kernel) (fun t => decide (t.getReg (.s 0) = Word.lit "2000")) = true := by decide

/-- V40-2 to V40-5: an integer is written canonically, a string as it stands. -/
theorem test_mov_literal :
    ∀ v ∈ [("MOV R0, 007", "7"), ("MOV R0, -0", "0"), ("MOV R0, \"\"", ""), ("MOV R0, \"007\"", "007")],
      (match reads v.1 with
        | some i => nextSat (exec i kernel) fun t => decide (t.getReg (.r 0) = Word.lit v.2 ∧ t.ip = 2002)
        | none => false) = true := by decide

/-- V40-8, V40-10: IP is never written, S0 not in user mode. -/
theorem test_mov_illegal_registers :
    haltsWith .illegalInstruction (exec (.movRI .ip 4) kernel) = true
      ∧ trapsWith .illegalInstruction (step (userRuns "MOV IP 4")) = true
      ∧ trapsWith .illegalInstruction (step (userRuns "MOV S0, R1")) = true := by decide

/-- V40-11 to V40-13. -/
theorem test_mov_load_by_register :
    nextSat (exec (.movRM (.s 0) (.s 1)) (put (.s 1) "1024" (poke 1024 "9" kernel)))
        (fun t => decide (t.getReg (.s 0) = Word.lit "9")) = true
      ∧ haltsWith .illegalOperands (exec (.movRM (.s 0) (.s 1)) (put (.s 1) "abc" kernel)) = true
      ∧ haltsWith .illegalMemoryAccess (exec (.movRM (.s 0) (.s 1)) (put (.s 1) "32768" kernel)) = true := by decide

/-- V40-14 to V40-17. -/
theorem test_mov_stores :
    nextSat (exec (.movMR (.s 1) (.s 1)) (put (.s 1) "1500" kernel))
        (fun t => decide (t.mem.read 1500 = Word.lit "1500" ∧ t.ip = 2002)) = true
      ∧ nextSat (exec (.movLR 1024 (.s 0)) (put (.s 0) "25" kernel)) (fun t => decide (t.mem.read 1024 = Word.lit "25")) = true
      ∧ nextSat (exec (.movLXR 1024 (.s 1) (.s 0)) (put (.s 0) "z" (put (.s 1) "-3" kernel)))
        (fun t => decide (t.mem.read 1021 = Word.lit "z")) = true
      ∧ nextSat (exec (.movLIR 1024 5 (.s 0)) (put (.s 0) "q" kernel)) (fun t => decide (t.mem.read 1029 = Word.lit "q")) = true := by
  decide

/-- V40-18, V40-19. -/
theorem test_mov_indexed_loads :
    nextSat (exec (.movRLX (.s 2) 1024 (.s 1)) (put (.s 1) "3" (poke 1027 "z" kernel)))
        (fun t => decide (t.getReg (.s 2) = Word.lit "z")) = true
      ∧ nextSat (exec (.movRLI (.s 2) 1024 5) (poke 1029 "q" kernel)) (fun t => decide (t.getReg (.s 2) = Word.lit "q")) = true
      ∧ nextSat (exec (.movRL (.s 2) 1029) (poke 1029 "q" kernel)) (fun t => decide (t.getReg (.s 2) = Word.lit "q")) = true := by
  decide

/-- V40-20, and the other two values of `ROM_WRITE` (20_memory.md R62). -/
theorem test_mov_store_to_rom :
    refusedFor (exec (.movLR 100 (.s 0)) (byDefault (put (.s 0) "1" kernel))) .romWrite = true
      ∧ nextSat (exec (.movLR 100 (.s 0)) (withCfg (fun c => { c with romWrite := .ignore }) (put (.s 0) "1" kernel)))
        (fun t => decide (t.mem = kernel.mem ∧ t.ip = 2002)) = true
      ∧ nextSat (exec (.movLR 100 (.s 0)) (withCfg (fun c => { c with romWrite := .write }) (put (.s 0) "1" kernel)))
        (fun t => decide (t.mem.read 100 = Word.lit "1")) = true := by decide

/-- V40-21: both reference bits are set, and the step counts for the timer. -/
theorem test_user_load_sets_reference_bits :
    nextSat (step (put (.r 0) "600" (poke 13400 "v" (userRuns "MOV R1, [R0]"))))
      (fun t => decide (t.getReg (.r 1) = Word.lit "v" ∧ t.ip = 6 ∧ t.mem.read 1025 = Word.lit "11"
        ∧ t.mem.read 1027 = Word.lit "11" ∧ t.timerCount = 1)) = true := by decide

/-- V40-22, V40-24, V40-26. -/
theorem test_user_access_faults :
    trapsWith .illegalMemoryAccess (step (put (.r 0) "1024" (userRuns "MOV [R0], R1"))) = true
      ∧ nextSat (step (put (.r 0) "600" (poke 1027 "00" (userRuns "MOV R1, [R0]"))))
        (fun t => decide (t.efr = Word.lit "4010" ∧ t.ip = 3584 ∧ t.mode = .kernel ∧ t.getReg (.r 1) = Word.lit "0"
          ∧ t.timerCount = 1)) = true
      ∧ trapsWith .illegalInstruction (step (put (.r 0) "600" (poke 1027 "00" (userRuns "MOV S0, [R0]")))) = true := by decide

/-! ### Arithmetic and comparison: `OP R0, R1` in kernel mode at 2000 -/

/-- An instruction over R0 and R1 leaves this text in R0 and goes on. -/
def leaves (f : Reg → Reg → Instr) (v : String × String × String) : Bool :=
  nextSat (exec (f (.r 0) (.r 1)) (kernel2 v.1 v.2.1)) fun t => decide (t.getReg (.r 0) = Word.lit v.2.2 ∧ t.ip = 2002)

/-- V41-1, V41-2, V41-23. -/
theorem test_add :
    ∀ v ∈ [("40", "2", "42"), ("007", "1", "8"), ("999999999999998", "1", "999999999999999")], leaves .add v = true := by decide

/-- V41-19 to V41-22: words that are no integers. -/
theorem test_add_illegal_operands :
    ∀ w ∈ ["", "1.5", "+5", " 5", "-"], haltsWith .illegalOperands (exec (.add (.r 0) (.r 1)) (kernel2 w "1")) = true := by decide

/-- V41-3, and V41-29: `SUB R0, R0`. -/
theorem test_sub :
    leaves .sub ("3", "5", "-2") = true ∧ leaves (fun a _ => .sub a a) ("21", "", "0") = true := by decide

/-- V41-4 to V41-6, V41-26. -/
theorem test_mul :
    ∀ v ∈ [("-6", "7", "-42"), ("0", "-5", "0"), ("-0", "5", "0"), ("100000000", "1000000", "100000000000000")],
      leaves .mul v = true := by decide

/-- V41-7 to V41-10, V41-15. -/
theorem test_div_truncates :
    ∀ v ∈ [("7", "2", "3"), ("-7", "2", "-3"), ("7", "-2", "-3"), ("-7", "-2", "3"), ("0", "5", "0")],
      leaves .div v = true := by decide

/-- V41-16, V41-18: IllegalOperands comes before ArithmeticException. -/
theorem test_div_exceptions :
    haltsWith .arithmetic (exec (.div (.r 0) (.r 1)) (kernel2 "5" "0")) = true
      ∧ haltsWith .illegalOperands (exec (.div (.r 0) (.r 1)) (kernel2 "abc" "0")) = true := by decide

/-- V41-11 to V41-14. -/
theorem test_mod_sign_of_dividend :
    ∀ v ∈ [("7", "2", "1"), ("-7", "2", "-1"), ("7", "-2", "1"), ("-7", "-2", "-1")], leaves .mod v = true := by decide

/-- V41-17. -/
theorem test_mod_by_zero : haltsWith .arithmetic (exec (.mod (.r 0) (.r 1)) (kernel2 "5" "0")) = true := by decide

/-- V41-31, V41-35. -/
theorem test_inr :
    leaves (fun a _ => .inr a) ("-1", "", "0") = true
      ∧ haltsWith .illegalOperands (exec (.inr (.r 0)) (kernel2 "x" "")) = true := by decide

/-- V41-32. -/
theorem test_dcr : leaves (fun a _ => .dcr a) ("0", "", "-1") = true := by decide

/-- V41-24, V41-25, V41-27, V41-33, V41-34: a result without a text is refused by default. -/
theorem test_out_of_range_refused :
    (∀ v ∈ [(Instr.add (.r 0) (.r 1), "999999999999999", "1"), (.sub (.r 0) (.r 1), "-99999999999999", "1"),
        (.mul (.r 0) (.r 1), "100000000", "10000000"), (.inr (.r 0), "999999999999999", ""),
        (.dcr (.r 0), "-99999999999999", "")],
      refusedFor (exec v.1 (byDefault (kernel2 v.2.1 v.2.2))) .noText = true)
      ∧ nextSat (exec (.add (.r 0) (.r 1)) (byDefault (kernel2 "40" "2"))) (fun t => decide (t.getReg (.r 0) = Word.lit "42")) := by
  decide

/-- Where the configuration lets a free value stand for the result, the instruction goes on (notes/assumptions/10.md). -/
theorem test_out_of_range_free :
    nextSat (exec (.add (.r 0) (.r 1)) (kernel2 "999999999999999" "1"))
      (fun t => decide (t.ip = 2002 ∧ t.getReg (.r 1) = Word.lit "1" ∧ t.status = .running)) = true := by decide

/-- V42-1 to V42-8, V42-22. -/
theorem test_lt :
    ∀ v ∈ [("3", "5", "1"), ("9", "10", "1"), ("10", "9", "0"), ("9", "10a", "0"), ("-5", "3", "1"), ("", "a", "1"),
      ("ab", "abc", "1"), ("B", "a", "1"), ("q", "q", "0")], leaves .lt v = true := by decide

/-- V42-9, V42-10. -/
theorem test_gt : ∀ v ∈ [("3", "5", "0"), ("abd", "abc", "1")], leaves .gt v = true := by decide

/-- V42-11 to V42-15. -/
theorem test_eq :
    ∀ v ∈ [("abc", "abc", "1"), ("007", "7", "1"), ("-0", "0", "1"), ("a", "A", "0"), ("7", "7a", "0")],
      leaves .eq v = true := by decide

/-- V42-16, V42-17. -/
theorem test_ne : ∀ v ∈ [("abc", "abd", "1"), ("007", "7", "0")], leaves .ne v = true := by decide

/-- V42-18, V42-19. -/
theorem test_ge : ∀ v ∈ [("5", "5", "1"), ("4", "5", "0")], leaves .ge v = true := by decide

/-- V42-20, V42-21. -/
theorem test_le : ∀ v ∈ [("6", "5", "0"), ("", "", "1")], leaves .le v = true := by decide

/-! ### Branches and the stack -/

/-- V43-1 to V43-5. -/
theorem test_jz :
    ∀ v ∈ [("0", 524), ("3", 518), ("00", 524), ("-0", 524), ("-7", 518)],
      nextSat (exec (.jz (.r 0) 524) { put (.r 0) v.1 kernel with ip := 516 }) (fun t => decide (t.ip = v.2)) = true := by decide

/-- V43-7, V43-11. -/
theorem test_jz_jnz_illegal_operands :
    haltsWith .illegalOperands (exec (.jz (.r 0) 524) (put (.r 0) "abc" kernel)) = true
      ∧ haltsWith .illegalOperands (exec (.jnz (.r 0) 524) (put (.r 0) "x" kernel)) = true := by decide

/-- V43-8 to V43-10. -/
theorem test_jnz :
    ∀ v ∈ [("1", 524), ("0", 518), ("-1", 524)],
      nextSat (exec (.jnz (.r 0) 524) { put (.r 0) v.1 kernel with ip := 516 }) (fun t => decide (t.ip = v.2)) = true := by decide

/-- V43-14, V43-16: a target is not checked at the jump. -/
theorem test_jmp :
    ∀ n ∈ [513, 40000], nextSat (exec (.jmp n) kernel) (fun t => decide (t.ip = n ∧ t.status = .running)) = true := by decide

/-- V43-16, V43-17: the next fetch faults, on its first word or on its second. -/
theorem test_fetch_outside_memory_halts :
    nextSat (step { kernel with ip := 40000 })
        (fun t => decide (t.status = .halted (.exception .illegalMemoryAccess) ∧ t.ip = 40000)) = true
      ∧ nextSat (step { poke 32767 "HALT" kernel with ip := 32767 })
        (fun t => decide (t.status = .halted (.exception .illegalMemoryAccess) ∧ t.ip = 32767)) = true := by decide

/-- V43-18: EFR cannot hold an IP of six digits; by default there is no step. -/
theorem test_efr_overflow_refused :
    refusedFor (step (byDefault { kernel with ip := 100000 })) .efrOverflow = true
      ∧ nextSat (step (byDefault { kernel with ip := 99999 }))
        (fun t => decide (t.status = .halted (.exception .illegalMemoryAccess) ∧ t.ip = 99999)) = true := by decide

/-- The text `PUSH SP` stores is taken before the address is translated (00_scope.md R16, 44_stack_subroutine.md R160). -/
theorem test_push_sp_at_int_max :
    refusedFor (exec (.push .sp) (byDefault (put .sp "999999999999999" kernel))) .noText = true
      ∧ haltsWith .illegalMemoryAccess (exec (.push (.r 0)) (byDefault (put .sp "999999999999999" kernel))) = true := by decide

/-- V44-1, V44-5. -/
theorem test_push :
    nextSat (exec (.push (.s 0)) (put (.s 0) "7" (put .sp "1023" kernel)))
        (fun t => decide (t.mem.read 1024 = Word.lit "7" ∧ t.sp = Word.lit "1024" ∧ t.ip = 2002)) = true
      ∧ nextSat (exec (.push .sp) (put .sp "1023" kernel))
        (fun t => decide (t.mem.read 1024 = Word.lit "1024" ∧ t.sp = Word.lit "1024")) = true := by decide

/-- V44-8, V44-11, V44-12. -/
theorem test_push_exceptions :
    haltsWith .illegalInstruction (exec (.push .ip) (put .sp "1023" kernel)) = true
      ∧ haltsWith .illegalOperands (exec (.push (.s 0)) (put .sp "abc" kernel)) = true
      ∧ haltsWith .illegalMemoryAccess (exec (.push (.s 0)) (put .sp "32767" kernel)) = true := by decide

/-- V44-2, V44-15. -/
theorem test_pop :
    nextSat (exec (.pop (.s 1)) (put .sp "1024" (poke 1024 "49" kernel)))
        (fun t => decide (t.getReg (.s 1) = Word.lit "49" ∧ t.sp = Word.lit "1023" ∧ t.mem.read 1024 = Word.lit "49")) = true
      ∧ nextSat (exec (.pop (.s 1)) (put .sp "0" kernel))
        (fun t => decide (t.getReg (.s 1) = Word.lit "LOAD 1, 0" ∧ t.sp = Word.lit "-1")) = true := by decide

/-- V44-6, V44-7. -/
theorem test_pop_sp :
    nextSat (exec (.pop .sp) (put .sp "1024" (poke 1024 "3000" kernel))) (fun t => decide (t.sp = Word.lit "2999")) = true
      ∧ haltsWith .illegalOperands (exec (.pop .sp) (put .sp "1024" (poke 1024 "abc" kernel))) = true := by decide

/-- V44-3. -/
theorem test_call :
    nextSat (exec (.call 524) { put .sp "1024" kernel with ip := 518 })
      (fun t => decide (t.mem.read 1025 = Word.lit "520" ∧ t.sp = Word.lit "1025" ∧ t.ip = 524)) = true := by decide

/-- V44-18: CALL in user mode pushes through the page table. -/
theorem test_call_user :
    nextSat (step (put .sp "600" (userRuns "CALL 100")))
      (fun t => decide (t.mem.read 13401 = Word.lit "6" ∧ t.sp = Word.lit "601" ∧ t.ip = 100 ∧ t.mode = .user
        ∧ t.mem.read 1027 = Word.lit "11")) = true := by decide

/-- V44-13, V44-14. -/
theorem test_ret :
    nextSat (exec .ret (put .sp "1025" (poke 1025 "0520" kernel)))
        (fun t => decide (t.ip = 520 ∧ t.getReg .ip = Word.lit "520" ∧ t.sp = Word.lit "1024")) = true
      ∧ haltsWith .illegalOperands (exec .ret (put .sp "1025" (poke 1025 "xyz" kernel))) = true := by decide

/-! ### IN, OUT, BRKP, END -/

/-- V45-1. -/
theorem test_in :
    nextSat (exec (.inp (.r 0)) { kernel with input := [Word.lit "12", Word.lit "x"] })
      (fun t => decide (t.getReg (.r 0) = Word.lit "12" ∧ t.input = [Word.lit "x"] ∧ t.ip = 2002)) = true := by decide

/-- V45-6: no input word is consumed. -/
theorem test_in_illegal :
    nextSat (step { userRuns "IN S0" with input := [Word.lit "12"] })
      (fun t => decide (t.ip = 3584 ∧ t.input = [Word.lit "12"])) = true := by decide

/-- V45-3, V45-4. -/
theorem test_out :
    nextSat (exec (.out (.s 0)) { put (.s 0) "15" kernel with out := [Word.lit "a"] })
        (fun t => decide (t.out = [Word.lit "a", Word.lit "15"] ∧ t.ip = 2002)) = true
      ∧ nextSat (exec (.out .ip) kernel) (fun t => decide (t.out = [Word.lit "2000"])) = true := by decide

/-- V45-8. -/
theorem test_brkp :
    nextSat (step (userRuns "BRKP"))
      (fun t => decide (t.ip = 6 ∧ t.mode = .user ∧ t.timerCount = 1 ∧ t.debugCalls = 0)) = true := by decide

/-- V45-9: the three values of `END_SEMANTICS`. -/
theorem test_end :
    refusedFor (exec .fin (byDefault kernel)) .endExecuted = true
      ∧ nextSat (exec .fin (withCfg (fun c => { c with endSemantics := .nop }) kernel)) (fun t => decide (t.ip = 2002)) = true
      ∧ nextSat (exec .fin (withCfg (fun c => { c with endSemantics := .halt }) kernel))
        (fun t => decide (t.status = .halted .fin)) = true := by decide

/-! ### INT, IRET, LOAD, STORE, HALT -/

/-- V46-1, V46-2 at pc = 4: the address after the INT is pushed. -/
theorem test_int_user :
    ∀ v ∈ [("INT 7", (11776 : Int)), ("INT 1", 5632)],
      nextSat (step (put .sp "512" (userRuns v.1)))
        (fun t => decide (t.mem.read 13313 = Word.lit "6" ∧ t.sp = Word.lit "513" ∧ t.mode = .kernel ∧ t.ip = v.2
          ∧ t.mem.read 1027 = Word.lit "11" ∧ t.timerCount = 1)) = true := by decide

/-- V46-7, and the other two values of `INT_IN_KERNEL`. -/
theorem test_int_kernel :
    refusedFor (exec (.int 3) (byDefault (put .sp "1023" kernel))) .intInKernel = true
      ∧ haltsWith .illegalInstruction (exec (.int 3) (withCfg (fun c => { c with intInKernel := .exception1 }) kernel)) = true
      ∧ nextSat (exec (.int 3) (withCfg (fun c => { c with intInKernel := .execute }) (put .sp "1023" kernel)))
        (fun t => decide (t.mem.read 1024 = Word.lit "2002" ∧ t.ip = 7680 ∧ t.mode = .kernel)) = true := by decide

/-- A kernel machine at an IRET at 538, the vectors' page table in place. -/
def iretState (sp top : String) : State := { put .sp sp (poke 13312 top user) with mode := .kernel, ip := 538 }

/-- V47-1. -/
theorem test_iret :
    nextSat (exec .iret (iretState "512" "0"))
      (fun t => decide (t.mode = .user ∧ t.ip = 0 ∧ t.sp = Word.lit "511" ∧ t.mem.read 1027 = Word.lit "11"
        ∧ t.mem.read 1025 = Word.lit "01")) = true := by decide

/-- V47-2 to V47-5: a fault of the pop is a user-mode exception. -/
theorem test_iret_faults :
    trapsWith .illegalOperands (exec .iret (iretState "512" "abc")) = true
      ∧ nextSat (exec .iret (poke 1027 "00" (iretState "512" "0")))
        (fun t => decide (t.efr = Word.lit "538010" ∧ t.ip = 3584 ∧ t.status = .running ∧ t.sp = Word.lit "512")) = true
      ∧ trapsWith .illegalMemoryAccess (exec .iret (iretState "1024" "0")) = true
      ∧ trapsWith .illegalOperands (exec .iret (iretState "q" "0")) = true := by decide

/-- V47-6. -/
theorem test_privileged_in_user_mode :
    ∀ t ∈ ["IRET", "HALT", "LOAD 1, 0", "STORE 1, 0"], trapsWith .illegalInstruction (step (userRuns t)) = true := by decide

/-- V47-8: `LOAD 1, 0` copies the block's first and last word and drops what stood in the page. -/
theorem test_load :
    nextSat (step { poke 600 "old" State.reset with disk := [(0, Word.lit "a"), (511, Word.lit "b"), (512, Word.lit "c")] })
      (fun t => decide (t.mem.read 512 = Word.lit "a" ∧ t.mem.read 1023 = Word.lit "b" ∧ t.mem.read 1024 = Word.lit ""
        ∧ t.mem.read 600 = Word.lit "" ∧ t.ip = 2)) = true := by decide

/-- V47-12 to V47-14. -/
theorem test_load_store_arguments :
    (∀ i ∈ [Instr.load (.lit 64) (.lit 0), .load (.lit (-1)) (.lit 0), .load (.lit 1) (.lit 512), .store (.lit 512) (.lit 1),
        .store (.lit 0) (.lit 64)], haltsWith .illegalMemoryAccess (exec i kernel) = true)
      ∧ haltsWith .illegalOperands (exec (.load (.reg (.r 1)) (.lit 0)) (kernel2 "1" "x")) = true
      ∧ refusedFor (exec (.load (.lit 0) (.lit 5)) (byDefault kernel)) .romWrite = true := by
  decide

/-- V47-9: the 31st page goes to block 64. -/
theorem test_store :
    nextSat (exec (.store (.reg (.r 1)) (.lit 31)) (poke 16383 "b" (poke 15872 "a" (kernel2 "" "64"))))
      (fun t => decide (t.disk.read (64 * 512) = Word.lit "a" ∧ t.disk.read (64 * 512 + 511) = Word.lit "b"
        ∧ t.mem.read 15872 = Word.lit "a" ∧ t.ip = 2002)) = true := by decide

/-- V47-7: IP stays at the HALT, and there is no further step. -/
theorem test_halt :
    nextSat (exec .halt kernel)
      (fun t => decide (t.status = .halted .halt ∧ t.ip = 2000) &&
        match step t with | .fault .halted => true | .next _ => false | .refused _ => false) = true := by decide

/-! ### Reset -/

/-- The parameters of 00_scope.md R5 that have a default have it in the default reset state; a reset after a run keeps the disk,
and input goes on where it stood (notes/assumptions/26.md). -/
theorem test_defaults_and_restart :
    State.resetDefault.cfg.intMin = -99999999999999 ∧ State.resetDefault.cfg.intMax = 999999999999999
      ∧ State.resetDefault.cfg.divRounding = .truncate ∧ State.resetDefault.cfg.endSemantics = .refuse
      ∧ State.resetDefault.cfg.intInKernel = .refuse ∧ State.resetDefault.cfg.romWrite = .refuse
      ∧ State.resetDefault.cfg.unspecifiedValue = .refuse ∧ State.resetDefault.cfg.debugMode = false
      ∧ ({ user with disk := [(7, Word.lit "d")], input := [Word.lit "x"], draws := 3 } : State).restart
        = { State.reset with disk := [(7, Word.lit "d")], input := [Word.lit "x"], draws := 3 } := by decide

/-! ### Translation, EFR, the fetch, the timer -/

/-- The machine of the translation vectors: PTLR given, one entry at a place. -/
def paged (ptlr : String) (e : Nat) (first aux : String) : State :=
  { put .ptbr "1024" (put .ptlr ptlr (poke e first (poke (e + 1) aux State.reset))) with mode := .user }

/-- E1, V20-2, V20-3: 13532 is in page 26, and a page number must be below PTLR. -/
theorem test_translate_page_26 :
    translateAddr 13532 (paged "30" 1076 "48" "01") = .ok 24796 (paged "30" 1076 "48" "11")
      ∧ translateAddr 13532 (paged "27" 1076 "48" "01") = .ok 24796 (paged "27" 1076 "48" "11")
      ∧ translateAddr 13532 (paged "26" 1076 "48" "01") = .raise .illegalMemoryAccess (paged "26" 1076 "48" "01") := by decide

/-- V20-9, V20-11 to V20-15. -/
theorem test_translate_entry_forms :
    translateAddr (-1) (paged "30" 1024 "25" "01") = .raise .illegalMemoryAccess (paged "30" 1024 "25" "01")
      ∧ translateAddr 5 (paged "30" 1024 "25" "00") = .raise (.pageFault 0) (paged "30" 1024 "25" "00")
      ∧ translateAddr 5 (paged "30" 1024 "25" "10") = .raise (.pageFault 0) (paged "30" 1024 "25" "10")
      ∧ translateAddr 5 (paged "30" 1024 "25" "01x") = .ok 12805 (paged "30" 1024 "25" "11x")
      ∧ translateAddr 5 (paged "30" 1024 "063" "01") = .ok 32261 (paged "30" 1024 "063" "11") := by decide

/-- V20-16 to V20-19. -/
theorem test_translate_malformed_table :
    translateAddr 5 (paged "30" 1024 "25" "1") = .refuse .malformedAuxiliary
      ∧ translateAddr 5 (paged "30" 1024 "25" "02") = .refuse .malformedAuxiliary
      ∧ translateAddr 5 (paged "30" 1024 "64" "01") = .refuse .badPhysicalPage
      ∧ translateAddr 5 (paged "30" 1024 "ab" "01") = .refuse .badPhysicalPage
      ∧ translateAddr 5 (paged "" 1024 "25" "01") = .refuse .pageTableRegisters
      ∧ translateAddr 5 (put .ptbr "32767" (paged "30" 1024 "25" "01")) = .refuse .pageTableEntryOutside := by decide

/-- V20-22. -/
theorem test_translate_kernel :
    translateAddr 32767 kernel = .ok 32767 kernel ∧ translateAddr 32768 kernel = .raise .illegalMemoryAccess kernel
      ∧ translateAddr (-1) kernel = .raise .illegalMemoryAccess kernel := by decide

/-- V60-1 to V60-4, V60-6. -/
theorem test_efr_of_page_fault :
    efrWord 2 2 .pageFault = Word.lit "2020" ∧ efrWord 0 1 .pageFault = Word.lit "0010"
      ∧ efrWord 1030 13 .pageFault = Word.lit "1030130" ∧ efrWord 13532 26 .pageFault = Word.lit "13532260"
      ∧ efrWord 99999 99 .pageFault = Word.lit "99999990" := by decide

/-- A user machine at logical 511, its instruction astride the two pages. -/
def astride : State := { put (.r 0) "1" (poke 13311 "INR" (poke 13312 " R0" user)) with ip := 511 }

/-- V60-7, V60-8. -/
theorem test_fetch_across_pages :
    nextSat (step astride) (fun t => decide (t.getReg (.r 0) = Word.lit "2" ∧ t.ip = 513
        ∧ t.mem.read 1025 = Word.lit "11" ∧ t.mem.read 1027 = Word.lit "11")) = true
      ∧ nextSat (step (poke 1027 "00" astride)) (fun t => decide (t.efr = Word.lit "511010" ∧ t.ip = 3584
        ∧ t.mem.read 1025 = Word.lit "11")) = true := by decide

/-- A user machine whose timer is due, the interval being 2 (V61-3). -/
def timerState (sp : String) : State :=
  withCfg (fun c => { c with timerInterval := some 2 }) { put .sp sp (userRuns "MUL R0, R1") with timerCount := 2 }

/-- V61-3: the timer entry at pc = 4. -/
theorem test_timer_interrupt :
    nextSat (step (timerState "511"))
      (fun t => decide (t.mem.read 13312 = Word.lit "4" ∧ t.sp = Word.lit "512" ∧ t.mode = .kernel ∧ t.ip = 4608
        ∧ t.timerCount = 0)) = true := by decide

/-- V61-6: a fault of the timer's push. -/
theorem test_timer_push_fault :
    nextSat (step (timerState "x"))
      (fun t => decide (t.mode = .kernel ∧ t.ip = 3584 ∧ t.timerCount = 0 ∧ t.sp = Word.lit "x")) = true := by decide

/-! ### Witnesses: for each statement with hypotheses, states and operands that meet them -/

theorem witness_DecodeReadsBackEncode :
    Instr.encodable (.int 7) = true ∧ Instr.encodable (.movRS .ptbr (Word.lit "abcdefghijklmno")) = true
      ∧ Instr.encodable (.movRLI .ptbr 99999999 (-99999999)) = true
      ∧ (Instr.text (.movRLI .ptbr 99999999 (-99999999))).length = 30
      ∧ Instr.encodable (.movRLI .ptbr 99999999 (-999999999)) = false := by decide

theorem witness_DecodesExactlyItsFormTable :
    decodeWords (Word.lit "INT 1") (Word.lit "") = some (.int 1) ∧ decodeWords (Word.lit "INT 7") (Word.lit "") = some (.int 7)
      ∧ decodeWords (Word.lit "MOV R0, \"a\"") (Word.lit "") = some (.movRS (.r 0) (Word.lit "a")) := by decide

theorem witness_SeparatorsCarryNoMeaning :
    (∀ c ∈ txt "MOV R0 ,R1", c ≠ Chr.quote) ∧ (Chr.ofNat 32).isSeparator = true ∧ (Chr.ofNat 9).isSeparator = true
      ∧ (Chr.ofNat 44).isSeparator = true := by decide

theorem witness_IntegerTextIsCanonical :
    strDefined standardConfig wordIntMin = true ∧ strDefined standardConfig wordIntMax = true
      ∧ strDefined standardConfig 0 = true ∧ (Word.ofInt 0).chars = chrZero :: [] ∧ isDigits (txt "7") = true
      ∧ (Word.lit "-0").int? = some 0 ∧ (Word.lit "-").int? = none ∧ (Word.lit "1/").int? = none ∧ (Word.lit "1:").int? = none := by
  decide

/-- Where an instruction takes a text that is defined, or unspecified under either treatment. -/
theorem witness_Completes :
    hasText kernel.cfg (kernel.ip + 2) = true ∧ hasText (strict kernel).cfg ((strict kernel).ip + 2) = true
      ∧ hasText (strict kernel).cfg ((strict { kernel with ip := 999999999999998 }).ip + 2) = false
      ∧ hasText (strict kernel).cfg 1000000000000000 = false ∧ hasText kernel.cfg 1000000000000000 = true := by decide

theorem witness_MovCopiesRegisterOrLiteral :
    legalIn kernel.mode (.movRR .ptlr .ip) = true ∧ legalIn user.mode (.movRR .bp (.r 7)) = true
      ∧ legalIn kernel.mode (.movRI .sp wordIntMin) = true ∧ strDefined kernel.cfg wordIntMin = true
      ∧ strDefined kernel.cfg wordIntMax = true ∧ legalIn user.mode (.movRS .sp (Word.lit "x")) = true := by decide

/-- The four loads, at both ends of the physical and of the logical addresses. -/
theorem witness_MovLoadsWordAtAddress :
    legalIn kernel.mode (.movRM (.s 0) (.s 1)) = true ∧ ((put (.s 1) "32767" kernel).getReg (.s 1)).int? = some 32767
      ∧ translateAddr 32767 (put (.s 1) "32767" kernel) = .ok 32767 (put (.s 1) "32767" kernel)
      ∧ legalIn user.mode (.movRL (.r 0) 0) = true ∧ translateAddr 0 user = .ok 12800 (poke 1025 "11" user)
      ∧ legalIn user.mode (.movRLX (.r 0) 1000 (.r 1)) = true ∧ ((put (.r 1) "23" user).getReg (.r 1)).int? = some 23
      ∧ translateAddr (1000 + 23) (put (.r 1) "23" user) = .ok 13823 (poke 1027 "11" (put (.r 1) "23" user))
      ∧ legalIn kernel.mode (.movRLI (.s 0) 5 (-5)) = true ∧ translateAddr (5 + -5) kernel = .ok 0 kernel := by decide

/-- The four stores, at the first word that is not ROM and at the last word; and the last word of ROM. -/
theorem witness_MovStoresWordAtAddress :
    legalIn kernel.mode (.movMR (.s 0) .efr) = true ∧ ((put (.s 0) "512" kernel).getReg (.s 0)).int? = some 512
      ∧ translateAddr 512 (put (.s 0) "512" kernel) = .ok 512 (put (.s 0) "512" kernel)
      ∧ legalIn kernel.mode (.movLR 32767 (.s 0)) = true ∧ translateAddr 32767 kernel = .ok 32767 kernel
      ∧ legalIn user.mode (.movLXR 1000 (.r 1) (.r 0)) = true ∧ ((put (.r 1) "23" user).getReg (.r 1)).int? = some 23
      ∧ legalIn kernel.mode (.movLIR 500 11 (.s 0)) = true ∧ translateAddr (500 + 11) kernel = .ok 511 kernel
      ∧ kernel.cfg.romWrite = .ignore ∧ (withCfg (fun c => { c with romWrite := .refuse }) kernel).cfg.romWrite = .refuse := by
  decide

theorem witness_Writable : Writable kernel 512 ∧ Writable kernel 32767
    ∧ Writable (withCfg (fun c => { c with romWrite := .write }) kernel) 511 := by
  refine ⟨Or.inl ?_, Or.inl ?_, Or.inr ?_⟩ <;> decide

theorem witness_MovRaisesWhatItsAddressRaises :
    legalIn kernel.mode (.movRM (.s 0) (.s 1)) = true ∧ ((put (.s 1) "abc" kernel).getReg (.s 1)).int? = none
      ∧ legalIn user.mode (.movMR (.r 1) (.r 0)) = true ∧ ((put (.r 1) "1024" user).getReg (.r 1)).int? = some 1024
      ∧ translateAddr 1024 (put (.r 1) "1024" user) = .raise .illegalMemoryAccess (put (.r 1) "1024" user)
      ∧ legalIn user.mode (.movRLX (.r 0) 512 (.r 1)) = true
      ∧ translateAddr (512 + 0) (poke 1027 "00" user) = .raise (.pageFault 1) (poke 1027 "00" user)
      ∧ ((poke 1027 "00" user).getReg (.r 1)).int? = some 0
      ∧ translateAddr (-1) kernel = .raise .illegalMemoryAccess kernel
      ∧ translateAddr (32767 + 1) kernel = .raise .illegalMemoryAccess kernel := by decide

theorem witness_AddSubMulWriteExactResult :
    (Instr.sub (.r 0) (.r 1), fun a b : Int => a - b)
        ∈ [(Instr.add (.r 0) (.r 1), fun a b : Int => a + b), (.sub (.r 0) (.r 1), fun a b => a - b),
          (.mul (.r 0) (.r 1), fun a b => a * b)]
      ∧ legalIn kernel.mode (.sub (.r 0) (.r 1)) = true
      ∧ ((kernel2 "-99999999999998" "1").getReg (.r 0)).int? = some (-99999999999998)
      ∧ ((kernel2 "-99999999999998" "1").getReg (.r 1)).int? = some 1
      ∧ strDefined kernel.cfg (-99999999999998 - 1) = true ∧ strDefined kernel.cfg (-99999999999998 - 2) = false
      ∧ ((kernel2 "" "1").getReg (.r 0)).int? = none := by
  refine ⟨by simp, ?_⟩; decide

theorem witness_DivModWriteQuotientRemainder :
    (Instr.mod (.r 0) (.r 1), rem kernel.cfg.divRounding)
        ∈ [(Instr.div (.r 0) (.r 1), quot kernel.cfg.divRounding), (.mod (.r 0) (.r 1), rem kernel.cfg.divRounding)]
      ∧ legalIn kernel.mode (.mod (.r 0) (.r 1)) = true ∧ ((kernel2 "-7" "2").getReg (.r 0)).int? = some (-7)
      ∧ ((kernel2 "-7" "2").getReg (.r 1)).int? = some 2 ∧ strDefined kernel.cfg (rem kernel.cfg.divRounding (-7) 2) = true
      ∧ ((kernel2 "5" "0").getReg (.r 1)).int? = some 0 ∧ ((kernel2 "abc" "0").getReg (.r 0)).int? = none := by
  refine ⟨by simp, ?_⟩; decide

theorem witness_IncrementDecrementByOne :
    (Instr.dcr (.r 0), (-1 : Int)) ∈ [(Instr.inr (.r 0), (1 : Int)), (.dcr (.r 0), -1)]
      ∧ legalIn user.mode (.dcr (.r 0)) = true ∧ ((kernel2 "0" "").getReg (.r 0)).int? = some 0
      ∧ strDefined kernel.cfg (0 + -1) = true ∧ ((kernel2 "x" "").getReg (.r 0)).int? = none := by decide

/-- Due at the interval, not before it, not in kernel mode, not without an interval (V61-1, V61-3). -/
theorem test_timerDue :
    timerDue (timerState "511") = true ∧ timerDue { timerState "511" with timerCount := 1 } = false
      ∧ timerDue { timerState "511" with mode := .kernel } = false
      ∧ timerDue { user with timerCount := 100 } = false := by decide

theorem witness_QuotientRemainderLaws : (-2 : Int) ≠ 0 ∧ (0 : Int) ≤ 7 ∧ (0 : Int) < 2 := by decide

/-- The last dividend that stays in the range and the first that leaves it, for the divisors -1 and -9. -/
theorem witness_QuotientLeavesRangeOnlyDownward :
    strDefined standardConfig 99999999999999 = true ∧ strDefined standardConfig (-1) = true
      ∧ strDefined standardConfig (quot .truncate 99999999999999 (-1)) = true
      ∧ strDefined standardConfig (quot .truncate 100000000000000 (-1)) = false
      ∧ strDefined standardConfig 900000000000000 = true ∧ strDefined standardConfig (-9) = true
      ∧ strDefined standardConfig (quot .truncate 900000000000000 (-9)) = false
      ∧ strDefined standardConfig (quot .truncate 899999999999999 (-9)) = true := by decide

theorem witness_ResultOutOfRangeFollowsItsParameter :
    legalIn kernel.mode (.inr (.r 0)) = true ∧ ((kernel2 "999999999999999" "1").getReg (.r 0)).int? = some 999999999999999
      ∧ strDefined kernel.cfg (999999999999999 + 1) = false
      ∧ (Instr.inr (.r 0), (999999999999999 + 1 : Int))
        ∈ [(Instr.inr (.r 0), (999999999999999 + 1 : Int)), (.dcr (.r 0), 999999999999999 - 1)]
      ∧ legalIn kernel.mode (.add (.r 0) (.r 1)) = true ∧ ((kernel2 "999999999999999" "1").getReg (.r 1)).int? = some 1
      ∧ legalIn kernel.mode (.movRI (.r 0) 1000000000000000) = true ∧ strDefined kernel.cfg 1000000000000000 = false
      ∧ ((kernel2 "900000000000000" "-9").getReg (.r 0)).int? = some 900000000000000
      ∧ ((kernel2 "900000000000000" "-9").getReg (.r 1)).int? = some (-9)
      ∧ strDefined kernel.cfg (quot kernel.cfg.divRounding 900000000000000 (-9)) = false
      ∧ kernel.cfg.unspecifiedValue = .free ∧ (strict kernel).cfg.unspecifiedValue = .refuse := by decide

theorem witness_ComparisonsWriteTruth :
    (Instr.lt (.r 0) (.r 1), fun c : Ordering => c = .lt)
        ∈ [(Instr.lt (.r 0) (.r 1), fun c : Ordering => c = .lt), (.gt (.r 0) (.r 1), fun c => c = .gt),
          (.eq (.r 0) (.r 1), fun c => c = .eq), (.ne (.r 0) (.r 1), fun c => c ≠ .eq),
          (.ge (.r 0) (.r 1), fun c => c ≠ .lt), (.le (.r 0) (.r 1), fun c => c ≠ .gt)]
      ∧ legalIn user.mode (.lt (.r 0) (.r 1)) = true
      ∧ cmpWord ((kernel2 "9" "10").getReg (.r 0)) ((kernel2 "9" "10").getReg (.r 1)) = .lt
      ∧ ¬ cmpWord ((kernel2 "9" "10a").getReg (.r 0)) ((kernel2 "9" "10a").getReg (.r 1)) = .lt := by
  refine ⟨by simp, ?_⟩; decide

theorem witness_CmpIsNumericOrLexicographic :
    (Word.lit "007").int? = some 7 ∧ (Word.lit "7").int? = some 7 ∧ (Word.lit "7a").int? = none ∧ (Word.lit "").int? = none := by
  decide

theorem witness_CmpOrdersEachKindButNotAll :
    (Word.lit "9").isInt = true ∧ (Word.lit "10").isInt = true ∧ (Word.lit "11").isInt = true
      ∧ (Word.lit "").isInt = false ∧ (Word.lit "a").isInt = false ∧ (Word.lit "b").isInt = false
      ∧ cmpWord (Word.lit "9") (Word.lit "10") = .lt ∧ cmpWord (Word.lit "10") (Word.lit "11") = .lt
      ∧ cmpWord (Word.lit "") (Word.lit "a") = .lt ∧ cmpWord (Word.lit "a") (Word.lit "b") = .lt := by decide

theorem witness_ConditionalJumpsTestForZero :
    (Instr.jz (.r 0) 524, fun v : Int => v = 0)
        ∈ [(Instr.jz (.r 0) 524, fun v : Int => v = 0), (.jnz (.r 0) 524, fun v => v ≠ 0)]
      ∧ legalIn kernel.mode (.jz (.r 0) 524) = true ∧ ((kernel2 "-0" "").getReg (.r 0)).int? = some 0
      ∧ ((kernel2 "1" "").getReg (.r 0)).int? = some 1 ∧ ((kernel2 "" "").getReg (.r 0)).int? = none := by
  refine ⟨by simp, ?_⟩; decide

/-- PUSH, CALL and INT in user mode: SP + 1 is 512, physical word 13312. -/
theorem witness_PushStoresAboveTop :
    legalIn user.mode (.push .sp) = true ∧ legalIn user.mode (.push (.r 0)) = true
      ∧ ((put .sp "511" user).getReg .sp).int? = some 511 ∧ strDefined user.cfg (511 + 1) = true
      ∧ translateAddr (511 + 1) (put .sp "511" user) = .ok 13312 (poke 1027 "11" (put .sp "511" user)) ∧ 512 ≤ 13312 := by decide

theorem witness_PopLoadsTop :
    legalIn kernel.mode (.pop (.s 1)) = true ∧ legalIn kernel.mode (.pop .sp) = true
      ∧ ((put .sp "0" kernel).getReg .sp).int? = some 0 ∧ translateAddr 0 (put .sp "0" kernel) = .ok 0 (put .sp "0" kernel)
      ∧ strDefined kernel.cfg (0 - 1) = true ∧ ((put .sp "0" kernel).mem.read 0).int? = none
      ∧ translateAddr 1024 (poke 1024 "3000" kernel) = .ok 1024 (poke 1024 "3000" kernel)
      ∧ ((poke 1024 "3000" kernel).mem.read 1024).int? = some 3000 ∧ strDefined kernel.cfg (3000 - 1) = true := by decide

theorem witness_CallPushesReturnAddress :
    ((put .sp "511" kernel).getReg .sp).int? = some 511 ∧ strDefined kernel.cfg (511 + 1) = true
      ∧ strDefined kernel.cfg (kernel.ip + 2) = true
      ∧ translateAddr (511 + 1) (put .sp "511" kernel) = .ok 512 (put .sp "511" kernel) ∧ 512 ≤ 512 := by decide

theorem witness_RetPopsIp :
    ((put .sp "1025" kernel).getReg .sp).int? = some 1025 ∧ translateAddr 1025 (poke 1025 "0520" kernel) = .ok 1025 (poke 1025 "0520" kernel)
      ∧ ((poke 1025 "0520" kernel).mem.read 1025).int? = some 520 ∧ strDefined kernel.cfg (1025 - 1) = true
      ∧ ((poke 1025 "xyz" kernel).mem.read 1025).int? = none := by decide

theorem witness_StackInstructionsRaise :
    legalIn user.mode (.push (.r 0)) = true ∧ legalIn user.mode .ret = true ∧ ((put .sp "abc" user).getReg .sp).int? = none
      ∧ ((put .sp "1023" user).getReg .sp).int? = some 1023
      ∧ translateAddr (1023 + 1) (put .sp "1023" user) = .raise .illegalMemoryAccess (put .sp "1023" user)
      ∧ hasText user.cfg (1023 + 1) = true ∧ hasText user.cfg (user.ip + 2) = true
      ∧ ((put .sp "999999999999999" kernel).getReg .sp).int? = some 999999999999999
      ∧ hasText (strict kernel).cfg (999999999999999 + 1) = false ∧ legalIn kernel.mode (.push .sp) = true
      ∧ hasText (strict kernel).cfg ((strict { kernel with ip := 999999999999998 }).ip + 2) = false
      ∧ ((put .sp "-1" kernel).getReg .sp).int? = some (-1)
      ∧ translateAddr (-1) (put .sp "-1" kernel) = .raise .illegalMemoryAccess (put .sp "-1" kernel) := by decide

theorem witness_InTakesNextInputWord :
    legalIn user.mode (.inp (.r 0)) = true ∧ ({ user with input := [Word.lit "12"] } : State).input = Word.lit "12" :: []
      ∧ user.input = [] ∧ user.cfg.inputOpen = true
      ∧ (withCfg (fun c => { c with inputOpen := false }) user).cfg.inputOpen = false := by decide

theorem witness_OutAppendsWord : legalIn kernel.mode (.out .efr) = true ∧ legalIn user.mode (.out .bp) = true := by decide

theorem witness_EndFollowsItsParameter :
    kernel.cfg.endSemantics = .nop ∧ (withCfg (fun c => { c with endSemantics := .halt }) kernel).cfg.endSemantics = .halt
      ∧ (withCfg (fun c => { c with endSemantics := .refuse }) kernel).cfg.endSemantics = .refuse := by decide

theorem witness_IntEntersKernelAtItsVector :
    (put .sp "512" user).mode = .user ∧ ((put .sp "512" user).getReg .sp).int? = some 512
      ∧ strDefined user.cfg (512 + 1) = true ∧ strDefined user.cfg (user.ip + 2) = true
      ∧ translateAddr (512 + 1) (put .sp "512" user) = .ok 13313 (poke 1027 "11" (put .sp "512" user)) ∧ 512 ≤ 13313
      ∧ ((put .sp "x" user).getReg .sp).int? = none ∧ ((put .sp "1023" user).getReg .sp).int? = some 1023
      ∧ hasText user.cfg (user.ip + 2) = true
      ∧ hasText (strict user).cfg ((strict { user with ip := 999999999999998 }).ip + 2) = false
      ∧ translateAddr (1023 + 1) (put .sp "1023" user) = .raise .illegalMemoryAccess (put .sp "1023" user) := by decide

theorem witness_IntInKernelFollowsItsParameter :
    kernel.mode = .kernel ∧ kernel.cfg.intInKernel = .execute
      ∧ (withCfg (fun c => { c with intInKernel := .refuse }) kernel).cfg.intInKernel = .refuse
      ∧ (withCfg (fun c => { c with intInKernel := .exception1 }) kernel).cfg.intInKernel = .exception1
      ∧ ((put .sp "511" kernel).getReg .sp).int? = some 511 ∧ ((put .sp "32766" kernel).getReg .sp).int? = some 32766
      ∧ strDefined kernel.cfg (32766 + 1) = true ∧ strDefined kernel.cfg (kernel.ip + 2) = true
      ∧ ((put .sp "-1" kernel).getReg .sp).int? = some (-1)
      ∧ (withCfg (fun c => { c with romWrite := .write }) kernel).cfg.romWrite = .write
      ∧ ((put .sp "x" kernel).getReg .sp).int? = none ∧ ((put .sp "32767" kernel).getReg .sp).int? = some 32767
      ∧ ((put .sp "-2" kernel).getReg .sp).int? = some (-2)
      ∧ (strict kernel).cfg.intInKernel = .execute
      ∧ hasText (strict kernel).cfg ((strict { kernel with ip := 999999999999998 }).ip + 2) = false := by decide

theorem witness_IretEntersUserModeAndPopsIp :
    (iretState "512" "0").mode = .kernel ∧ ((iretState "512" "0").getReg .sp).int? = some 512
      ∧ translateAddr 512 { iretState "512" "0" with mode := .user }
        = .ok 13312 (poke 1027 "11" { iretState "512" "0" with mode := .user })
      ∧ ((poke 1027 "11" (iretState "512" "0")).mem.read 13312).int? = some 0 ∧ strDefined user.cfg (512 - 1) = true := by decide

theorem witness_IretFaultsAreUserModeExceptions :
    (iretState "q" "0").mode = .kernel ∧ ((iretState "q" "0").getReg .sp).int? = none
      ∧ ((iretState "1024" "0").getReg .sp).int? = some 1024
      ∧ translateAddr 1024 { iretState "1024" "0" with mode := .user }
        = .raise .illegalMemoryAccess { iretState "1024" "0" with mode := .user }
      ∧ ((poke 1027 "11" (iretState "512" "abc")).mem.read 13312).int? = none := by decide

theorem witness_LoadCopiesBlockToPage :
    kernel.mode = .kernel ∧ argInt kernel (.lit 63) = some ((63 : Nat) : Int) ∧ argInt kernel (.lit 511) = some ((511 : Nat) : Int)
      ∧ argInt (kernel2 "1" "0") (.reg (.r 0)) = some ((1 : Nat) : Int)
      ∧ argInt (kernel2 "1" "0") (.reg (.r 1)) = some ((0 : Nat) : Int) ∧ kernel.cfg.romWrite = .ignore := by decide

theorem witness_StoreCopiesPageToBlock :
    kernel.mode = .kernel ∧ argInt (kernel2 "1" "64") (.reg (.r 1)) = some ((64 : Nat) : Int)
      ∧ argInt kernel (.lit 31) = some ((31 : Nat) : Int) := by decide

theorem witness_LoadStoreArgumentsAreChecked :
    kernel.mode = .kernel ∧ argInt (kernel2 "x" "") (.reg (.r 0)) = none ∧ argInt kernel (.lit 64) = some 64
      ∧ argInt kernel (.lit (-1)) = some (-1) ∧ argInt kernel (.lit 512) = some 512 ∧ argInt kernel (.lit 0) = some 0 := by decide

theorem witness_HaltStopsTheMachine : kernel.mode = .kernel := by decide

/-- An instruction for each way of being illegal, and one that is legal. -/
theorem witness_IllegalUseRaisesIllegalInstruction :
    user.mode = .user ∧ (Access.read, Reg.s 0) ∈ regUses (.out (.s 0))
      ∧ Reg.s 0 ∉ (List.finRange 8).map Reg.r ++ [Reg.sp, .bp]
      ∧ (Access.write, Reg.ip) ∈ regUses (.movRI .ip 4) ∧ (Access.address, Reg.efr) ∈ regUses (.movRM (.r 0) .efr)
      ∧ legalIn kernel.mode (.push .efr) = true ∧ legalIn kernel.mode (.push .ip) = false := by decide

/-- Fields that fit at the ends of their ranges, and fields that do not. -/
theorem witness_ExceptionEntersHandlerOrHalts :
    user.mode = .user ∧ kernel.mode = .kernel ∧ kernel.cfg.unspecifiedValue = .free
      ∧ (strict kernel).cfg.unspecifiedValue = .refuse
      ∧ efrFits (.pageFault 99) { user with ip := 99999 } = true ∧ efrFits .arithmetic { user with ip := 0 } = true
      ∧ efrFits (.pageFault 100) user = false ∧ efrFits .arithmetic { user with ip := 100000 } = false
      ∧ efrFits .arithmetic { user with ip := -1 } = false := by decide

theorem witness_EfrHoldsIpPageAndCause :
    (0 : Int) ≤ kernel.ip ∧ kernel.ip ≤ 99999 ∧ ({ kernel with ip := 99999 } : State).ip ≤ 99999
      ∧ Exn.pageFault 99 ≠ .arithmetic := by decide

theorem witness_TimerInterruptsUserMode :
    (timerState "511").status = .running ∧ (timerState "511").mode = .user ∧ (timerState "511").cfg.timerInterval = some 2
      ∧ 2 ≤ (timerState "511").timerCount ∧ ((timerState "511").getReg .sp).int? = some 511
      ∧ strDefined (timerState "511").cfg (511 + 1) = true ∧ strDefined (timerState "511").cfg (timerState "511").ip = true
      ∧ translateAddr (511 + 1) (timerState "511") = .ok 13312 (poke 1027 "11" (timerState "511")) ∧ 512 ≤ 13312 := by decide

theorem witness_TimerPushFaultIsUserException :
    (timerState "x").status = .running ∧ (timerState "x").mode = .user ∧ ((timerState "x").getReg .sp).int? = none
      ∧ ((timerState "1023").getReg .sp).int? = some 1023
      ∧ hasText (timerState "1023").cfg (timerState "1023").ip = true
      ∧ translateAddr (1023 + 1) (timerState "1023") = .raise .illegalMemoryAccess (timerState "1023") := by decide

/-- A step in kernel mode, one in user mode, and one whose timer is due. -/
theorem witness_TimerCountsUserSteps :
    nextSat (step State.reset) (fun _ => true) = true ∧ nextSat (step (userRuns "BRKP")) (fun _ => true) = true
      ∧ timerDue (userRuns "BRKP") = false
      ∧ nextSat (step (timerState "511")) (fun _ => true) = true ∧ timerDue (timerState "511") = true := by decide

theorem witness_KernelAddressesArePhysical : kernel.mode = .kernel := by decide

/-- Entry 1 of the vectors' page table. -/
theorem witness_EntryAt : EntryAt user 1 1026 := ⟨2, 1024, by decide, by decide, by decide, by decide, by decide⟩

/-- The last entry that can lie in memory, at 32766 (V20-20). -/
theorem witness_EntryAt_last : EntryAt (put .ptbr "32766" user) 0 32766 :=
  ⟨2, 32766, by decide, by decide, by decide, by decide, by decide⟩

theorem witness_UserAddressesGoThroughPageTable :
    user.mode = .user ∧ 1023 / 512 = 1 ∧ EntryBits user 1026 (Chr.ofNat 48) (Chr.ofNat 49) [] ∧ (Chr.ofNat 49).code = 49
      ∧ (user.mem.read 1026).int? = some ((26 : Nat) : Int) := by
  refine ⟨by decide, by decide, ⟨by decide, Or.inl (by decide), Or.inr (by decide)⟩, by decide, by decide⟩

/-- Entries whose bits are no bits: too short, a character before `0` and one after `1`, in either place. -/
theorem witness_malformed_entries :
    ∀ aux ∈ ["1", "", "/1", "21", "0/", "02"], auxiliary ((poke 1027 aux user).mem.read (1026 + 1)) = none := by decide

theorem witness_UserAddressFaults :
    user.mode = .user ∧ (put .ptlr "" user).ptlr.int? = none ∧ user.ptlr.int? = some 2 ∧ user.ptbr.int? = some 1024
      ∧ (2 : Int) ≤ ((1024 / 512 : Nat) : Int) ∧ ((1023 / 512 : Nat) : Int) < 2
      ∧ (put .ptbr "32767" user).ptbr.int? = some 32767 ∧ 32767 < (32767 : Int) + 2 * ((0 / 512 : Nat) : Int) + 1
      ∧ ((poke 1027 "1" user).mem.read (1026 + 1)).chars = [Chr.ofNat 49]
      ∧ ((poke 1027 "10" user).mem.read (1026 + 1)).chars = [Chr.ofNat 49, Chr.ofNat 48] ∧ (Chr.ofNat 48).code = 48
      ∧ ((poke 1026 "64" user).mem.read 1026).int? = some 64 ∧ ((poke 1026 "ab" user).mem.read 1026).int? = none := by decide

theorem witness_TranslationSetsOnlyReferenceBit :
    translateAddr 512 user = .ok 13312 (poke 1027 "11" user) ∧ (poke 1027 "11" user).mem.read 1027 ≠ user.mem.read 1027 := by decide

/-- A user machine whose page table is in the ROM page, and whose logical page 0 is the ROM page. -/
def romTable : State := put .ptbr "4" (put .ptlr "1" (poke 4 "0" (poke 5 "01" user)))

theorem witness_RomPageFollowsItsParameter :
    legalIn kernel.mode (.push (.r 0)) = true ∧ ((put .sp "510" kernel).getReg .sp).int? = some 510
      ∧ translateAddr (510 + 1) (put .sp "510" kernel) = .ok 511 (put .sp "510" kernel)
      ∧ strDefined kernel.cfg (510 + 1) = true ∧ kernel.cfg.romWrite = .ignore
      ∧ romTable.mode = .user ∧ legalIn romTable.mode (.int 7) = true ∧ (romTable.getReg .sp).int? = some 0
      ∧ translateAddr (0 + 1) romTable = .ok 1 romTable ∧ strDefined romTable.cfg (romTable.ip + 2) = true
      ∧ (put .sp "510" kernel).cfg.intInKernel = .execute
      ∧ (romTable.mem.read (4 + 1)).chars = [Chr.ofNat 48, Chr.ofNat 49] ∧ (romTable.mem.read 4).int? = some ((0 : Nat) : Int) := by
  decide

/-- The timer due where SP + 1 is mapped into the ROM page. -/
def romTimer : State := { withCfg (fun c => { c with timerInterval := some 2 }) romTable with timerCount := 2 }

theorem witness_RomPageTimer :
    romTimer.status = .running ∧ romTimer.mode = .user ∧ romTimer.cfg.timerInterval = some 2 ∧ 2 ≤ romTimer.timerCount
      ∧ (romTimer.getReg .sp).int? = some 0 ∧ strDefined romTimer.cfg romTimer.ip = true
      ∧ translateAddr (0 + 1) romTimer = .ok 1 romTimer ∧ romTimer.cfg.romWrite = .ignore := by decide

theorem witness_RomPageEntry : EntryAt romTable 0 4 := ⟨1, 4, by decide, by decide, by decide, by decide, by decide⟩

theorem witness_CanonicalMemoryIsUnique : Memory.wf memWords romCode ∧ 32767 < memWords := by decide

theorem witness_StepRunsDecodedInstruction :
    (userRuns "INR R0").status = .running ∧ timerDue (userRuns "INR R0") = false
      ∧ fetch (userRuns "INR R0") = .ok (Word.lit "INR R0", Word.lit "") (poke 1025 "11" (userRuns "INR R0"))
      ∧ decodeWords (Word.lit "INR R0") (Word.lit "") = some (.inr (.r 0))
      ∧ fetch (userRuns "NOP") = .ok (Word.lit "NOP", Word.lit "") (poke 1025 "11" (userRuns "NOP"))
      ∧ decodeWords (Word.lit "NOP") (Word.lit "") = none
      ∧ fetch { kernel with ip := 32768 } = .raise .illegalMemoryAccess { kernel with ip := 32768 }
      ∧ fetch (poke 1025 "1" user) = .refuse .malformedAuxiliary := by
  refine ⟨?_, ?_, ?_, ?_, ?_, ?_, ?_, ?_⟩ <;> decide +kernel

theorem witness_FetchReadsTwoWords :
    ({ kernel with ip := 32766 } : State).mode = .kernel ∧ translateAddr 511 astride = .ok 13311 (poke 1025 "11" astride)
      ∧ translateAddr (511 + 1) (poke 1025 "11" astride) = .ok 13312 (poke 1025 "11" (poke 1027 "11" astride))
      ∧ translateAddr 511 (poke 1027 "00" astride) = .ok 13311 (poke 1025 "11" (poke 1027 "00" astride))
      ∧ translateAddr (511 + 1) (poke 1025 "11" (poke 1027 "00" astride))
        = .raise (.pageFault 1) (poke 1025 "11" (poke 1027 "00" astride))
      ∧ translateAddr 511 (poke 1025 "00" astride) = .raise (.pageFault 0) (poke 1025 "00" astride) := by decide

theorem witness_StepFaultsExactlyWhenHalted :
    ({ kernel with status := .halted .halt } : State).status ≠ .running ∧ kernel.status = .running := by decide

/-- The invariant's first part and a step, for the statements about every step. -/
theorem witness_EveryStepKeepsTheInvariant :
    Memory.wf memWords user.mem ∧ Memory.wf diskWords user.disk ∧ wordIntMin ≤ user.ip ∧ user.ip ≤ wordIntMax
      ∧ user.cfg.timerInterval = none ∧ user.status = .running ∧ nextSat (step (userRuns "PUSH R0")) (fun _ => true) = true := by
  decide

theorem witness_ResetMeetsTheInvariant : Memory.wf diskWords [(0, Word.lit "a"), (262143, Word.lit "b")] := by decide

theorem witness_BootLoadsBlockZero :
    State.reset.mode = .kernel ∧ State.reset.ip = 0 ∧ State.reset.status = .running ∧ State.reset.timerCount = 0
      ∧ State.reset.out = [] ∧ State.reset.mem.read 0 = Word.lit "LOAD 1, 0" ∧ State.reset.mem.read 1 = Word.lit ""
      ∧ State.reset.mem.read 2 = Word.lit "JMP 512" ∧ State.reset.mem.read 3 = Word.lit ""
      ∧ strDefined State.reset.cfg 2 = true ∧ strDefined State.reset.cfg 512 = true := by decide

/-- User steps: one that goes on, one that enters the handler. -/
theorem witness_UserStepKeepsKernelState :
    (userRuns "INR R0").mode = .user ∧ nextSat (step (userRuns "INR R0")) (fun t => decide (t.mode = .user)) = true
      ∧ nextSat (step (userRuns "HALT")) (fun t => decide (t.mode = .kernel ∧ t.ip = 3584)) = true := by decide

/-- A step through each gate: IRET, an exception, the timer, a software interrupt. -/
theorem witness_ModeChangesOnlyAtItsGates :
    nextSat (step (poke 538 "IRET" (iretState "512" "0"))) (fun t => decide (t.mode = .user)) = true
      ∧ nextSat (step (userRuns "HALT")) (fun t => decide (t.mode = .kernel ∧ t.ip = 3584)) = true
      ∧ nextSat (step (timerState "511")) (fun t => decide (t.mode = .kernel ∧ t.ip = 4608)) = true
      ∧ nextSat (step (put .sp "512" (userRuns "INT 7"))) (fun t => decide (t.mode = .kernel ∧ t.ip = 11776)) = true := by decide

theorem witness_UserStepWritesOnlyMappedPages :
    (put .sp "511" (userRuns "PUSH SP")).mode = .user
      ∧ nextSat (step (put .sp "511" (userRuns "PUSH SP")))
        (fun t => decide (t.mem.read 13312 ≠ user.mem.read 13312 ∧ t.mem.read 1025 ≠ user.mem.read 1025)) = true := by decide

theorem witness_UserExceptionsArePrecise :
    nextSat (step (put .sp "1023" (userRuns "PUSH R0")))
      (fun t => decide (t.mode = .kernel ∧ t.ip = 3584 ∧ t.mem.read 1025 ≠ user.mem.read 1025)) = true := by decide

end Sys2Proof.Tests
end

section
/-! PROOFS. Integers as text: which texts `int` reads, and that `str` writes no leading zero (00_scope.md R7). -/

namespace Sys2Proof.Machine

/-! ### Runs of digits -/

/-- A digit is a character of code 48 to 57. -/
theorem isDigit_iff {c : Chr} : c.isDigit = true ↔ 48 ≤ c.code ∧ c.code ≤ 57 := by
  simp [Chr.isDigit]

theorem isDigits_iff {t : Text} : isDigits t = true ↔ t ≠ [] ∧ ∀ c ∈ t, 48 ≤ c.code ∧ c.code ≤ 57 := by
  simp [isDigits, isDigit_iff]

/-- A run of digits does not begin with a minus sign. -/
theorem isDigits_head_ne_minus {c : Chr} {t : Text} (h : isDigits (c :: t) = true) : c ≠ Chr.minus := by
  rintro rfl
  simp [isDigits, minus_not_digit] at h

/-- A zero before a run of digits gives a run of digits. -/
theorem isDigits_zero_cons {t : Text} (h : isDigits t = true) : isDigits (chrZero :: t) = true := by
  obtain ⟨-, hall⟩ := isDigits_iff.1 h
  exact isDigits_iff.2 ⟨by simp, List.forall_mem_cons.2 ⟨by decide, hall⟩⟩

/-- A zero before a text of digits leaves its value. -/
theorem natOfDigits_zero_cons (t : Text) : natOfDigits (chrZero :: t) = natOfDigits t := by
  rw [natOfDigits_cons, show chrZero.digitValue = 0 by decide, Nat.zero_mul, Nat.zero_add]

/-! ### `int` -/

/-- `int` of a run of digits. -/
theorem parseInt_digits {t : Text} (h : isDigits t = true) : parseInt t = some (natOfDigits t : Int) := by
  cases t with
  | nil => cases h
  | cons c t => simp only [parseInt, if_neg (isDigits_head_ne_minus h), if_pos h]

/-- `int` of a run of digits after a minus sign. -/
theorem parseInt_minus_digits {t : Text} (h : isDigits t = true) :
    parseInt (Chr.minus :: t) = some (-(natOfDigits t : Int)) := by
  simp only [parseInt, if_true, if_pos h]

/-- The texts that are integers: a run of digits, or one after a minus sign. -/
theorem parseInt_eq_some_iff {t : Text} :
    (∃ n, parseInt t = some n) ↔ ∃ ds, isDigits ds = true ∧ (t = ds ∨ t = Chr.minus :: ds) := by
  constructor
  · rintro ⟨n, hn⟩
    cases t with
    | nil => cases hn
    | cons c rest =>
      simp only [parseInt] at hn
      split at hn
      case isTrue hc =>
        split at hn
        case isTrue hd => exact ⟨rest, hd, .inr (hc ▸ rfl)⟩
        case isFalse => cases hn
      case isFalse =>
        split at hn
        case isTrue hd => exact ⟨c :: rest, hd, .inl rfl⟩
        case isFalse => cases hn
  · rintro ⟨ds, hd, rfl | rfl⟩
    · exact ⟨_, parseInt_digits hd⟩
    · exact ⟨_, parseInt_minus_digits hd⟩

/-! ### `str` -/

/-- The digits of a positive number, put before any text, do not begin with a zero. -/
theorem digitsBefore_head_ne_zero {fuel n : Nat} {acc t : Text} (hn : 0 < n) (hf : n < 10 ^ fuel) :
    digitsBefore fuel n acc ≠ chrZero :: t := by
  induction fuel generalizing n acc with
  | zero => simp at hf; omega
  | succ fuel ih =>
    simp only [digitsBefore]
    split
    case isTrue hlt =>
      intro h
      have hcode : (Chr.ofDigit n).code = chrZero.code := by rw [(List.cons.inj h).1]
      rw [code_ofDigit, show chrZero.code = 48 by decide] at hcode
      omega
    case isFalse => exact ih (by omega) (by rw [pow_succ] at hf; omega)

/-- The text of a natural number begins with a zero only where it is `0` (R7). -/
theorem natText_zero_head {n : Nat} {t : Text} (h : natText n = chrZero :: t) : n = 0 ∧ t = [] := by
  rcases Nat.eq_zero_or_pos n with rfl | hn
  · exact ⟨rfl, (List.cons.inj h).2.symm⟩
  · exact absurd h (digitsBefore_head_ne_zero hn (lt_pow_log2 n))

/-- The text of a natural number does not begin with a minus sign. -/
theorem natText_ne_minus {n : Nat} {t : Text} : natText n ≠ Chr.minus :: t := fun h => by
  simpa [minus_not_digit] using natText_head h

/-- The text of an integer begins with a minus sign exactly on the negative ones. -/
theorem intText_minus_iff {n : Int} : (∃ t, intText n = Chr.minus :: t) ↔ n < 0 := by
  cases n with
  | ofNat n => exact ⟨fun ⟨_, h⟩ => absurd h natText_ne_minus, fun h => absurd h (Int.natCast_nonneg n).not_gt⟩
  | negSucc n => simp [intText, Int.negSucc_lt_zero]

/-- The text of an integer begins with a zero only where it is `0`. -/
theorem intText_zero_head {n : Int} {t : Text} (h : intText n = chrZero :: t) : n = 0 ∧ t = [] := by
  cases n with
  | ofNat n =>
    obtain ⟨rfl, ht⟩ := natText_zero_head h
    exact ⟨rfl, ht⟩
  | negSucc n => exact absurd (List.cons.inj h).1 (by decide)

/-- No zero follows a minus sign. -/
theorem intText_ne_minus_zero {n : Int} {t : Text} : intText n ≠ Chr.minus :: chrZero :: t := by
  cases n with
  | ofNat n => exact natText_ne_minus
  | negSucc n => exact fun h => Nat.succ_ne_zero n (natText_zero_head (List.cons.inj h).2).1

/-- Settles O5: the texts `int` reads by `parseInt_eq_some_iff`, the heads of `str` by the lemmas on `intText`, and a further
zero by `natOfDigits_zero_cons`. -/
theorem integerTextIsCanonical : Obligations.IntegerTextIsCanonical := by
  refine ⟨fun w => ?_, fun cfg n hdef => ?_, fun t ht => ⟨?_, ?_⟩⟩
  · simp only [Word.int?, parseInt_eq_some_iff, isDigits_iff, and_assoc]
    rfl
  · have hchars := chars_ofInt (strDefined_iff.1 hdef).2.2
    simp only [hchars]
    exact ⟨int?_ofInt_of_defined hdef, intText_minus_iff, fun _ => intText_zero_head, fun _ => intText_ne_minus_zero⟩
  · rw [parseInt_digits (isDigits_zero_cons ht), parseInt_digits ht, natOfDigits_zero_cons]
  · rw [parseInt_minus_digits (isDigits_zero_cons ht), parseInt_minus_digits ht, natOfDigits_zero_cons]

end Sys2Proof.Machine
end

section
/-! PROOFS. The comparison `cmp`: numeric on two integers, the lexicographic order of texts otherwise (00_scope.md R14). -/

namespace Sys2Proof.Machine

/-! ### The order of texts -/

/-- The lexicographic order as R14 words it: the first difference is a smaller character code, or the second text goes
on where the first ends. `cmpText_eq_lt_iff` ties it to `cmpText`. -/
def TextLess (a b : Text) : Prop :=
  (∃ (p x y : Text) (c d : Chr), a = p ++ c :: x ∧ b = p ++ d :: y ∧ c.code < d.code)
    ∨ ∃ (c : Chr) (y : Text), b = a ++ c :: y

/-- The empty text is less than every other. -/
theorem textLess_nil_cons (c : Chr) (t : Text) : TextLess [] (c :: t) := .inr ⟨c, t, rfl⟩

/-- No text is less than the empty one. -/
theorem not_textLess_nil (t : Text) : ¬ TextLess t [] := by
  rintro (⟨p, x, y, c, d, -, h, -⟩ | ⟨c, y, h⟩) <;> simp at h

/-- Two texts that are not empty are ordered by their first characters, or where these are equal by what follows. -/
theorem textLess_cons_cons {a b : Chr} {s t : Text} :
    TextLess (a :: s) (b :: t) ↔ a.code < b.code ∨ a = b ∧ TextLess s t := by
  constructor
  · rintro (⟨p, x, y, c, d, hs, ht, hlt⟩ | ⟨c, y, h⟩)
    · cases p with
      | nil =>
        obtain ⟨rfl, -⟩ := List.cons.inj hs
        obtain ⟨rfl, -⟩ := List.cons.inj ht
        exact .inl hlt
      | cons e p =>
        obtain ⟨rfl, hs'⟩ := List.cons.inj hs
        obtain ⟨rfl, ht'⟩ := List.cons.inj ht
        exact .inr ⟨rfl, .inl ⟨p, x, y, c, d, hs', ht', hlt⟩⟩
    · obtain ⟨rfl, h'⟩ := List.cons.inj h
      exact .inr ⟨rfl, .inr ⟨c, y, h'⟩⟩
  · rintro (hlt | ⟨rfl, ⟨p, x, y, c, d, rfl, rfl, hlt⟩ | ⟨c, y, rfl⟩⟩)
    · exact .inl ⟨[], s, t, a, b, rfl, rfl, hlt⟩
    · exact .inl ⟨a :: p, x, y, c, d, rfl, rfl, hlt⟩
    · exact .inr ⟨c, y, rfl⟩

/-- `cmpText` is less exactly where R14 says so. -/
theorem cmpText_eq_lt_iff (a b : Text) : cmpText a b = .lt ↔ TextLess a b := by
  fun_induction cmpText a b with
  | case1 => simpa using not_textLess_nil []
  | case2 b bs => simpa using textLess_nil_cons b bs
  | case3 a as => simpa using not_textLess_nil (a :: as)
  | case4 a as b bs hlt => simp [textLess_cons_cons, hlt]
  | case5 a as b bs hlt hgt =>
    have hne : a ≠ b := by rintro rfl; omega
    simp [textLess_cons_cons, hlt, hne]
  | case6 a as b bs hlt hgt ih =>
    have hab : a = b := Chr.ext_code (by omega)
    simp [textLess_cons_cons, hab, ih]

/-- `cmpText` is equal exactly on equal texts. -/
theorem cmpText_eq_eq_iff (a b : Text) : cmpText a b = .eq ↔ a = b := by
  fun_induction cmpText a b with
  | case1 => simp
  | case2 b bs => simp
  | case3 a as => simp
  | case4 a as b bs hlt =>
    have hne : a ≠ b := by rintro rfl; omega
    simp [hne]
  | case5 a as b bs hlt hgt =>
    have hne : a ≠ b := by rintro rfl; omega
    simp [hne]
  | case6 a as b bs hlt hgt ih =>
    have hab : a = b := Chr.ext_code (by omega)
    simp [hab, ih]

/-- Exchanging the texts exchanges less and greater. -/
theorem cmpText_swap (a b : Text) : cmpText b a = (cmpText a b).swap := by
  fun_induction cmpText a b with
  | case1 => rfl
  | case2 b bs => rfl
  | case3 a as => rfl
  | case4 a as b bs hlt => simp [cmpText, hlt, Nat.lt_asymm hlt]
  | case5 a as b bs hlt hgt => simp [cmpText, hgt]
  | case6 a as b bs hlt hgt ih => simp [cmpText, hlt, hgt, ih]

/-! ### The order of integers, and `cmp` -/

theorem cmpInt_eq_lt_iff (m n : Int) : cmpInt m n = .lt ↔ m < n := by
  unfold cmpInt
  split
  case isTrue h => simp [h]
  case isFalse h => split <;> simp [h]

theorem cmpInt_eq_gt_iff (m n : Int) : cmpInt m n = .gt ↔ n < m := by
  unfold cmpInt
  split
  case isTrue h => simp; omega
  case isFalse h => split <;> simp [*]

theorem cmpInt_eq_eq_iff (m n : Int) : cmpInt m n = .eq ↔ m = n := by
  unfold cmpInt
  split
  case isTrue h => simp; omega
  case isFalse h => split <;> simp <;> omega

/-- On two integers `cmp` is numeric. -/
theorem cmpWord_of_ints {a b : Word} {m n : Int} (ha : a.int? = some m) (hb : b.int? = some n) :
    cmpWord a b = cmpInt m n := by
  simp [cmpWord, ha, hb]

/-- Where either word is no integer `cmp` compares texts. -/
theorem cmpWord_of_not_int {a b : Word} (h : a.int? = none ∨ b.int? = none) : cmpWord a b = cmpText a.chars b.chars := by
  unfold cmpWord
  rcases h with h | h
  · rw [h]
  · rw [h]; cases a.int? <;> rfl

/-- Words with the same characters are equal. -/
theorem word_chars_inj {a b : Word} : a.chars = b.chars ↔ a = b := by
  cases a; cases b; simp

/-- Settles O17, by the order of integers and the order of texts that `cmp` falls back on. -/
theorem cmpIsNumericOrLexicographic : Obligations.CmpIsNumericOrLexicographic := by
  refine fun a b => ⟨fun m n ha hb => ?_, fun h => ?_⟩
  · rw [cmpWord_of_ints ha hb]
    exact ⟨cmpInt_eq_lt_iff m n, cmpInt_eq_eq_iff m n, cmpInt_eq_gt_iff m n⟩
  · rw [cmpWord_of_not_int h, cmpWord_of_not_int h.symm, cmpText_swap a.chars b.chars, Ordering.swap_eq_lt]
    exact ⟨(cmpText_eq_eq_iff _ _).trans word_chars_inj, cmpText_eq_lt_iff _ _, .rfl⟩

end Sys2Proof.Machine
end

section
/-! PROOFS. What register writes and going on leave unchanged, and how an instruction that ends by going on completes. -/

namespace Sys2Proof.Machine

/-! ### Frames -/

theorem Frame.refl (regs : List Reg) (words : List Nat) (s : State) : Frame regs words s s :=
  ⟨fun _ _ _ => rfl, fun _ _ => rfl, fun _ => rfl, ⟨rfl, rfl, rfl, rfl, rfl⟩, rfl, rfl⟩

section
variable {regs : List Reg} {words : List Nat} {s t : State} {r : Reg}

/-- A write to a listed register keeps the frame. -/
theorem Frame.setReg (h : Frame regs words s t) (hr : r ∈ regs) (w : Word) : Frame regs words s (t.setReg r w) := by
  obtain ⟨hregs, hmem, hdisk, hhidden, hconsole⟩ := h
  refine ⟨fun r' hip hr' => ?_, by simpa [MemKept] using hmem, by simpa [DiskKept] using hdisk,
    by simpa [HiddenKept] using hhidden, by simpa [ConsoleKept] using hconsole⟩
  have hne : r' ≠ r := fun he => hr' (he ▸ hr)
  rw [getReg_setReg_ne _ _ _ _ hne, hregs r' hip hr']

/-- Drawing a free value keeps the frame. -/
theorem Frame.drawn (h : Frame regs words s t) : Frame regs words s t.drawn := by
  obtain ⟨hregs, hmem, hdisk, hhidden, hconsole⟩ := h
  exact ⟨fun r hip hr => by rw [getReg_drawn, hregs r hip hr], hmem, hdisk, hhidden, hconsole⟩

/-- Writing an integer's text to a listed register keeps the frame, whether the text is defined or free. -/
theorem Frame.setInt (h : Frame regs words s t) (hr : r ∈ regs) (n : Int) : Frame regs words s (t.setInt r n) := by
  unfold State.setInt
  rcases strWord_cases t n with ⟨-, hw⟩ | ⟨-, hw⟩ <;> rw [hw]
  · exact h.setReg hr _
  · exact h.drawn.setReg hr _

/-- IP is outside every frame. -/
theorem Frame.setIp (h : Frame regs words s t) (n : Int) : Frame regs words s (t.setIp n) := by
  obtain ⟨hregs, hmem, hdisk, hhidden, hconsole⟩ := h
  refine ⟨fun r hip hr => ?_, by simpa [MemKept] using hmem, by simpa [DiskKept] using hdisk,
    by simpa [HiddenKept] using hhidden, by simpa [ConsoleKept] using hconsole⟩
  rw [getReg_setIp _ _ _ hip, hregs r hip hr]

theorem Frame.advance (h : Frame regs words s t) : Frame regs words s t.advance := h.setIp _

end

/-! ### Going on -/

section
variable {i : Instr} {s u : State}

/-- A legal instruction ends as its body does, and so as whatever its body is equal to. -/
theorem exec_of_legal {body result : Res Unit} (hl : legalIn s.mode i = true) (hi : exec i s = checked i s body)
    (hbody : body = result) : exec i s = result.outcome := by
  rw [hi, checked_of_legal _ hl, hbody]

/-- An instruction that has only to go to `n` completes there. -/
theorem completesAt_of_goTo {n : Int} {P : State → Prop} (hi : exec i s = (goTo n u).outcome) (hcfg : u.cfg = s.cfg)
    (hP : P (u.setIp n)) : CompletesAt n i s P := by
  rw [CompletesAt, ← hcfg]
  refine ⟨fun ht => ⟨u.setIp n, ?_, fun hdef => setIp_ip u n (hcfg ▸ hdef), hP⟩, fun ht => ?_⟩
  · rw [hi, goTo_eq_ok.2 ⟨ht, rfl⟩, outcome_ok]
  · rw [hi, goTo_of_not ht, outcome_refuse]

/-- An instruction that has only to go on completes in the advanced state. -/
theorem completes_of_goOn {P : State → Prop} (hi : exec i s = (goOn u).outcome) (hip : u.ip = s.ip) (hcfg : u.cfg = s.cfg)
    (hP : P u.advance) : Completes i s P := by
  rw [goOn, hip] at hi
  rw [State.advance, hip] at hP
  exact completesAt_of_goTo hi hcfg hP

end

end Sys2Proof.Machine
end

section
/-! PROOFS. Results and immediates without a text (00_scope.md R7, R12; 41_arithmetic.md R131 to R138). -/

namespace Sys2Proof.Machine

/-- How every instruction with an integer result ends: the result is written, then the machine goes on. The lemmas
`arith_of_ints`, `divide_of_ints` and `adjust_of_int` say that the arithmetic instructions do. -/
def writeResult (r : Reg) (n : Int) (s : State) : Res Unit := (writeInt r n s).bind fun _ u => goOn u

section
variable {s : State} {ri rj : Reg} {a b : Int}

theorem arith_of_ints (f : Int → Int → Int) (ha : (s.getReg ri).int? = some a) (hb : (s.getReg rj).int? = some b) :
    arith f ri rj s = writeResult ri (f a b) s := by
  rw [arith, readInt_of_int ha, bind_ok, readInt_of_int hb, bind_ok, writeResult]

theorem divide_of_ints (f : Int → Int → Int) (ha : (s.getReg ri).int? = some a) (hb : (s.getReg rj).int? = some b)
    (h0 : b ≠ 0) : divide f ri rj s = writeResult ri (f a b) s := by
  rw [divide, readInt_of_int ha, bind_ok, readInt_of_int hb, bind_ok, if_neg h0, writeResult]

theorem adjust_of_int (f : Int → Int) (ha : (s.getReg ri).int? = some a) : adjust f ri s = writeResult ri (f a) s := by
  rw [adjust, readInt_of_int ha, bind_ok, writeResult]

end

section
variable {s : State} {r : Reg} {n : Int}

/-- The machine goes on after a result that has a text, or a free value in its place. -/
theorem writeResult_of_hasText (h : hasText s.cfg n = true) : writeResult r n s = goOn (s.setInt r n) := by
  rw [writeResult, writeInt_of_hasText h, bind_ok]

/-- A result that has neither refuses the instruction. -/
theorem writeResult_of_not (h : hasText s.cfg n = false) : writeResult r n s = .refuse .noText := by
  rw [writeResult, writeInt, needText_of_not h, bind_refuse, bind_refuse]

/-- Under the treatment `free` every integer has a text, or a free value in its place. -/
theorem hasText_of_free {cfg : Config} (h : cfg.unspecifiedValue = .free) : hasText cfg n = true := by
  simp [hasText, h]

/-- Under the treatment `refuse` there is no step where the text is undefined. -/
theorem hasText_of_refuse {cfg : Config} (h : cfg.unspecifiedValue = .refuse) (hdef : strDefined cfg n = false) :
    hasText cfg n = false := by
  simp [hasText, h, hdef]

end

/-- Settles O15: each listed instruction ends in `writeResult`, which refuses or goes on by the parameter. -/
theorem resultOutOfRangeFollowsItsParameter : Obligations.ResultOutOfRangeFollowsItsParameter := by
  intro s ri rj i r hl hdef hi
  have hexec : exec i s = (writeResult ri r s).outcome := by
    rcases hi with rfl | ⟨a, ha, hi⟩ | ⟨a, b, ha, hb, hi⟩ | ⟨a, b, ha, hb, h0, hi⟩
    · exact exec_of_legal hl rfl rfl
    · simp only [List.mem_cons, List.not_mem_nil, or_false, Prod.mk.injEq] at hi
      rcases hi with ⟨rfl, rfl⟩ | ⟨rfl, rfl⟩ <;> exact exec_of_legal hl rfl (adjust_of_int _ ha)
    · simp only [List.mem_cons, List.not_mem_nil, or_false, Prod.mk.injEq] at hi
      rcases hi with ⟨rfl, rfl⟩ | ⟨rfl, rfl⟩ | ⟨rfl, rfl⟩ <;> exact exec_of_legal hl rfl (arith_of_ints _ ha hb)
    · simp only [List.mem_cons, List.not_mem_nil, or_false, Prod.mk.injEq] at hi
      rcases hi with ⟨rfl, rfl⟩ | ⟨rfl, rfl⟩ <;> exact exec_of_legal hl rfl (divide_of_ints _ ha hb h0)
  refine ⟨fun hrefuse => ?_, fun hfree => ?_⟩
  · rw [hexec, writeResult_of_not (hasText_of_refuse hrefuse hdef), outcome_refuse]
  · rw [writeResult_of_hasText (hasText_of_free hfree)] at hexec
    have hcompletes : Completes i s (Frame [ri] [] s) := completes_of_goOn hexec (setInt_ip ..) (setInt_cfg ..)
      ((Frame.refl _ _ s).setInt (List.mem_singleton_self ri) r).advance
    exact hcompletes.1 (hasText_of_free hfree)

end Sys2Proof.Machine
end

section
/-! PROOFS. IN and the console's input (45_io_debug_end.md R170). -/

namespace Sys2Proof.Machine

variable {s u : State} {ri : Reg} {w : Word}

theorem readInput_of_listed {rest : List Word} (h : s.input = w :: rest) :
    readInput s = .ok w { s with input := rest } := by
  simp [readInput, h]

theorem readInput_of_open (h : s.input = []) (hopen : s.cfg.inputOpen = true) :
    readInput s = .ok (Config.inputWord s.draws) s.drawn := by
  simp [readInput, h, hopen]

theorem readInput_of_closed (h : s.input = []) (hclosed : s.cfg.inputOpen = false) :
    readInput s = .refuse .awaitingInput := by
  simp [readInput, h, hclosed]

/-- With a word read, IN has only to write it and to go on. -/
theorem exec_inp_of_read (hl : legalIn s.mode (.inp ri) = true) (hread : readInput s = .ok w u) :
    exec (.inp ri) s = (goOn (u.setReg ri w)).outcome :=
  exec_of_legal hl rfl (by rw [hread, bind_ok])

/-- Without a word IN is refused as the read is. -/
theorem exec_inp_of_refuse {why : Refusal} (hl : legalIn s.mode (.inp ri) = true) (hread : readInput s = .refuse why) :
    exec (.inp ri) s = .refused why := by
  rw [exec_of_legal hl rfl (by rw [hread, bind_refuse]), outcome_refuse]

/-- Settles O26, by the three cases of the read. -/
theorem inTakesNextInputWord : Obligations.InTakesNextInputWord := by
  intro s ri hl
  obtain ⟨hip, hefr⟩ := legalIn_write (r := ri) hl (by simp [regUses])
  refine ⟨fun w rest hin => ?_, fun hin hopen => ?_, fun hin hclosed => ?_⟩
  · refine completes_of_goOn (exec_inp_of_read hl (readInput_of_listed hin)) (setReg_ip ..) (setReg_cfg ..) ?_
    obtain ⟨hregs, hmem, hdisk, hhidden, hout, hinput⟩ :=
      ((Frame.refl [ri] [] { s with input := rest }).setReg (List.mem_singleton_self ri) w).advance
    refine ⟨?_, hinput, hout, hregs, hmem, hdisk, hhidden⟩
    rw [getReg_advance _ _ hip, getReg_setReg_self _ _ _ hip hefr]
  · exact completes_of_goOn (exec_inp_of_read hl (readInput_of_open hin hopen)) (setReg_ip ..) (setReg_cfg ..)
      ((Frame.refl _ _ s).drawn.setReg (List.mem_singleton_self ri) _).advance
  · exact exec_inp_of_refuse hl (readInput_of_closed hin hclosed)

end Sys2Proof.Machine
end

section
/-! PROOFS. The reset state: what the spec states of it, and the invariant's beginning (10_state.md R41). -/

namespace Sys2Proof.Machine

/-- The ROM code at words 0 to 3, the second word of each instruction empty (70_reset_and_hazards.md R241). -/
theorem romCode_reads :
    romCode.read 0 = Word.lit "LOAD 1, 0" ∧ romCode.read 1 = Word.lit ""
      ∧ romCode.read 2 = Word.lit "JMP 512" ∧ romCode.read 3 = Word.lit "" := by decide

/-- A reset state runs, so neither clause on halted machines says anything of it, and its timer count is zero. -/
theorem resetWith_inv (cfg : Config) {disk : Memory} (input : List Word) (h : Memory.wf diskWords disk) :
    (State.resetWith cfg disk input).Inv := by
  obtain ⟨hmem, hdisk⟩ := resetWith_wf cfg disk input h
  have hlow : wordIntMin ≤ 0 := by decide
  have hhigh : 0 ≤ wordIntMax := by decide
  exact ⟨hmem, hdisk, hlow, hhigh, fun n _ => Nat.zero_le n, nofun, nofun⟩

theorem resetWith_atReset (cfg : Config) (disk : Memory) (input : List Word) :
    (State.resetWith cfg disk input).AtReset :=
  ⟨rfl, rfl, rfl, rfl, rfl, romCode_reads⟩

/-- A restart differs from the reset state only in the draw counter, of which R41 says nothing. -/
theorem restart_atReset (s : State) : s.restart.AtReset := resetWith_atReset s.cfg s.disk s.input

/-- Settles O54: `State.reset` is the reset state with a blank disk, which is canonical. -/
theorem resetMeetsTheInvariant : Obligations.ResetMeetsTheInvariant :=
  ⟨resetWith_inv resetConfig [] (by decide), fun cfg _ input hdisk => resetWith_inv cfg input hdisk⟩

/-- Settles O55; the disk is a field that neither a reset nor a restart writes. -/
theorem resetStateIsAsStated : Obligations.ResetStateIsAsStated :=
  ⟨resetWith_atReset resetConfig [] [], fun cfg disk input => ⟨resetWith_atReset cfg disk input, rfl⟩,
    fun s => ⟨restart_atReset s, rfl⟩⟩

end Sys2Proof.Machine
end

section
/-! PROOFS. Faults: only a machine that has halted answers one (10_state.md R31, 30_encoding.md R95). -/

namespace Sys2Proof.Machine

/-- Every instruction is a body behind the legality checks of its mode (30_encoding.md R95 step 5). -/
theorem exec_eq_checked (i : Instr) (s : State) : ∃ body, exec i s = checked i s body := by
  cases i <;> exact ⟨_, rfl⟩

/-- A body completes, raises or refuses: none of these is a fault. -/
theorem outcome_ne_fault (x : Res Unit) (f : Fault) : x.outcome ≠ .fault f := by
  cases x with
  | ok a s => exact nofun
  | raise e s => exact raiseException_ne_fault
  | refuse r => exact nofun

theorem checked_ne_fault (i : Instr) (s : State) (body : Res Unit) (f : Fault) : checked i s body ≠ .fault f := by
  cases hl : legalIn s.mode i with
  | true => rw [checked_of_legal body hl]; exact outcome_ne_fault body f
  | false => rw [checked_of_illegal body hl]; exact raiseException_ne_fault

theorem exec_ne_fault (i : Instr) (s : State) (f : Fault) : exec i s ≠ .fault f := by
  obtain ⟨body, hbody⟩ := exec_eq_checked i s
  rw [hbody]
  exact checked_ne_fault i s body f

section
variable (dec : Decoder) (s : State) (f : Fault)

theorem fetchExecute_ne_fault : fetchExecute dec s ≠ .fault f := by
  unfold fetchExecute
  split
  · split
    · exact exec_ne_fault _ _ f
    · exact raiseException_ne_fault
  · exact raiseException_ne_fault
  · exact nofun

/-- Counting a step for the timer makes no fault. -/
theorem countStep_ne_fault {began : Mode} {o : Outcome} (h : o ≠ .fault f) : countStep began o ≠ .fault f := by
  cases began with
  | kernel => exact h
  | user =>
    cases o with
    | next t => exact nofun
    | fault g => exact h
    | refused r => exact nofun

theorem runningStep_ne_fault : runningStep dec s ≠ .fault f := by
  unfold runningStep
  split
  · exact outcome_ne_fault _ f
  · exact countStep_ne_fault f (fetchExecute_ne_fault dec s f)

end

theorem step_of_halted {s : State} (h : s.status ≠ .running) : step s = .fault .halted := by
  unfold step stepWith
  split
  case h_1 hrun => exact absurd hrun h
  case h_2 => rfl

theorem step_of_running {s : State} (h : s.status = .running) : step s = runningStep decodeWords s := by
  rw [step, stepWith, h]

/-- Settles O52: a halted machine answers the fault, and no part of a running machine's cycle does. -/
theorem stepFaultsExactlyWhenHalted : Obligations.StepFaultsExactlyWhenHalted :=
  fun s => ⟨step_of_halted, fun hrun f => step_of_running hrun ▸ runningStep_ne_fault decodeWords s f⟩

end Sys2Proof.Machine
end

section
/-! PROOFS. EFR: the word an exception leaves, as text and as integer (10_state.md R29, 60_exceptions.md R204). -/

namespace Sys2Proof.Machine

/-! ### Digits side by side -/

theorem natOfDigits_append (t u : Text) :
    natOfDigits (t ++ u) = natOfDigits t * 10 ^ u.length + natOfDigits u := by
  rw [natOfDigits, List.foldl_append]
  exact natOfDigits_foldl u (natOfDigits t)

theorem isDigits_append {t u : Text} (ht : isDigits t = true) (hu : isDigits u = true) : isDigits (t ++ u) = true := by
  obtain ⟨hne, hall⟩ := isDigits_iff.1 ht
  obtain ⟨-, hall'⟩ := isDigits_iff.1 hu
  exact isDigits_iff.2 ⟨by simp [hne], List.forall_mem_append.2 ⟨hall, hall'⟩⟩

theorem isDigits_ofDigit (d : Nat) : isDigits [Chr.ofDigit d] = true := by simp [isDigits]

theorem natOfDigits_ofDigit (d : Nat) : natOfDigits [Chr.ofDigit d] = d % 10 := by simp [natOfDigits]

theorem isDigits_twoDigits (k : Nat) : isDigits (twoDigits k) = true := by simp [isDigits, twoDigits]

/-- `d2(k)` has the value k for every k of two digits (R29). -/
theorem natOfDigits_twoDigits {k : Nat} (h : k ≤ 99) : natOfDigits (twoDigits k) = k := by
  simp only [natOfDigits, twoDigits, List.foldl_cons, List.foldl_nil, digitValue_ofDigit]
  omega

/-! ### The word of EFR -/

theorem code_le_four (c : Cause) : c.code ≤ 4 := by cases c <;> decide

section
variable {pc : Int} {bad : Nat}

/-- At most five digits, two digits and one fit a word: nothing of the text is cut off. -/
theorem chars_efrWord (h0 : 0 ≤ pc) (h1 : pc ≤ 99999) (c : Cause) :
    (efrWord pc bad c).chars = intText pc ++ twoDigits bad ++ [Chr.ofDigit c.code] := by
  obtain ⟨n, rfl⟩ := Int.eq_ofNat_of_zero_le h0
  have hlen : (natText n).length ≤ 5 := length_natText_le (by decide) (by omega)
  refine chars_clip ?_
  simp only [intText, twoDigits, List.length_append, List.length_cons, List.length_nil]
  omega

/-- `pc * 1000 + bad * 10 + cause` (R29). -/
theorem int?_efrWord (h0 : 0 ≤ pc) (h1 : pc ≤ 99999) (hbad : bad ≤ 99) (c : Cause) :
    (efrWord pc bad c).int? = some (pc * 1000 + bad * 10 + c.code) := by
  rw [Word.int?, chars_efrWord h0 h1]
  obtain ⟨n, rfl⟩ := Int.eq_ofNat_of_zero_le h0
  have hcode := code_le_four c
  have hdigits : isDigits (natText n ++ twoDigits bad ++ [Chr.ofDigit c.code]) = true :=
    isDigits_append (isDigits_append (isDigits_natText n) (isDigits_twoDigits bad)) (isDigits_ofDigit _)
  have hvalue : natOfDigits (natText n ++ twoDigits bad ++ [Chr.ofDigit c.code]) = n * 1000 + bad * 10 + c.code := by
    rw [natOfDigits_append, natOfDigits_append, natOfDigits_natText, natOfDigits_twoDigits hbad, natOfDigits_ofDigit]
    simp only [twoDigits, List.length_cons, List.length_nil]
    omega
  exact (parseInt_digits hdigits).trans (by rw [hvalue]; push_cast; rfl)

end

/-! ### What an exception leaves in EFR -/

/-- The rest of taking an exception leaves EFR as it was recorded. -/
theorem takeException_efr (e : Exn) (s : State) : (takeException e s).efr = (recordException e s).efr := by
  unfold takeException
  split <;> rfl

section
variable {s : State} {e : Exn}

theorem ipFitsEfr_of_bounds (h0 : 0 ≤ s.ip) (h1 : s.ip ≤ 99999) : ipFitsEfr s.ip = true := by simp [ipFitsEfr, h0, h1]

/-- BadVAddr of a page fault is its logical page number. -/
theorem takeException_pageFault_efr {lpn : Nat} (hip : ipFitsEfr s.ip = true) (hlpn : lpn ≤ 99) :
    (takeException (.pageFault lpn) s).efr = efrWord s.ip lpn .pageFault := by
  simp [takeException_efr, recordException, hip, hlpn]

/-- BadVAddr of every other exception is free. -/
theorem takeException_other_efr (hip : ipFitsEfr s.ip = true) (he : ∀ lpn, e ≠ .pageFault lpn) :
    (takeException e s).efr = efrWord s.ip (Config.freeBadVAddr s.draws).val e.cause := by
  rw [takeException_efr]
  cases e with
  | pageFault lpn => exact absurd rfl (he lpn)
  | illegalInstruction | illegalMemoryAccess | arithmetic | illegalOperands => simp [recordException, hip]

end

/-- Settles O40: which word EFR holds, then that word's text and integer. -/
theorem efrHoldsIpPageAndCause : Obligations.EfrHoldsIpPageAndCause := by
  intro s x h0 h1
  have hip := ipFitsEfr_of_bounds h0 h1
  refine ⟨?_, fun hx => ?_⟩
  · rintro lpn rfl hlpn
    rw [takeException_pageFault_efr hip hlpn]
    refine ⟨?_, chars_efrWord h0 h1 .pageFault⟩
    simpa [Cause.code] using int?_efrWord h0 h1 hlpn .pageFault
  · have hbad : (Config.freeBadVAddr s.draws).val ≤ 99 := by omega
    rw [takeException_other_efr hip hx]
    exact ⟨_, hbad, int?_efrWord h0 h1 hbad x.cause, chars_efrWord h0 h1 x.cause⟩

end Sys2Proof.Machine
end

section
/-! PROOFS. Memory and the translation of addresses: the canonical form, kernel mode, the page table (20_memory.md R50
to R60). -/

namespace Sys2Proof.Machine

/-! ### The canonical form -/

/-- A canonical memory lists exactly the words that do not read as blank. -/
theorem mem_iff_read {size : Nat} {m : Memory} (h : Memory.wf size m) {k : Nat} {v : Word} :
    (k, v) ∈ m ↔ m.read k = v ∧ v ≠ blankWord := by
  obtain ⟨hsorted, hall⟩ := h
  induction m with
  | nil => simp [Memory.read, eq_comm]
  | cons d rest ih =>
    obtain ⟨k', v'⟩ := d
    obtain ⟨hlt, hsorted'⟩ := List.pairwise_cons.1 hsorted
    obtain ⟨⟨-, hv'⟩, hall'⟩ := List.forall_mem_cons.1 hall
    by_cases hk : k' = k
    · subst hk
      have hrest : (k', v) ∉ rest := fun hmem => absurd (hlt _ hmem) (lt_irrefl _)
      simp only [List.mem_cons, hrest, Memory.read, if_true, or_false, Prod.mk.injEq, true_and]
      exact ⟨by rintro rfl; exact ⟨rfl, hv'⟩, fun h => h.1.symm⟩
    · rw [Memory.read, if_neg hk, ← ih hsorted' hall']
      simp [Ne.symm hk]

/-- Two canonical memories that read alike list the same words, in the same order. -/
theorem eq_of_read_eq {size : Nat} {m n : Memory} (hm : Memory.wf size m) (hn : Memory.wf size n)
    (h : ∀ a, m.read a = n.read a) : m = n := by
  have : Std.Antisymm fun d e : Nat × Word => d.1 < e.1 := ⟨fun _ _ h h' => absurd h' (lt_asymm h)⟩
  refine List.Pairwise.eq_of_mem_iff hm.1 hn.1 fun ⟨k, v⟩ => ?_
  rw [mem_iff_read hm, mem_iff_read hn, h]

/-- Settles O49. -/
theorem canonicalMemoryIsUnique : Obligations.CanonicalMemoryIsUnique :=
  ⟨fun _ _ _ hm hn h => eq_of_read_eq hm hn h,
    fun _ a b m w hm ha => ⟨wf_write w hm ha, read_write m a b w⟩⟩

/-! ### Kernel mode -/

/-- Settles O44. -/
theorem kernelAddressesArePhysical : Obligations.KernelAddressesArePhysical := by
  intro s a hm
  rw [translateAddr_kernel hm]
  exact ⟨fun h0 h1 => if_pos ⟨h0, h1⟩, fun h => if_neg (by omega)⟩

/-! ### A write to a physical word (R62) -/

section
variable {s : State} {pa : Nat} (w : Word)

theorem storeWord_of_writable (h : Writable s pa) : storeWord pa w s = .ok () { s with mem := s.mem.write pa w } := by
  rcases h with h | h
  · exact storeWord_above w s h
  · simp [storeWord, h]

theorem storeWord_rom_refuse (hpa : pa < 512) (h : s.cfg.romWrite = .refuse) : storeWord pa w s = .refuse .romWrite := by
  simp [storeWord, hpa, h]

theorem storeWord_rom_ignore (hpa : pa < 512) (h : s.cfg.romWrite = .ignore) : storeWord pa w s = .ok () s := by
  simp [storeWord, hpa, h]

end

/-! ### An entry of the page table -/

/-- A negative address is in no page (R60). -/
theorem translateAddr_user_negative {s : State} {a : Int} (hm : s.mode = .user) (ha : a < 0) :
    translateAddr a s = .raise .illegalMemoryAccess s := by
  simp [translateAddr, hm, ha]

/-- Where PTLR or PTBR holds no integer there is no page table (U2). -/
theorem translateAddr_of_noTable {s : State} {a : Nat} (hm : s.mode = .user)
    (h : s.ptlr.int? = none ∨ s.ptbr.int? = none) : translateAddr a s = .refuse .pageTableRegisters := by
  have h0 : ¬ (a : Int) < 0 := by omega
  simp only [translateAddr, hm, if_neg h0]
  rcases h with h | h
  · rw [h]
  · rw [h]; cases s.ptlr.int? <;> rfl

/-- A page that is not below PTLR has no entry (R60). -/
theorem translateAddr_of_pastTable {s : State} {a : Nat} {len base : Int} (hm : s.mode = .user)
    (hlen : s.ptlr.int? = some len) (hbase : s.ptbr.int? = some base) (hge : len ≤ ((a / 512 : Nat) : Int)) :
    translateAddr a s = .raise .illegalMemoryAccess s := by
  have h0 : ¬ (a : Int) < 0 := by omega
  simp only [translateAddr, hm, if_neg h0, hlen, hbase, Int.toNat_natCast]
  exact if_neg (not_lt.2 hge)

/-- Below PTLR a user-mode translation is that of the page's entry. -/
theorem translateAddr_user {s : State} {a : Nat} {len base : Int} (hm : s.mode = .user) (hlen : s.ptlr.int? = some len)
    (hbase : s.ptbr.int? = some base) (hlt : ((a / 512 : Nat) : Int) < len) :
    translateAddr a s = translateEntry base (a / 512) (a % 512) s := by
  have h0 : ¬ (a : Int) < 0 := by omega
  simp only [translateAddr, hm, if_neg h0, hlen, hbase, Int.toNat_natCast]
  exact if_pos hlt

/-- An entry that would begin below word 0, or end above word 32767, is refused (U3). -/
theorem translateEntry_outside {s : State} {base : Int} {lpn off : Nat}
    (h : base + 2 * (lpn : Int) < 0 ∨ 32767 < base + 2 * (lpn : Int) + 1) :
    translateEntry base lpn off s = .refuse .pageTableEntryOutside := if_pos h

section
variable {s : State} {a e p : Nat} {c v : Chr} {rest : Text}

/-- Where the entry of its page lies in memory, a user-mode translation reads that entry. -/
theorem translateAddr_of_entryAt (hm : s.mode = .user) (he : EntryAt s (a / 512) e) :
    ∃ base : Int, (e : Int) = base + 2 * ((a / 512 : Nat) : Int) ∧ ¬ ((e : Int) < 0 ∨ (e : Int) + 1 > 32767)
      ∧ translateAddr a s = translateEntry base (a / 512) (a % 512) s := by
  obtain ⟨len, base, hlen, hbase, hlt, heq, hle⟩ := he
  exact ⟨base, heq, by omega, translateAddr_user hm hlen hbase hlt⟩

/-- An entry whose first two characters are not bits is malformed (U4). -/
theorem translateAddr_of_malformed (hm : s.mode = .user) (he : EntryAt s (a / 512) e)
    (h : ¬ ∃ c v rest, EntryBits s e c v rest) : translateAddr a s = .refuse .malformedAuxiliary := by
  obtain ⟨base, heq, hin, htr⟩ := translateAddr_of_entryAt hm he
  have haux : auxiliary (s.mem.read (e + 1)) = none := by
    by_contra hsome
    obtain ⟨⟨valid, marked⟩, haux⟩ := Option.ne_none_iff_exists'.1 hsome
    obtain ⟨c, v, rest, hbits, -⟩ := entryBits_of_auxiliary haux
    exact h ⟨c, v, rest, hbits⟩
  simp only [htr, translateEntry, ← heq, if_neg hin, Int.toNat_natCast, haux]

/-- The valid bit `0` is a page fault (R59). -/
theorem translateAddr_of_invalid (hm : s.mode = .user) (he : EntryAt s (a / 512) e) (hbits : EntryBits s e c v rest)
    (hv : v.code = 48) : translateAddr a s = .raise (.pageFault (a / 512)) s := by
  obtain ⟨base, heq, hin, htr⟩ := translateAddr_of_entryAt hm he
  simp only [htr, translateEntry, ← heq, if_neg hin, Int.toNat_natCast, auxiliary_of_entryBits hbits, hv,
    Nat.reduceEqDiff, decide_false]

/-- A valid entry whose first word is no page number is malformed (U5). -/
theorem translateAddr_of_badPage (hm : s.mode = .user) (he : EntryAt s (a / 512) e) (hbits : EntryBits s e c v rest)
    (hv : v.code = 49) (hp : (s.mem.read e).int? = none ∨ ∃ p, (s.mem.read e).int? = some p ∧ (p < 0 ∨ 63 < p)) :
    translateAddr a s = .refuse .badPhysicalPage := by
  obtain ⟨base, heq, hin, htr⟩ := translateAddr_of_entryAt hm he
  rcases hp with hp | ⟨p, hp, hrange⟩
  · simp only [htr, translateEntry, ← heq, if_neg hin, Int.toNat_natCast, auxiliary_of_entryBits hbits, hv,
      hp, decide_true]
  · have hrange' : p < 0 ∨ p > 63 := hrange
    simp only [htr, translateEntry, ← heq, if_neg hin, Int.toNat_natCast, auxiliary_of_entryBits hbits, hv,
      hp, if_pos hrange', decide_true]

/-- A valid entry sets its reference bit, if its second word can be written, and gives the address in its page (R55, R58). -/
theorem translateAddr_of_valid (hm : s.mode = .user) (he : EntryAt s (a / 512) e) (hbits : EntryBits s e c v rest)
    (hv : v.code = 49) (hp : (s.mem.read e).int? = some (p : Int)) (hle : p ≤ 63) :
    translateAddr a s
      = (storeWord (e + 1) (Word.clip (chrOne :: v :: rest)) s).bind fun _ t => .ok (p * 512 + a % 512) t := by
  obtain ⟨base, heq, hin, htr⟩ := translateAddr_of_entryAt hm he
  have hrange : ¬ ((p : Int) < 0 ∨ (p : Int) > 63) := by omega
  simp only [htr, translateEntry, ← heq, if_neg hin, Int.toNat_natCast, auxiliary_of_entryBits hbits, hv,
    hp, if_neg hrange, pageWords, decide_true]

/-- Setting the reference bit cuts nothing off the word. -/
theorem EntryBits.chars_marked (h : EntryBits s e c v rest) :
    (Word.clip (chrOne :: v :: rest)).chars = chrOne :: v :: rest := by
  refine chars_clip ?_
  have hshort := (s.mem.read (e + 1)).short
  rw [h.1] at hshort
  exact hshort

end

/-- Settles O45. -/
theorem userAddressesGoThroughPageTable : Obligations.UserAddressesGoThroughPageTable := by
  intro s a e p c v rest hm he hbits hv hp hle hwritable
  refine ⟨_, _, ?_, rfl, hbits.chars_marked⟩
  rw [translateAddr_of_valid hm he hbits hv hp hle, storeWord_of_writable _ hwritable, bind_ok]

/-- Settles O46, by the checks of a translation in their order. -/
theorem userAddressFaults : Obligations.UserAddressFaults := by
  intro s hm
  refine ⟨fun a ha => ?_, fun a h => ?_, fun a len base hlen hbase hge => ?_, fun a len base hlen hbase hlt hout => ?_,
    fun a e he => ⟨translateAddr_of_malformed hm he, fun c v rest => translateAddr_of_invalid hm he,
      fun c v rest => translateAddr_of_badPage hm he⟩⟩
  · exact translateAddr_user_negative hm ha
  · exact translateAddr_of_noTable hm h
  · exact translateAddr_of_pastTable hm hlen hbase hge
  · rw [translateAddr_user hm hlen hbase hlt, translateEntry_outside hout]

/-- Settles O47: what a translation changes is a reference bit, and in kernel mode it changes nothing. -/
theorem translationSetsOnlyReferenceBit : Obligations.TranslationSetsOnlyReferenceBit := by
  intro s t a pa h
  refine ⟨translateAddr_changes h, fun b hb => ?_⟩
  have hbits := refBits_translateAddr h
  obtain ⟨haux, c, v, rest, hs, ht, -⟩ := hbits.bit b hb
  refine ⟨?_, haux, c, v, rest, hs, ht⟩
  cases hm : s.mode with
  | user => rfl
  | kernel => exact absurd (by rw [hbits.kernel hm]) hb

end Sys2Proof.Machine
end

section
/-! PROOFS. What a user-mode step may do, and which words of memory it may change (20_memory.md R55, R63). -/

namespace Sys2Proof.Machine

/-! ### The parts of a step that goes on -/

section
variable {s t : State}

/-- A running machine that goes on takes the timer interrupt or runs a counted instruction. -/
theorem step_eq_next (h : step s = .next t) :
    (timerDue s = true ∧ timerInterrupt s = .next t)
      ∨ (timerDue s = false ∧ countStep s.mode (fetchExecute decodeWords s) = .next t) := by
  have hrun : s.status = .running := by
    by_contra hrun
    rw [step_of_halted hrun] at h
    cases h
  rw [step_of_running hrun, runningStep] at h
  cases hdue : timerDue s with
  | true => exact .inl ⟨rfl, by rwa [if_pos hdue] at h⟩
  | false => exact .inr ⟨rfl, by rwa [if_neg (by simp [hdue])] at h⟩

/-- Counting a user-mode step adds one to the timer count of the state it goes on to (60_exceptions.md R214). -/
theorem countStep_user_eq_next {o : Outcome} (h : countStep .user o = .next t) :
    ∃ u, o = .next u ∧ t = { u with timerCount := u.timerCount + 1 } := by
  cases o with
  | next u => exact ⟨u, rfl, (Host.Outcome.next.inj h).symm⟩
  | fault f => cases h
  | refused r => cases h

/-- A fetch sets reference bits at most. -/
theorem refBits_fetch {p : Word × Word} (h : fetch s = .ok p t) : RefBits s t := by
  have hends := ends_fetch s
  rwa [h] at hends

/-- A fetch that raises has set reference bits at most, its first word's. -/
theorem refBits_fetch_raise {e : Exn} (h : fetch s = .raise e t) : RefBits s t := by
  have hends := ends_fetch s
  rw [h] at hends
  exact hends.1

/-- A fetch and what follows it go on by the decoded instruction, or by an exception raised before it ran. -/
theorem fetchExecute_eq_next {dec : Decoder} (h : fetchExecute dec s = .next t) :
    (∃ w0 w1 u i, fetch s = .ok (w0, w1) u ∧ dec w0 w1 = some i ∧ exec i u = .next t)
      ∨ ∃ e u, RefBits s u ∧ t = takeException e u := by
  unfold fetchExecute at h
  split at h
  case h_1 w0 w1 u hfetch =>
    split at h
    case h_1 i hdec => exact .inl ⟨w0, w1, u, i, hfetch, hdec, h⟩
    case h_2 => exact .inr ⟨_, u, refBits_fetch hfetch, (raiseException_eq_next.1 h).2⟩
  case h_2 e u hfetch =>
    exact .inr ⟨e, u, refBits_fetch_raise hfetch, (raiseException_eq_next.1 h).2⟩
  case h_3 => cases h

end

/-! ### Instructions in user mode -/

section
variable {s t : State}

/-- Everything END can do: it is ignored, or halts the machine (45_io_debug_end.md R173). -/
theorem execEnd_eq_next (h : exec .fin s = .next t) : t = s.advance ∨ t = { s with status := .halted .fin } := by
  have hl : legalIn s.mode .fin = true := by cases s.mode <;> rfl
  rw [exec_of_legal hl rfl rfl] at h
  split at h
  · cases h
  · rcases needText_cases (s.ip + 2) s with ⟨-, hn⟩ | ⟨-, hn⟩ <;> rw [goOn, goTo, hn] at h
    · exact .inl (Host.Outcome.next.inj h).symm
    · cases h
  · exact .inr (Host.Outcome.next.inj h).symm

/-- Everything an instruction can do in user mode: an exception, an ordinary effect, the entry at a software interrupt's
routine, or the halt of END. -/
theorem exec_user_cases {i : Instr} (hm : s.mode = .user) (h : exec i s = .next t) :
    (∃ e u, RefBits s u ∧ t = takeException e u) ∨ Effect s t
      ∨ (∃ n u, i = .int n ∧ Kept s u ∧ t = { u with mode := .kernel, ip := interruptVector n })
      ∨ i = .fin ∧ t = { s with status := .halted .fin } := by
  cases hl : legalIn s.mode i with
  | false =>
    obtain ⟨body, hbody⟩ := exec_eq_checked i s
    rw [hbody, checked_of_illegal body hl] at h
    exact .inl ⟨_, s, .refl s, (raiseException_eq_next.1 h).2⟩
  | true =>
    have hpriv : privileged i = false := (legalIn_user.1 (hm ▸ hl)).1
    by_cases hint : ∃ n, i = .int n
    · obtain ⟨n, rfl⟩ := hint
      rcases execInt_next h with ⟨e, u, ht, hu, -⟩ | ⟨u, hu, ht⟩
      · exact .inl ⟨e, u, hu, ht⟩
      · exact .inr (.inr (.inl ⟨n, u, rfl, hu, ht⟩))
    by_cases hfin : i = .fin
    · subst hfin
      rcases execEnd_eq_next h with rfl | ht
      · exact .inr (.inl (RefBits.refl s).kept.advance)
      · exact .inr (.inr (.inr ⟨rfl, ht⟩))
    rcases exec_ordinary hl h (fun n hn => hint ⟨n, hn⟩) hpriv hfin with ⟨e, u, ht, hu, -⟩ | he
    · exact .inl ⟨e, u, hu, ht⟩
    · exact .inr (.inl he)

end

/-! ### The words that change -/

/-- `t` has changed only the words that user mode reaches from `s`: second words of page-table entries, and words of mapped
pages. -/
def UserWordsOnly (s t : State) : Prop :=
  ∀ b, t.mem.read b ≠ s.mem.read b → AuxWord s b ∨ MappedWord s b

section
variable {s u t : State}

theorem RefBits.userWordsOnly (h : RefBits s u) : UserWordsOnly s u := fun b hb => .inl (h.bit b hb).1

/-- After reference bits are set user mode reaches no other words: the table is where it was, and maps the same pages. -/
theorem RefBits.userWordsOnly_trans (h : RefBits s u) (ht : UserWordsOnly u t) : UserWordsOnly s t := by
  intro b hb
  by_cases hu : u.mem.read b = s.mem.read b
  · rcases ht b (hu ▸ hb) with ⟨k, e, he, rfl⟩ | ⟨k, p, hp, hbp⟩
    · exact .inl ⟨k, e, (entryAt_congr h.rest).1 he, rfl⟩
    · exact .inr ⟨k, p, h.mapsPage hp, hbp⟩
  · exact h.userWordsOnly b hu

/-- An exception changes no word of memory. -/
theorem UserWordsOnly.takeException (h : UserWordsOnly s u) (e : Exn) : UserWordsOnly s (takeException e u) := by
  simpa only [UserWordsOnly, takeException_mem] using h

theorem exec_userWordsOnly {i : Instr} (hm : s.mode = .user) (h : exec i s = .next t) : UserWordsOnly s t := by
  rcases exec_user_cases hm h with ⟨e, u, hu, rfl⟩ | ⟨hkept, -⟩ | ⟨n, u, -, hkept, rfl⟩ | ⟨-, rfl⟩
  · exact hu.userWordsOnly.takeException e
  · exact hkept.word hm
  · exact hkept.word hm
  · exact (RefBits.refl s).userWordsOnly

theorem fetchExecute_userWordsOnly {dec : Decoder} (hm : s.mode = .user) (h : fetchExecute dec s = .next t) :
    UserWordsOnly s t := by
  rcases fetchExecute_eq_next h with ⟨w0, w1, u, i, hfetch, -, hexec⟩ | ⟨e, u, hu, rfl⟩
  · have hu := refBits_fetch hfetch
    have hum : u.mode = .user := by rw [hu.rest]; exact hm
    exact hu.userWordsOnly_trans (exec_userWordsOnly hum hexec)
  · exact hu.userWordsOnly.takeException e

/-- The timer interrupt's push goes through the page table like every other store of user mode. -/
theorem timerInterrupt_userWordsOnly (hm : s.mode = .user) (h : timerInterrupt s = .next t) : UserWordsOnly s t := by
  rcases takeInterrupt_next h with ⟨e, u, rfl, hu, -⟩ | ⟨u, hkept, rfl⟩
  · exact hu.userWordsOnly.takeException e
  · exact hkept.word hm

end

/-- Settles O59, by the two ways a step goes on. -/
theorem userStepWritesOnlyMappedPages : Obligations.UserStepWritesOnlyMappedPages := by
  intro s t a hm hstep
  rcases step_eq_next hstep with ⟨-, htimer⟩ | ⟨-, hcount⟩
  · exact timerInterrupt_userWordsOnly hm htimer a
  · obtain ⟨u, hu, rfl⟩ := countStep_user_eq_next (hm ▸ hcount)
    exact fetchExecute_userWordsOnly hm hu a

end Sys2Proof.Machine
end

section
/-! PROOFS. Pushes: the store at the new top and the step of SP, and what the ROM page makes of them (20_memory.md R62). -/

namespace Sys2Proof.Machine

/-- Sequencing is associative. -/
theorem Res.bind_assoc {α β γ : Type} (x : Res α) (f : α → State → Res β) (g : β → State → Res γ) :
    (x.bind f).bind g = x.bind fun a s => (f a s).bind g := by
  cases x <;> rfl

/-! ### The timer count -/

/-- A result with the state it carries changed. -/
def Res.mapState {α : Type} (f : State → State) : Res α → Res α
  | .ok a s => .ok a (f s)
  | .raise e s => .raise e (f s)
  | .refuse r => .refuse r

/-- The timer count set to a value. -/
def State.withTimer (k : Nat) (s : State) : State := { s with timerCount := k }

section
variable (k : Nat) (s : State)

theorem storeWord_withTimer (pa : Nat) (w : Word) :
    storeWord pa w (s.withTimer k) = (storeWord pa w s).mapState (State.withTimer k) := by
  simp only [storeWord, State.withTimer]
  split
  · cases s.cfg.romWrite <;> rfl
  · rfl

theorem translateEntry_withTimer (base : Int) (lpn off : Nat) :
    translateEntry base lpn off (s.withTimer k) = (translateEntry base lpn off s).mapState (State.withTimer k) := by
  have hmem : (s.withTimer k).mem = s.mem := rfl
  simp only [translateEntry, hmem]
  split
  · rfl
  rcases auxiliary _ with _ | ⟨_ | _, marked⟩
  · rfl
  · rfl
  rcases (Memory.read s.mem _).int? with _ | p
  · rfl
  dsimp only
  split
  · rfl
  rw [storeWord_withTimer]
  cases storeWord _ marked s <;> rfl

/-- A translation neither reads nor changes the timer count. -/
theorem translateAddr_withTimer (a : Int) :
    translateAddr a (s.withTimer k) = (translateAddr a s).mapState (State.withTimer k) := by
  have hmode : (s.withTimer k).mode = s.mode := rfl
  have hptlr : (s.withTimer k).ptlr = s.ptlr := rfl
  have hptbr : (s.withTimer k).ptbr = s.ptbr := rfl
  simp only [translateAddr, hmode, hptlr, hptbr]
  cases s.mode with
  | kernel => dsimp only; split <;> rfl
  | user =>
    dsimp only
    split
    · rfl
    cases s.ptlr.int? with
    | none => rfl
    | some len =>
      cases s.ptbr.int? with
      | none => rfl
      | some base =>
        dsimp only
        split
        · exact translateEntry_withTimer k s base _ _
        · rfl

end

/-! ### A push whose stack address has been translated -/

/-- The rest of a push once SP + 1 has been translated to `pa`: the word is stored there, then SP is `top`. The lemmas
`pushInt_of_translated` and `storePushed_of_translated` say that every push ends so. -/
def pushAt (pa : Nat) (w : Word) (top : Int) (s : State) : Res Unit :=
  (storeWord pa w s).bind fun _ u => writeInt .sp top u

section
variable {s s1 : State} {n : Int} {pa : Nat}

theorem translateAddr_cfg {a : Int} (h : translateAddr a s = .ok pa s1) : s1.cfg = s.cfg := by
  rw [translateAddr_changes h]

/-- An integer that has a text is stored as that text. -/
theorem memWriteInt_of_translated {a m : Int} (hm : strDefined s.cfg m = true) (h : translateAddr a s = .ok pa s1) :
    memWriteInt a m s = storeWord pa (Word.ofInt m) s1 := by
  have hm1 : strDefined s1.cfg m = true := translateAddr_cfg h ▸ hm
  rw [memWriteInt, needText_of_hasText (hasText_of_defined hm), bind_ok, h, bind_ok, strWord_of_defined _ _ hm1]

theorem pushInt_of_translated {m : Int} (hsp : (s.getReg .sp).int? = some n) (hm : strDefined s.cfg m = true)
    (h : translateAddr (n + 1) s = .ok pa s1) : pushInt m s = pushAt pa (Word.ofInt m) (n + 1) s1 := by
  rw [pushInt, readInt_of_int hsp, bind_ok, memWriteInt_of_translated hm h, pushAt]

/-- PUSH stores the register's word, which for SP is the text of the new SP. -/
theorem storePushed_of_translated (ri : Reg) (htop : strDefined s.cfg (n + 1) = true)
    (h : translateAddr (n + 1) s = .ok pa s1) : ∃ w, storePushed ri (n + 1) s = storeWord pa w s1 := by
  unfold storePushed
  split
  · exact ⟨_, memWriteInt_of_translated htop h⟩
  · exact ⟨_, by rw [memWrite, h, bind_ok]⟩

end

/-! ### The instructions that push -/

section
variable {s s1 : State} {n : Int} {pa : Nat}

theorem exec_push_of_translated {ri : Reg} (hl : legalIn s.mode (.push ri) = true) (hsp : (s.getReg .sp).int? = some n)
    (htop : strDefined s.cfg (n + 1) = true) (h : translateAddr (n + 1) s = .ok pa s1) :
    ∃ w, exec (.push ri) s = ((pushAt pa w (n + 1) s1).bind fun _ u => goOn u).outcome := by
  obtain ⟨w, hw⟩ := storePushed_of_translated ri htop h
  exact ⟨w, exec_of_legal hl rfl (by rw [readInt_of_int hsp, bind_ok, hw, pushAt, Res.bind_assoc])⟩

theorem exec_call_of_translated {target : Nat} (hl : legalIn s.mode (.call target) = true)
    (hsp : (s.getReg .sp).int? = some n) (hret : strDefined s.cfg (s.ip + 2) = true)
    (h : translateAddr (n + 1) s = .ok pa s1) :
    exec (.call target) s
      = ((pushAt pa (Word.ofInt (s.ip + 2)) (n + 1) s1).bind fun _ u => goTo target u).outcome :=
  exec_of_legal hl rfl (by rw [pushInt_of_translated hsp hret h])

theorem exec_int_of_executes {k : Nat} (hl : legalIn s.mode (.int k) = true)
    (hexec : s.mode = .user ∨ s.cfg.intInKernel = .execute) :
    exec (.int k) s = (takeInterrupt (s.ip + 2) (interruptVector k) s).outcome := by
  refine exec_of_legal hl rfl ?_
  rcases hexec with hm | hk
  · rw [hm]
  · rw [hk]; cases s.mode <;> rfl

theorem takeInterrupt_of_translated {m vector : Int} (hsp : (s.getReg .sp).int? = some n) (hm : strDefined s.cfg m = true)
    (h : translateAddr (n + 1) s = .ok pa s1) :
    takeInterrupt m vector s
      = (pushAt pa (Word.ofInt m) (n + 1) s1).bind fun _ u => .ok () { u with mode := .kernel, ip := vector } := by
  rw [takeInterrupt, pushInt_of_translated hsp hm h]

end

/-! ### A push into the ROM page -/

section
variable {s : State} {pa : Nat} {w : Word} {top : Int} (k : Unit → State → Res Unit)

/-- Under `refuse` whatever pushes into the ROM page is refused. -/
theorem outcome_pushAt_rom_refuse (hpa : pa < 512) (h : s.cfg.romWrite = .refuse) :
    ((pushAt pa w top s).bind k).outcome = .refused .romWrite := by
  rw [pushAt, storeWord_rom_refuse w hpa h, bind_refuse, bind_refuse, outcome_refuse]

/-- Under `ignore` the ROM page drops the word, and the instruction goes on with SP moved. -/
theorem outcome_pushAt_rom_ignore (hpa : pa < 512) (h : s.cfg.romWrite = .ignore) (htop : strDefined s.cfg top = true) :
    ((pushAt pa w top s).bind k).outcome = (k () (s.setInt .sp top)).outcome := by
  rw [pushAt, storeWord_rom_ignore w hpa h, bind_ok, writeInt_of_hasText (hasText_of_defined htop), bind_ok]

end

/-! ### What a push leaves unchanged -/

section
variable {words : List Nat} {s s1 t : State}

/-- What keeps the frame against the translated state keeps it against the state before the translation, memory apart. -/
theorem Frame.entryFrame (h : Frame [.sp] words s1 t) (hs : s1 = { s with mem := s1.mem, timerCount := s1.timerCount }) :
    EntryFrame words s s1 t := by
  obtain ⟨hregs, hmem, hdisk, ⟨-, hstatus, -, hcfg, hdebug⟩, hconsole⟩ := h
  rw [hs] at hregs hdisk hstatus hcfg hdebug hconsole
  refine ⟨fun r hip hr => ?_, hmem, hdisk, hconsole, hstatus, hcfg, hdebug⟩
  rw [hregs r hip hr]
  cases r <;> rfl

/-- The mode and IP are outside the frame of an entry into the kernel. -/
theorem EntryFrame.enter (h : EntryFrame words s s1 t) (m : Mode) (vector : Int) :
    EntryFrame words s s1 { t with mode := m, ip := vector } := by
  obtain ⟨hregs, hrest⟩ := h
  refine ⟨fun r hip hr => ?_, hrest⟩
  rw [← hregs r hip hr]
  cases r with
  | ip => exact absurd rfl hip
  | _ => rfl

end

/-! ### The state after a push that the ROM page drops -/

section
variable {s s1 : State} {n : Int} {pa : Nat}

theorem goTo_of_defined {m : Int} (h : strDefined s.cfg m = true) : goTo m s = .ok () (s.setIp m) :=
  goTo_eq_ok.2 ⟨hasText_of_defined h, rfl⟩

/-- What goes on from a push into the ROM page: nothing under `refuse`, the machine with SP moved under `ignore`. -/
theorem rom_push_outcome {o : Outcome} {w : Word} {top : Int} {k : Unit → State → Res Unit} {t : State} {P : State → Prop}
    (ho : o = ((pushAt pa w top s1).bind k).outcome) (hpa : pa < 512) (htop : strDefined s1.cfg top = true)
    (hk : k () (s1.setInt .sp top) = .ok () t) (hP : P t) :
    (s1.cfg.romWrite = .refuse → o = .refused .romWrite) ∧ (s1.cfg.romWrite = .ignore → ∃ t, o = .next t ∧ P t) := by
  refine ⟨fun h => ?_, fun h => ⟨t, ?_, hP⟩⟩
  · rw [ho, outcome_pushAt_rom_refuse k hpa h]
  · rw [ho, outcome_pushAt_rom_ignore k hpa h htop, hk, outcome_ok]

section
variable {top : Int} (hs : s1 = { s with mem := s1.mem, timerCount := s1.timerCount })
  (htop : strDefined s1.cfg top = true)
include hs htop

/-- The state after a push that goes on in its mode, at `ip`. -/
theorem setIp_after_push {ip : Int} (hip : strDefined s1.cfg ip = true) :
    ((s1.setInt .sp top).setIp ip).getReg .sp = Word.ofInt top ∧ ((s1.setInt .sp top).setIp ip).mode = s.mode
      ∧ ((s1.setInt .sp top).setIp ip).ip = ip ∧ ((s1.setInt .sp top).setIp ip).timerCount = s1.timerCount
      ∧ EntryFrame [] s s1 ((s1.setInt .sp top).setIp ip) := by
  refine ⟨?_, ?_, setIp_ip _ ip (by rwa [setInt_cfg]), by rw [setIp_timerCount, setInt_timerCount],
    (((Frame.refl [.sp] [] s1).setInt (List.mem_singleton_self _) top).setIp ip).entryFrame hs⟩
  · rw [getReg_setIp _ .sp _ nofun, getReg_setInt_self _ .sp _ nofun nofun htop]
  · rw [setIp_mode, setInt_mode, hs]

/-- The state after a push that enters the kernel at a vector. -/
theorem enter_after_push (vector : Int) :
    State.getReg { s1.setInt .sp top with mode := .kernel, ip := vector } .sp = Word.ofInt top
      ∧ EntryFrame [] s s1 { s1.setInt .sp top with mode := .kernel, ip := vector } :=
  ⟨getReg_setInt_self s1 .sp top nofun nofun htop,
    (((Frame.refl [.sp] [] s1).setInt (List.mem_singleton_self _) top).entryFrame hs).enter _ _⟩

end

end

/-- The timer interrupt is taken where the interval has run out in user mode (60_exceptions.md R215, R216). -/
theorem step_of_timer {s : State} {interval : Nat} (hrun : s.status = .running) (hm : s.mode = .user)
    (hint : s.cfg.timerInterval = some interval) (hdue : interval ≤ s.timerCount) : step s = timerInterrupt s := by
  rw [step_of_running hrun, runningStep, if_pos (by simp [timerDue, hm, hint, hdue])]

/-- Settles O48: each push ends in `pushAt`, whose outcome in the ROM page is `rom_push_outcome`. -/
theorem romPageFollowsItsParameter : Obligations.RomPageFollowsItsParameter := by
  refine ⟨?_, ?_, ?_⟩
  · intro s ri target k n pa s1 i m ip hi hl hsp htop hret hip htr hpa
    have hcfg := translateAddr_cfg htr
    have hs : s1 = { s with mem := s1.mem, timerCount := s1.timerCount } := by rw [translateAddr_changes htr]
    have htop1 : strDefined s1.cfg (n + 1) = true := hcfg ▸ htop
    have hip1 : strDefined s1.cfg ip = true := hcfg ▸ hip
    have hcount : s1.timerCount = s.timerCount := by rw [translateAddr_changes htr]
    have hnext : (s1.setInt .sp (n + 1)).ip = s.ip := by rw [setInt_ip, hs]
    rw [← hcfg, ← hcount]
    simp only [List.mem_cons, List.not_mem_nil, or_false, Prod.mk.injEq] at hi
    rcases hi with (⟨rfl, rfl, rfl⟩ | ⟨rfl, rfl, rfl⟩) | ⟨⟨rfl, rfl, rfl⟩, hexec⟩
    · obtain ⟨w, hw⟩ := exec_push_of_translated hl hsp htop htr
      exact rom_push_outcome hw hpa htop1 (by rw [goOn, hnext, goTo_of_defined (by rwa [setInt_cfg])])
        (setIp_after_push hs htop1 hip1)
    · exact rom_push_outcome (exec_call_of_translated hl hsp hret htr) hpa htop1
        (goTo_of_defined (by rwa [setInt_cfg])) (setIp_after_push hs htop1 hip1)
    · have hint := exec_int_of_executes hl hexec
      rw [takeInterrupt_of_translated hsp hret htr] at hint
      obtain ⟨hreg, hframe⟩ := enter_after_push hs htop1 (interruptVector k)
      exact rom_push_outcome hint hpa htop1 rfl ⟨hreg, rfl, rfl, setInt_timerCount .., hframe⟩
  · intro s interval n pa s1 hrun hm hint hdue hsp htop hret htr hpa
    have hcfg := translateAddr_cfg htr
    have hs : s1.withTimer 0 = { s with mem := s1.mem, timerCount := 0 } := by rw [translateAddr_changes htr]; rfl
    have htop1 : strDefined (s1.withTimer 0).cfg (n + 1) = true := hcfg ▸ htop
    have htr0 : translateAddr (n + 1) (s.withTimer 0) = .ok pa (s1.withTimer 0) := by
      rw [translateAddr_withTimer, htr, Res.mapState]
    have hstep := step_of_timer hrun hm hint hdue
    rw [timerInterrupt, ← State.withTimer, takeInterrupt_of_translated (s := s.withTimer 0) hsp hret htr0] at hstep
    obtain ⟨hreg, hframe⟩ := enter_after_push hs htop1 timerVector
    rw [← hcfg]
    exact rom_push_outcome (s1 := s1.withTimer 0) hstep hpa htop1 rfl ⟨setInt_timerCount .., hreg, rfl, rfl, hframe⟩
  · intro s a e p c v rest hm he hpa hbits hv hp hle
    rw [translateAddr_of_valid hm he hbits hv hp hle]
    exact ⟨fun h => by rw [storeWord_rom_refuse _ hpa h, bind_refuse],
      fun h => by rw [storeWord_rom_ignore _ hpa h, bind_ok]⟩

end Sys2Proof.Machine
end

section
/-! PROOFS. Tokens: the decoder cuts a text exactly into the tokens that R83 of 30_encoding.md says it is made of. -/

namespace Sys2Proof

/-! ### Runs of characters -/

/-- A text is its longest run of characters that satisfy `p`, then what stops that run. -/
theorem spanText_spec {p : Chr → Bool} {t run rest : Text} (h : spanText p t = (run, rest)) :
    t = run ++ rest ∧ (∀ c ∈ run, p c = true) ∧ StopsRun p rest := by
  induction t generalizing run with
  | nil =>
    simp only [spanText, Prod.mk.injEq] at h
    obtain ⟨rfl, rfl⟩ := h
    exact ⟨rfl, nofun, stopsRun_nil p⟩
  | cons c cs ih =>
    cases hc : p c with
    | true =>
      simp only [spanText, hc, if_true, Prod.mk.injEq] at h
      obtain ⟨rfl, hrest⟩ := h
      obtain ⟨hcs, hall, hstop⟩ := ih (Prod.ext rfl hrest)
      exact ⟨congrArg (c :: ·) hcs, List.forall_mem_cons.2 ⟨hc, hall⟩, hstop⟩
    | false =>
      simp only [spanText, hc, Bool.false_eq_true, if_false, Prod.mk.injEq] at h
      obtain ⟨rfl, rfl⟩ := h
      exact ⟨rfl, nofun, stopsRun_cons hc⟩

/-- A run of digits that is not empty is a text of digits. -/
theorem isDigits_of_spanText {t rest : Text} {d : Chr} {ds : Text} (h : spanText Chr.isDigit t = (d :: ds, rest)) :
    t = (d :: ds) ++ rest ∧ isDigits (d :: ds) = true := by
  obtain ⟨ht, hall, -⟩ := spanText_spec h
  exact ⟨ht, by simpa [isDigits] using hall⟩

/-- Digits are read whole where no digit follows. -/
theorem spanText_digits {ds rest : Text} (h : isDigits ds = true) (hr : StopsRun Chr.isDigit rest) :
    spanText Chr.isDigit (ds ++ rest) = (ds, rest) :=
  spanText_append (fun c hc => Machine.isDigit_iff.2 ((Machine.isDigits_iff.1 h).2 c hc)) hr

/-! ### Integers and names -/

/-- What `lexInt` takes is the text of an integer, and its value is that integer. -/
theorem lexInt_sound {t rest : Text} {v : Int} (h : lexInt t = some (v, rest)) :
    ∃ x, t = x ++ rest ∧ parseInt x = some v := by
  cases t with
  | nil => cases h
  | cons c cs =>
    simp only [lexInt] at h
    split at h
    case isTrue hc =>
      split at h
      case h_1 => cases h
      case h_2 d ds rest' hspan =>
        obtain ⟨hcs, hd⟩ := isDigits_of_spanText hspan
        simp only [Option.some.injEq, Prod.mk.injEq] at h
        obtain ⟨rfl, rfl⟩ := h
        exact ⟨c :: d :: ds, by rw [hcs]; rfl, by rw [hc, Machine.parseInt_minus_digits hd]⟩
    case isFalse =>
      split at h
      case h_1 => cases h
      case h_2 d ds rest' hspan =>
        obtain ⟨hcs, hd⟩ := isDigits_of_spanText hspan
        simp only [Option.some.injEq, Prod.mk.injEq] at h
        obtain ⟨rfl, rfl⟩ := h
        exact ⟨d :: ds, hcs, Machine.parseInt_digits hd⟩

/-- The text of an integer is read as that integer where no digit follows. -/
theorem lexInt_append {x rest : Text} {v : Int} (hx : parseInt x = some v) (hr : StopsRun Chr.isDigit rest) :
    lexInt (x ++ rest) = some (v, rest) := by
  obtain ⟨ds, hd, hxds⟩ := Machine.parseInt_eq_some_iff.1 ⟨v, hx⟩
  have hspan := spanText_digits hd hr
  cases ds with
  | nil => cases hd
  | cons d ds =>
    rcases hxds with rfl | rfl
    · rw [Machine.parseInt_digits hd, Option.some.injEq] at hx
      simp only [List.cons_append] at hspan ⊢
      simp only [lexInt, if_neg (Machine.isDigits_head_ne_minus hd), hspan, hx]
    · rw [Machine.parseInt_minus_digits hd, Option.some.injEq] at hx
      simp only [List.cons_append] at hspan ⊢
      simp only [lexInt, if_true, hspan, hx]

/-- The text of an integer begins with a digit or a minus sign. -/
theorem parseInt_head {x : Text} {v : Int} (hx : parseInt x = some v) :
    ∃ c cs, x = c :: cs ∧ (c.isDigit = true ∨ c = Chr.minus) := by
  obtain ⟨ds, hd, rfl | rfl⟩ := Machine.parseInt_eq_some_iff.1 ⟨v, hx⟩
  · cases x with
    | nil => cases hd
    | cons c cs => exact ⟨c, cs, rfl, .inl (Machine.isDigit_iff.2 ((Machine.isDigits_iff.1 hd).2 c (by simp)))⟩
  · exact ⟨_, _, rfl, .inr rfl⟩

/-- What `lexAtom` takes is a name or the text of an integer. -/
theorem lexAtom_sound {t rest : Text} {tok : Token} (h : lexAtom t = some (tok, rest)) :
    ∃ x, t = x ++ rest ∧ ((IsName x ∧ tok = .name x) ∨ ∃ v, parseInt x = some v ∧ tok = .int v) := by
  cases t with
  | nil => cases h
  | cons c cs =>
    simp only [lexAtom] at h
    split at h
    case isTrue hu =>
      have hc : c.isNameChar = true := by simp [Chr.isNameChar, hu]
      simp only [spanText, hc, if_true, Option.some.injEq, Prod.mk.injEq] at h
      obtain ⟨rfl, rfl⟩ := h
      obtain ⟨hcs, hall, -⟩ := spanText_spec (p := Chr.isNameChar) (t := cs) rfl
      exact ⟨_, congrArg (c :: ·) hcs, .inl ⟨⟨c, _, rfl, hu, List.forall_mem_cons.2 ⟨hc, hall⟩⟩, rfl⟩⟩
    case isFalse =>
      obtain ⟨⟨v, rest'⟩, hint, heq⟩ := Option.map_eq_some_iff.1 h
      simp only [Prod.mk.injEq] at heq
      obtain ⟨rfl, rfl⟩ := heq
      obtain ⟨x, ht, hx⟩ := lexInt_sound hint
      exact ⟨x, ht, .inr ⟨v, hx, rfl⟩⟩

/-- The text of an integer, leading zeros or not, is read as that integer where a name could also stand. -/
theorem lexAtom_parseInt {x rest : Text} {v : Int} (hx : parseInt x = some v) (hr : StopsRun Chr.isNameChar rest) :
    lexAtom (x ++ rest) = some (.int v, rest) := by
  have hint := lexInt_append hx hr.digits
  obtain ⟨c, cs, rfl, hc⟩ := parseInt_head hx
  have hu : c.isUpper = false := by
    rcases hc with hc | rfl
    · exact isDigit_not_isUpper hc
    · decide
  simp only [List.cons_append] at hint ⊢
  simp [lexAtom, hu, hint]

/-! ### Tokens -/

/-- A text spells a token (R83): a name, an integer's digits, a string in quotes, or one of the first two immediately between
brackets. `lexToken_iff` ties it to the decoder. -/
def Token.SpeltBy : Token → Text → Prop
  | .name n, x => x = n ∧ IsName n
  | .int v, x => parseInt x = some v
  | .str w, x => x = Chr.quote :: (w.chars ++ [Chr.quote]) ∧ ∀ c ∈ w.chars, c ≠ Chr.quote
  | .memName n, x => x = Chr.openBracket :: (n ++ [Chr.closeBracket]) ∧ IsName n
  | .memInt v, x => ∃ digits, parseInt digits = some v ∧ x = Chr.openBracket :: (digits ++ [Chr.closeBracket])

theorem lexToken_quote (t : Text) : lexToken (Chr.quote :: t) = lexStr t := by simp [lexToken]

theorem lexToken_openBracket (t : Text) : lexToken (Chr.openBracket :: t) = lexMem t := by
  have hq : Chr.openBracket ≠ Chr.quote := by decide
  simp [lexToken, hq]

theorem lexStr_sound {t rest : Text} {tok : Token} (h : lexStr t = some (tok, rest)) :
    ∃ x, Chr.quote :: t = x ++ rest ∧ tok.SpeltBy x := by
  unfold lexStr at h
  split at h
  case h_1 => cases h
  case h_2 body q rest' hspan =>
    obtain ⟨rfl, hall, hstop⟩ := spanText_spec hspan
    have hq : q = Chr.quote := by simpa using hstop q rest' rfl
    split at h
    case isTrue =>
      simp only [Option.some.injEq, Prod.mk.injEq] at h
      obtain ⟨rfl, rfl⟩ := h
      exact ⟨Chr.quote :: (body ++ [Chr.quote]), by simp [hq], rfl, by simpa using hall⟩
    case isFalse => cases h

theorem lexMem_sound {t rest : Text} {tok : Token} (h : lexMem t = some (tok, rest)) :
    ∃ x, Chr.openBracket :: t = x ++ rest ∧ tok.SpeltBy x := by
  unfold lexMem at h
  split at h
  case h_3 => cases h
  case h_1 n c rest' hatom =>
    obtain ⟨x, rfl, ⟨hname, htok⟩ | ⟨v, -, htok⟩⟩ := lexAtom_sound hatom
    · split at h
      case isTrue hc =>
        simp only [Option.some.injEq, Prod.mk.injEq] at h
        obtain ⟨rfl, rfl⟩ := h
        cases htok
        exact ⟨Chr.openBracket :: (n ++ [Chr.closeBracket]), by simp [hc], rfl, hname⟩
      case isFalse => cases h
    · cases htok
  case h_2 v c rest' hatom =>
    obtain ⟨x, rfl, ⟨-, htok⟩ | ⟨v', hx, htok⟩⟩ := lexAtom_sound hatom
    · cases htok
    · split at h
      case isTrue hc =>
        simp only [Option.some.injEq, Prod.mk.injEq] at h
        obtain ⟨rfl, rfl⟩ := h
        cases htok
        exact ⟨Chr.openBracket :: (x ++ [Chr.closeBracket]), by simp [hc], x, hx, rfl⟩
      case isFalse => cases h

/-- What the decoder takes as a token spells that token. -/
theorem lexToken_sound {t rest : Text} {tok : Token} (h : lexToken t = some (tok, rest)) :
    ∃ x, t = x ++ rest ∧ tok.SpeltBy x := by
  cases t with
  | nil => cases h
  | cons c cs =>
    by_cases hq : c = Chr.quote
    · subst hq
      exact lexStr_sound (lexToken_quote cs ▸ h)
    by_cases hb : c = Chr.openBracket
    · subst hb
      exact lexMem_sound (lexToken_openBracket cs ▸ h)
    simp only [lexToken, if_neg hq, if_neg hb] at h
    obtain ⟨x, ht, ⟨hname, rfl⟩ | ⟨v, hx, rfl⟩⟩ := lexAtom_sound h
    · exact ⟨x, ht, rfl, hname⟩
    · exact ⟨x, ht, hx⟩

/-- A text that spells a token is read as it where no letter or digit follows. -/
theorem lexToken_append {x rest : Text} {tok : Token} (h : tok.SpeltBy x) (hr : StopsRun Chr.isNameChar rest) :
    lexToken (x ++ rest) = some (tok, rest) := by
  have hclose : StopsRun Chr.isNameChar (Chr.closeBracket :: rest) := stopsRun_cons (not_isNameChar (.inr rfl))
  cases tok with
  | name n =>
    obtain ⟨rfl, hn⟩ := h
    have hatom := lexAtom_name hn hr
    obtain ⟨c, cs, rfl, hu, -⟩ := hn
    rw [← hatom]
    exact lexToken_atom (.inl hu)
  | int v =>
    have hatom := lexAtom_parseInt h hr
    obtain ⟨c, cs, rfl, hc⟩ := parseInt_head h
    rw [← hatom]
    exact lexToken_atom (.inr hc)
  | str w =>
    obtain ⟨rfl, hall⟩ := h
    exact lexToken_operand (o := .str w) (by simpa [Operand.spells, validString] using hall) hr
  | memName n =>
    obtain ⟨rfl, hn⟩ := h
    simp only [List.cons_append, List.append_assoc, List.nil_append, lexToken_openBracket, lexMem, lexAtom_name hn hclose,
      if_true]
  | memInt v =>
    obtain ⟨digits, hd, rfl⟩ := h
    simp only [List.cons_append, List.append_assoc, List.nil_append, lexToken_openBracket, lexMem,
      lexAtom_parseInt hd hclose, if_true]

/-! ### Separators -/

theorem isSeparator_iff {c : Chr} : c.isSeparator = true ↔ c.code = 32 ∨ c.code = 9 ∨ c.code = 44 := by
  simp [Chr.isSeparator, or_assoc]

theorem separators_iff {t : Text} : Separators t ↔ ∀ c ∈ t, c.isSeparator = true := by
  simp only [Separators, isSeparator_iff]

theorem separators_append {t u : Text} : Separators (t ++ u) ↔ Separators t ∧ Separators u := List.forall_mem_append

theorem separators_cons {c : Chr} {t : Text} : Separators (c :: t) ↔ c.isSeparator = true ∧ Separators t := by
  simp [separators_iff]

/-- The end of a token as `LaidOut` words it. -/
theorem tokenEnds_iff {rest : Text} :
    tokenEnds rest = true ↔ rest = [] ∨ ∃ c cs, rest = c :: cs ∧ Separators [c] := by
  cases rest with
  | nil => simp [tokenEnds]
  | cons c cs => simp [tokenEnds, separators_iff, and_assoc]

/-- Neither a letter nor a digit follows a token. -/
theorem stopsRun_of_tokenEnds {rest : Text} (h : tokenEnds rest = true) : StopsRun Chr.isNameChar rest := by
  rintro c cs rfl
  exact not_isNameChar (.inl h)

theorem not_isSeparator_of_isNameChar {c : Chr} (h : c.isNameChar = true) : c.isSeparator = false := by
  by_contra hc
  rw [not_isNameChar (.inl (by simpa using hc))] at h
  cases h

/-- No token is empty or begins with a separator. -/
theorem Token.SpeltBy.head {x : Text} {tok : Token} (h : tok.SpeltBy x) :
    ∃ c cs, x = c :: cs ∧ c.isSeparator = false := by
  cases tok with
  | name n =>
    obtain ⟨rfl, c, cs, rfl, -, hall⟩ := h
    exact ⟨c, cs, rfl, not_isSeparator_of_isNameChar (hall c (by simp))⟩
  | int v =>
    obtain ⟨c, cs, rfl, hc | rfl⟩ := parseInt_head h
    · exact ⟨c, cs, rfl, not_isSeparator_of_isNameChar (isDigit_isNameChar hc)⟩
    · exact ⟨_, cs, rfl, by decide⟩
  | str w =>
    obtain ⟨rfl, -⟩ := h
    exact ⟨_, _, rfl, by decide⟩
  | memName n =>
    obtain ⟨rfl, -⟩ := h
    exact ⟨_, _, rfl, by decide⟩
  | memInt v =>
    obtain ⟨digits, -, rfl⟩ := h
    exact ⟨_, _, rfl, by decide⟩

/-! ### Token lists -/

/-- What the tokeniser answers is laid out in the text. -/
theorem tokensFrom_sound {fuel : Nat} {t : Text} {toks : List Token} (h : tokensFrom fuel t = some toks) :
    ∃ texts, List.Forall₂ Token.SpeltBy toks texts ∧ LaidOut texts t := by
  induction fuel generalizing t toks with
  | zero => cases h
  | succ fuel ih =>
    simp only [tokensFrom] at h
    split at h
    case h_1 hdrop =>
      cases h
      exact ⟨[], .nil, separators_iff.2 (List.dropWhile_eq_nil_iff.1 hdrop)⟩
    case h_2 c cs hdrop =>
      split at h
      case h_1 => cases h
      case h_2 tok rest hlex =>
        split at h
        case isFalse => cases h
        case isTrue hend =>
          obtain ⟨toks', htoks', rfl⟩ := Option.map_eq_some_iff.1 h
          obtain ⟨x, hx, hspelt⟩ := lexToken_sound hlex
          obtain ⟨texts, hspelts, hlaid⟩ := ih htoks'
          refine ⟨x :: texts, .cons hspelt hspelts, t.takeWhile Chr.isSeparator, rest, ?_, ?_, tokenEnds_iff.1 hend, hlaid⟩
          · rw [List.append_assoc, ← hx, ← hdrop, List.takeWhile_append_dropWhile]
          · exact separators_iff.2 fun c => List.mem_takeWhile_imp

/-- Separators before a text change nothing of its tokens. -/
theorem tokensFrom_gap {fuel : Nat} {gap t : Text} (h : Separators gap) : tokensFrom fuel (gap ++ t) = tokensFrom fuel t := by
  induction gap with
  | nil => rfl
  | cons c gap ih =>
    obtain ⟨hc, hgap⟩ := separators_cons.1 h
    exact (tokensFrom_separator hc).trans (ih hgap)

/-- With fuel for every character, tokens laid out in a text are what the tokeniser answers. -/
theorem tokensFrom_complete {fuel : Nat} {t : Text} {toks : List Token} {texts : List Text}
    (h : List.Forall₂ Token.SpeltBy toks texts) (hlaid : LaidOut texts t) (hfuel : t.length < fuel) :
    tokensFrom fuel t = some toks := by
  induction h generalizing t fuel with
  | nil =>
    obtain ⟨fuel, rfl⟩ : ∃ k, fuel = k + 1 := ⟨fuel - 1, by omega⟩
    simp only [tokensFrom, List.dropWhile_eq_nil_iff.2 (separators_iff.1 hlaid)]
  | @cons tok x toks texts hspelt hspelts ih =>
    obtain ⟨fuel, rfl⟩ : ∃ k, fuel = k + 1 := ⟨fuel - 1, by omega⟩
    obtain ⟨gap, rest, rfl, hgap, hend, hlaid⟩ := hlaid
    have hend := tokenEnds_iff.2 hend
    have hlex := lexToken_append hspelt (stopsRun_of_tokenEnds hend)
    obtain ⟨c, cs, rfl, hc⟩ := hspelt.head
    have hrest : rest.length < fuel := by simp only [List.length_append, List.length_cons] at hfuel; omega
    rw [List.append_assoc, tokensFrom_gap hgap, List.cons_append,
      tokensFrom_cons (cs := cs ++ rest) hc hlex hend, ih hlaid hrest, Option.map_some]

/-- The tokens of a text are those it is laid out of. -/
theorem tokenise_eq_some_iff {t : Text} {toks : List Token} :
    tokenise t = some toks ↔ ∃ texts, List.Forall₂ Token.SpeltBy toks texts ∧ LaidOut texts t :=
  ⟨tokensFrom_sound, fun ⟨_, hspelt, hlaid⟩ => tokensFrom_complete hspelt hlaid (Nat.lt_succ_self _)⟩

end Sys2Proof
end

section
/-! PROOFS. The form table: two words decode exactly to the instruction whose row their text spells (30_encoding.md R82 to R89,
R98). -/

namespace Sys2Proof

/-! ### Names and operands -/

theorem regOfName_eq_some_iff {t : Text} {r : Reg} : Reg.ofName t = some r ↔ t = r.name :=
  ⟨fun h => (beq_iff_eq.1 (List.find?_some (p := fun r : Reg => r.name == t) h)).symm, fun h => h ▸ ofName_regName r⟩

theorem mnemonicOfName_eq_some_iff {t : Text} {m : Mnemonic} : Mnemonic.ofName t = some m ↔ t = m.name :=
  ⟨fun h => (beq_iff_eq.1 (List.find?_some (p := fun m : Mnemonic => m.name == t) h)).symm,
    fun h => h ▸ ofName_mnemonicName m⟩

/-- The tokens that are an operand: a name only of its register. -/
theorem tokenOperand_eq_some_iff {tok : Token} {o : Operand} : tok.operand = some o ↔ tok = o.token := by
  cases tok <;> cases o <;> simp [Token.operand, Operand.token, regOfName_eq_some_iff]

/-- The text of an operand is the text of its token. -/
theorem operandToken_iff {o : Operand} {x : Text} : OperandToken o x ↔ o.token.SpeltBy x := by
  cases o with
  | reg r => simp [OperandToken, Operand.token, Token.SpeltBy, isName_regName]
  | int v => exact .rfl
  | str w => exact .rfl
  | memReg r => simp [OperandToken, Operand.token, Token.SpeltBy, isName_regName]
  | memInt v => exact .rfl

/-- The operands of a token list are those whose tokens it consists of. -/
theorem operandsOf_eq_some_iff {toks : List Token} {ops : List Operand} :
    operandsOf toks = some ops ↔ toks = ops.map Operand.token := by
  induction toks generalizing ops with
  | nil => cases ops <;> simp [operandsOf]
  | cons tok toks ih =>
    cases ops with
    | nil => simp only [operandsOf]; split <;> simp
    | cons o ops =>
      rw [List.map_cons, List.cons.injEq, ← ih, ← tokenOperand_eq_some_iff]
      simp only [operandsOf]
      cases tok.operand <;> cases operandsOf toks <;> simp

/-! ### Forms -/

section
variable {ops : List Operand} {i j : Instr}

theorem formZ_eq_some (h : formZ i ops = some j) : ops = [] ∧ j = i := by
  unfold formZ at h
  split at h
  · exact ⟨rfl, (Option.some.inj h).symm⟩
  · cases h

theorem formR_eq_some {f : Reg → Instr} (h : formR f ops = some j) : ∃ r, ops = [.reg r] ∧ j = f r := by
  unfold formR at h
  split at h
  · exact ⟨_, rfl, (Option.some.inj h).symm⟩
  · cases h

theorem formRR_eq_some {f : Reg → Reg → Instr} (h : formRR f ops = some j) :
    ∃ ri rj, ops = [.reg ri, .reg rj] ∧ j = f ri rj := by
  unfold formRR at h
  split at h
  · exact ⟨_, _, rfl, (Option.some.inj h).symm⟩
  · cases h

/-- A jump target is an integer that is not negative (R85). -/
theorem targetOf_eq_some {v : Int} {n : Nat} (h : targetOf v = some n) : v = n := by
  unfold targetOf at h
  split at h
  · rw [← Option.some.inj h, Int.toNat_of_nonneg (by assumption)]
  · cases h

theorem formRT_eq_some {f : Reg → Nat → Instr} (h : formRT f ops = some j) :
    ∃ (r : Reg) (n : Nat), ops = [.reg r, .int n] ∧ j = f r n := by
  unfold formRT at h
  split at h
  · obtain ⟨n, hn, rfl⟩ := Option.map_eq_some_iff.1 h
    exact ⟨_, n, by rw [targetOf_eq_some hn], rfl⟩
  · cases h

theorem formT_eq_some {f : Nat → Instr} (h : formT f ops = some j) : ∃ n : Nat, ops = [.int n] ∧ j = f n := by
  unfold formT at h
  split at h
  · obtain ⟨n, hn, rfl⟩ := Option.map_eq_some_iff.1 h
    exact ⟨n, by rw [targetOf_eq_some hn], rfl⟩
  · cases h

/-- INT's number is 1 to 7 (R85). -/
theorem formN_eq_some (h : formN ops = some j) : ∃ n : Nat, ops = [.int n] ∧ j = .int n ∧ 1 ≤ n ∧ n ≤ 7 := by
  unfold formN at h
  split at h
  · split at h
    · rename_i v hv
      rw [← Option.some.inj h]
      exact ⟨v.toNat, by rw [Int.toNat_of_nonneg (by omega)], rfl, by omega, by omega⟩
    · cases h
  · cases h

theorem operandArg_eq_some {o : Operand} {a : Arg} (h : o.arg = some a) : o = a.operand := by
  cases o <;> cases h <;> rfl

theorem formXX_eq_some {f : Arg → Arg → Instr} (h : formXX f ops = some j) :
    ∃ x y : Arg, ops = [x.operand, y.operand] ∧ j = f x y := by
  unfold formXX at h
  split at h
  · split at h
    · rename_i hx hy
      exact ⟨_, _, by rw [operandArg_eq_some hx, operandArg_eq_some hy], (Option.some.inj h).symm⟩
    · cases h
  · cases h

/-- Rows 1 to 11 are the rows of their instructions; of these only a string has a constraint. -/
theorem assembleMov_eq_some (h : assembleMov ops = some i) (hops : ∀ o ∈ ops, o.spells) :
    i.parts = (.MOV, ops) ∧ i.wellFormed = true := by
  unfold assembleMov at h
  split at h <;> cases h
  case h_3 ri w => exact ⟨rfl, hops (.str w) (by simp)⟩
  all_goals exact ⟨rfl, rfl⟩

/-- The row a mnemonic and its operands match is the row of the instruction they give. -/
theorem assemble_eq_some {m : Mnemonic} (h : assemble m ops = some i) (hops : ∀ o ∈ ops, o.spells) :
    i.parts = (m, ops) ∧ i.wellFormed = true := by
  cases m with
  | MOV => exact assembleMov_eq_some h hops
  | ADD | SUB | MUL | DIV | MOD | LT | GT | EQ | NE | GE | LE =>
    obtain ⟨ri, rj, rfl, rfl⟩ := formRR_eq_some h
    exact ⟨rfl, rfl⟩
  | INR | DCR | PUSH | POP | IN | OUT =>
    obtain ⟨r, rfl, rfl⟩ := formR_eq_some h
    exact ⟨rfl, rfl⟩
  | JZ | JNZ =>
    obtain ⟨r, n, rfl, rfl⟩ := formRT_eq_some h
    exact ⟨rfl, rfl⟩
  | JMP | CALL =>
    obtain ⟨n, rfl, rfl⟩ := formT_eq_some h
    exact ⟨rfl, rfl⟩
  | RET | BRKP | END | IRET | HALT =>
    obtain ⟨rfl, rfl⟩ := formZ_eq_some h
    exact ⟨rfl, rfl⟩
  | INT =>
    obtain ⟨n, rfl, rfl, h1, h7⟩ := formN_eq_some h
    exact ⟨rfl, decide_eq_true ⟨h1, h7⟩⟩
  | LOAD | STORE =>
    obtain ⟨x, y, rfl, rfl⟩ := formXX_eq_some h
    exact ⟨rfl, rfl⟩

end

/-- A well-formed instruction is assembled from its row (R86). -/
theorem assemble_parts {i : Instr} (h : i.wellFormed = true) : assemble i.parts.1 i.parts.2 = some i := by
  cases i with
  | int n => exact Laws.Assembles.int n h
  | jz r n => exact Laws.Assembles.jz r n h
  | jnz r n => exact Laws.Assembles.jnz r n h
  | jmp n => exact Laws.Assembles.jmp n h
  | call n => exact Laws.Assembles.call n h
  | load x y => exact Laws.Assembles.load x y h
  | store x y => exact Laws.Assembles.store x y h
  | _ => rfl

/-- The operands of a well-formed instruction have texts. -/
theorem spells_of_wellFormed {i : Instr} (h : i.wellFormed = true) : ∀ o ∈ i.parts.2, o.spells := by
  have hargs : ∀ a : Arg, a.operand.spells := fun a => by cases a <;> trivial
  cases i with
  | movRS ri w => exact List.forall_mem_cons.2 ⟨trivial, List.forall_mem_singleton.2 h⟩
  | load x y | store x y => simp [Instr.parts, hargs]
  | _ => simp [Instr.parts, Operand.spells]

/-- A string token holds no quote, so an operand that a text spells is one that can be spelt. -/
theorem spells_of_operandToken {o : Operand} {x : Text} (h : OperandToken o x) : o.spells := by
  cases o with
  | str w => simpa [Operand.spells, validString] using h.2
  | _ => trivial

theorem spells_of_operandTokens {ops : List Operand} {texts : List Text} (h : List.Forall₂ OperandToken ops texts) :
    ∀ o ∈ ops, o.spells := by
  induction h with
  | nil => exact nofun
  | cons ho _ ih => exact List.forall_mem_cons.2 ⟨spells_of_operandToken ho, ih⟩

/-! ### The decoder -/

/-- The tokens that spell an instruction: the mnemonic of its row, then the tokens of its operands (R84, R88). -/
theorem parseTokens_eq_some_iff {toks : List Token} {i : Instr} :
    parseTokens toks = some i
      ↔ ∃ (m : Mnemonic) (ops : List Operand), toks = .name m.name :: ops.map Operand.token ∧ assemble m ops = some i := by
  constructor
  · intro h
    unfold parseTokens at h
    split at h
    · split at h
      · rename_i m ops hm hops
        rw [mnemonicOfName_eq_some_iff] at hm
        rw [operandsOf_eq_some_iff] at hops
        exact ⟨m, ops, by rw [hm, hops], h⟩
      · cases h
    · cases h
  · rintro ⟨m, ops, rfl, h⟩
    simp only [parseTokens, ofName_mnemonicName, operandsOf_eq_some_iff.2 rfl, h]

theorem decode_eq_some_iff_tokenise {t : Text} {i : Instr} :
    decode t = some i ↔ ∃ toks, tokenise t = some toks ∧ parseTokens toks = some i := by
  unfold decode
  cases tokenise t <;> simp

/-- The tokens of an instruction's row stand in a text exactly where the text spells the instruction. -/
theorem spells_iff {t : Text} {i : Instr} :
    Spells i t ↔ tokenise t = some (.name i.parts.1.name :: i.parts.2.map Operand.token) := by
  simp only [Spells, tokenise_eq_some_iff, List.forall₂_cons_left_iff, List.forall₂_map_left_iff, ← operandToken_iff]
  constructor
  · rintro ⟨operands, hops, hlaid⟩
    exact ⟨_, ⟨_, operands, ⟨rfl, isName_mnemonicName _⟩, hops, rfl⟩, hlaid⟩
  · rintro ⟨_, ⟨_, operands, ⟨rfl, -⟩, hops, rfl⟩, hlaid⟩
    exact ⟨operands, hops, hlaid⟩

/-- A text decodes to an instruction exactly where it spells it and the instruction's literals satisfy R85. -/
theorem decode_eq_some_iff {t : Text} {i : Instr} : decode t = some i ↔ Spells i t ∧ i.wellFormed = true := by
  rw [decode_eq_some_iff_tokenise]
  constructor
  · rintro ⟨toks, htoks, hparse⟩
    obtain ⟨m, ops, rfl, hasm⟩ := parseTokens_eq_some_iff.1 hparse
    have hops : ∀ o ∈ ops, o.spells := by
      obtain ⟨texts, hspelt, -⟩ := tokenise_eq_some_iff.1 htoks
      obtain ⟨_, operands, -, hoperands, -⟩ := List.forall₂_cons_left_iff.1 hspelt
      rw [List.forall₂_map_left_iff] at hoperands
      exact spells_of_operandTokens (hoperands.imp fun _ _ => operandToken_iff.2)
    obtain ⟨hparts, hwf⟩ := assemble_eq_some hasm hops
    exact ⟨spells_iff.2 (by rw [hparts]; exact htoks), hwf⟩
  · rintro ⟨hspells, hwf⟩
    exact ⟨_, spells_iff.1 hspells, parseTokens_eq_some_iff.2 ⟨_, _, rfl, assemble_parts hwf⟩⟩

/-- Settles O3, which is `decode_eq_some_iff` of the two words' text. -/
theorem decodesExactlyItsFormTable : Obligations.DecodesExactlyItsFormTable := fun _ _ _ => decode_eq_some_iff

/-- Whatever decodes is well formed. -/
theorem wellFormed_of_decodeWords {w0 w1 : Word} {i : Instr} (h : decodeWords w0 w1 = some i) : i.wellFormed = true :=
  (decode_eq_some_iff.1 h).2

/-! ### The canonical encoding -/

/-- The canonical text of an operand is a token of it. -/
theorem operandToken_text {o : Operand} (h : o.spells) : OperandToken o o.text := by
  cases o with
  | reg r => rfl
  | int v => exact parseInt_intText v
  | str w => exact ⟨rfl, by simpa [Operand.spells, validString] using h⟩
  | memReg r => rfl
  | memInt v => exact ⟨_, parseInt_intText v, rfl⟩

/-- What stands between two operands is separators, and something. -/
theorem separators_operandGap (indexed : Bool) (o : Operand) :
    Separators (operandGap indexed o) ∧ ∃ c cs, operandGap indexed o = c :: cs := by
  have hcomma : Separators (txt ", ") ∧ ∃ c cs, txt ", " = c :: cs := ⟨separators_iff.2 (by decide), _, _, rfl⟩
  have hspace : Separators (txt " ") ∧ ∃ c cs, txt " " = c :: cs := ⟨separators_iff.2 (by decide), _, _, rfl⟩
  cases o with
  | memInt v => cases indexed with
    | true => exact hspace
    | false => exact hcomma
  | _ => exact hcomma

/-- A text that begins with separators, then tokens, may follow a token. -/
theorem laidOut_cons {token gap t : Text} {tokens : List Text} (hgap : Separators gap) (hne : ∃ c cs, gap = c :: cs)
    (h : LaidOut tokens (gap ++ t)) : LaidOut (token :: tokens) (token ++ (gap ++ t)) := by
  obtain ⟨c, cs, rfl⟩ := hne
  refine ⟨[], _, rfl, nofun, .inr ⟨c, cs ++ t, rfl, ?_⟩, h⟩
  exact separators_cons.2 ⟨(separators_cons.1 hgap).1, nofun⟩

/-- Separators before tokens laid out are one more gap. -/
theorem laidOut_gap {gap t : Text} {tokens : List Text} (hgap : Separators gap) (h : LaidOut tokens t) :
    LaidOut tokens (gap ++ t) := by
  cases tokens with
  | nil => exact separators_append.2 ⟨hgap, h⟩
  | cons token tokens =>
    obtain ⟨gap', rest, rfl, hgap', hend, hlaid⟩ := h
    exact ⟨gap ++ gap', rest, by simp, separators_append.2 ⟨hgap, hgap'⟩, hend, hlaid⟩

/-- The operands of a row, written canonically, are laid out. -/
theorem laidOut_operandsText (indexed : Bool) (ops : List Operand) :
    LaidOut (ops.map Operand.text) (operandsText indexed ops) := by
  fun_induction operandsText indexed ops with
  | case1 => exact nofun
  | case2 o => exact ⟨[], [], by simp, nofun, .inl rfl, nofun⟩
  | case3 o os hos ih =>
    obtain ⟨hgap, hne⟩ := separators_operandGap indexed o
    rw [List.map_cons, List.append_assoc]
    exact laidOut_cons hgap hne (laidOut_gap hgap ih)

/-- The canonical text of a well-formed instruction spells it. -/
theorem spells_text {i : Instr} (h : i.wellFormed = true) : Spells i i.text := by
  refine ⟨i.parts.2.map Operand.text, ?_, ?_⟩
  · exact List.forall₂_map_right_iff.2 (List.forall₂_same.2 fun o ho => operandToken_text (spells_of_wellFormed h o ho))
  · unfold Instr.text
    split
    · rename_i m hparts
      rw [hparts]
      exact ⟨[], [], by simp, nofun, .inl rfl, nofun⟩
    · rename_i m o os hparts
      rw [hparts, List.append_assoc]
      have hspace : Separators (txt " ") := separators_iff.2 (by decide)
      exact laidOut_cons hspace ⟨_, _, rfl⟩ (laidOut_gap hspace (laidOut_operandsText _ _))

/-- A text of at most 30 characters is what the two words of its encoding hold (R82). -/
theorem encode_chars {i : Instr} (h : i.text.length ≤ 30) : (encode i).1.chars ++ (encode i).2.chars = i.text := by
  have hrest : (i.text.drop 15).length ≤ 15 := by rw [List.length_drop]; omega
  exact (congrArg (i.text.take 15 ++ ·) (chars_clip hrest)).trans (List.take_append_drop 15 i.text)

/-- Settles O2: the two words hold the canonical text, and that spells the instruction. -/
theorem decodeReadsBackEncode : Obligations.DecodeReadsBackEncode := by
  intro i h
  obtain ⟨hwf, hlen⟩ : i.wellFormed = true ∧ i.text.length ≤ 30 := by simpa [Instr.encodable] using h
  rw [decodeWords, encode_chars hlen]
  exact decode_eq_some_iff.2 ⟨spells_text hwf, hwf⟩

/-! ### Samples -/

/-- Settles O1: the decoder evaluated on each text. -/
theorem sampleTextsDecode : Obligations.SampleTextsDecode := by
  unfold Obligations.SampleTextsDecode
  decide

/-! ### Separators -/

/-- Two texts that differ only in which separators they have. -/
def SameUpToSeparators : Text → Text → Prop :=
  List.Forall₂ fun c d => c = d ∨ (c.isSeparator = true ∧ d.isSeparator = true)

/-- The text of an integer has no separator. -/
theorem not_isSeparator_of_parseInt {x : Text} {v : Int} (h : parseInt x = some v) : ∀ c ∈ x, c.isSeparator = false := by
  obtain ⟨ds, hd, hx⟩ := Machine.parseInt_eq_some_iff.1 ⟨v, h⟩
  have hds : ∀ c ∈ ds, c.isSeparator = false := fun c hc =>
    not_isSeparator_of_isNameChar (isDigit_isNameChar (Machine.isDigit_iff.2 ((Machine.isDigits_iff.1 hd).2 c hc)))
  rcases hx with rfl | rfl
  · exact hds
  · exact List.forall_mem_cons.2 ⟨by decide, hds⟩

theorem not_isSeparator_of_isName {x : Text} (h : IsName x) : ∀ c ∈ x, c.isSeparator = false := by
  obtain ⟨c, cs, rfl, -, hall⟩ := h
  exact fun d hd => not_isSeparator_of_isNameChar (hall d hd)

/-- Brackets add no separator. -/
theorem not_isSeparator_bracketed {x : Text} (h : ∀ c ∈ x, c.isSeparator = false) :
    ∀ c ∈ Chr.openBracket :: (x ++ [Chr.closeBracket]), c.isSeparator = false :=
  List.forall_mem_cons.2 ⟨by decide, List.forall_mem_append.2 ⟨h, by decide⟩⟩

/-- An operand that is no string has no separator in its text. -/
theorem not_isSeparator_of_operandToken {o : Operand} {x : Text} (h : OperandToken o x) (hq : ∀ c ∈ x, c ≠ Chr.quote) :
    ∀ c ∈ x, c.isSeparator = false := by
  cases o with
  | reg r => exact h ▸ not_isSeparator_of_isName (isName_regName r)
  | int v => exact not_isSeparator_of_parseInt h
  | str w => exact absurd rfl (hq Chr.quote (h.1 ▸ List.mem_cons_self))
  | memReg r => exact h ▸ not_isSeparator_bracketed (not_isSeparator_of_isName (isName_regName r))
  | memInt v =>
    obtain ⟨digits, hd, rfl⟩ := h
    exact not_isSeparator_bracketed (not_isSeparator_of_parseInt hd)

/-- The tokens of a text without quotes have no separators. -/
theorem not_isSeparator_of_operandTokens {ops : List Operand} {texts : List Text} (h : List.Forall₂ OperandToken ops texts)
    (hq : ∀ x ∈ texts, ∀ c ∈ x, c ≠ Chr.quote) : ∀ x ∈ texts, ∀ c ∈ x, c.isSeparator = false := by
  induction h with
  | nil => exact nofun
  | cons ho _ ih =>
    obtain ⟨hx, htexts⟩ := List.forall_mem_cons.1 hq
    exact List.forall_mem_cons.2 ⟨not_isSeparator_of_operandToken ho hx, ih htexts⟩

/-- The characters of the tokens laid out in a text are characters of the text. -/
theorem LaidOut.subset {tokens : List Text} {t : Text} (h : LaidOut tokens t) : ∀ x ∈ tokens, x ⊆ t := by
  induction tokens generalizing t with
  | nil => exact nofun
  | cons token tokens ih =>
    obtain ⟨gap, rest, rfl, -, -, hlaid⟩ := h
    refine List.forall_mem_cons.2 ⟨fun c hc => by simp [hc], fun x hx c hc => ?_⟩
    simp [ih hlaid x hx hc]

section
variable {t u : Text}

theorem SameUpToSeparators.separators (h : SameUpToSeparators u t) (ht : Separators t) : Separators u := by
  induction h with
  | nil => exact ht
  | cons hcd _ ih =>
    obtain ⟨hd, ht⟩ := separators_cons.1 ht
    exact separators_cons.2 ⟨hcd.elim (fun heq => heq ▸ hd) And.left, ih ht⟩

/-- A text without separators differs from no other text by its separators only. -/
theorem SameUpToSeparators.eq_of_not_isSeparator (h : SameUpToSeparators u t) (ht : ∀ c ∈ t, c.isSeparator = false) :
    u = t := by
  induction h with
  | nil => rfl
  | cons hcd _ ih =>
    obtain ⟨hd, hrest⟩ := List.forall_mem_cons.1 ht
    rcases hcd with rfl | ⟨-, hsep⟩
    · rw [ih hrest]
    · rw [hd] at hsep; cases hsep

theorem SameUpToSeparators.tokenEnds (h : SameUpToSeparators u t) (ht : tokenEnds t = true) : tokenEnds u = true := by
  cases h with
  | nil => rfl
  | cons hcd _ => exact hcd.elim (fun heq => heq ▸ ht) And.left

theorem SameUpToSeparators.append {t' : Text} (h : SameUpToSeparators u (t ++ t')) :
    ∃ v v', u = v ++ v' ∧ SameUpToSeparators v t ∧ SameUpToSeparators v' t' :=
  ⟨_, _, (List.take_append_drop t.length u).symm, List.forall₂_take_append u t t' h, List.forall₂_drop_append u t t' h⟩

/-- Tokens without separators are laid out in a text whatever separators it has. -/
theorem SameUpToSeparators.laidOut {tokens : List Text} (h : SameUpToSeparators u t)
    (hplain : ∀ x ∈ tokens, ∀ c ∈ x, c.isSeparator = false) (hlaid : LaidOut tokens t) : LaidOut tokens u := by
  induction tokens generalizing t u with
  | nil => exact h.separators hlaid
  | cons token tokens ih =>
    obtain ⟨htoken, htokens⟩ := List.forall_mem_cons.1 hplain
    obtain ⟨gap, rest, rfl, hgap, hend, hlaid⟩ := hlaid
    obtain ⟨front, rest', rfl, hfront, hrest⟩ := h.append
    obtain ⟨gap', token', rfl, hgap', htoken'⟩ := hfront.append
    rw [htoken'.eq_of_not_isSeparator htoken]
    exact ⟨gap', rest', rfl, hgap'.separators hgap, tokenEnds_iff.1 (hrest.tokenEnds (tokenEnds_iff.2 hend)),
      ih hrest htokens hlaid⟩

/-- Which separators a text without quotes has is no matter to what it spells. -/
theorem SameUpToSeparators.spells {i : Instr} (h : SameUpToSeparators u t) (hq : ∀ c ∈ t, c ≠ Chr.quote)
    (hi : Spells i t) : Spells i u := by
  obtain ⟨operands, hops, hlaid⟩ := hi
  obtain ⟨-, hsub⟩ := List.forall_mem_cons.1 hlaid.subset
  have hplain := not_isSeparator_of_operandTokens hops fun x hx c hc => hq c (hsub x hx hc)
  have hname := not_isSeparator_of_isName (isName_mnemonicName i.parts.1)
  exact ⟨operands, hops, h.laidOut (List.forall_mem_cons.2 ⟨hname, hplain⟩) hlaid⟩

end

/-- The text with every separator replaced by a space. -/
def spaced (t : Text) : Text := t.map fun c => if c.isSeparator then Chr.ofNat 32 else c

theorem spaced_same (t : Text) : SameUpToSeparators (spaced t) t ∧ SameUpToSeparators t (spaced t) := by
  have hspace : (Chr.ofNat 32).isSeparator = true := by decide
  simp only [SameUpToSeparators, spaced, List.forall₂_map_left_iff, List.forall₂_map_right_iff, List.forall₂_same]
  refine ⟨fun c _ => ?_, fun c _ => ?_⟩ <;> cases hc : c.isSeparator <;> simp [hc, hspace]

theorem spaced_ne_quote {t : Text} (hq : ∀ c ∈ t, c ≠ Chr.quote) : ∀ c ∈ spaced t, c ≠ Chr.quote := by
  have hspace : Chr.ofNat 32 ≠ Chr.quote := by decide
  refine List.forall_mem_map.2 fun c hc => ?_
  split
  · exact hspace
  · exact hq c hc

theorem decode_spaced {t : Text} (hq : ∀ c ∈ t, c ≠ Chr.quote) : decode (spaced t) = decode t := by
  obtain ⟨hto, hfrom⟩ := spaced_same t
  refine Option.ext fun i => ?_
  rw [decode_eq_some_iff, decode_eq_some_iff]
  exact and_congr_left' ⟨hfrom.spells (spaced_ne_quote hq), hto.spells hq⟩

/-- One more separator before a text changes nothing of its tokens: the tokeniser skips it, with fuel to spare. -/
theorem tokenise_separator_cons {c : Chr} (t : Text) (hc : c.isSeparator = true) : tokenise (c :: t) = tokenise t := by
  refine Option.ext fun toks => ?_
  rw [tokenise, tokensFrom_separator hc]
  refine ⟨fun h => tokenise_eq_some_iff.2 (tokensFrom_sound h), fun h => ?_⟩
  obtain ⟨texts, hspelt, hlaid⟩ := tokenise_eq_some_iff.1 h
  exact tokensFrom_complete hspelt hlaid (by simp only [List.length_cons]; omega)

/-- Settles O4. -/
theorem separatorsCarryNoMeaning : Obligations.SeparatorsCarryNoMeaning :=
  ⟨fun _ hq => decode_spaced hq, fun _ t hc => by simp only [decode, tokenise_separator_cons t hc]⟩

end Sys2Proof
end

section
/-! PROOFS. Legality: the illegal uses of instructions and registers, one by one (30_encoding.md R90 to R94). -/

namespace Sys2Proof.Machine

/-- The privileged instructions are IRET, HALT, LOAD and STORE (R90). -/
theorem privileged_iff {i : Instr} :
    privileged i = true ↔ i ∈ [Instr.iret, .halt] ∨ ∃ x y, i = .load x y ∨ i = .store x y := by
  cases i <;> simp [privileged]

/-- The registers of user mode are R0 to R7, SP and BP (R91). -/
theorem userRegister_iff {r : Reg} : userRegister r = true ↔ r ∈ (List.finRange 8).map Reg.r ++ [Reg.sp, .bp] := by
  cases r <;> simp [userRegister]

/-- An argument of LOAD or STORE only reads its register. -/
theorem access_of_argUses {a : Arg} {u : Access × Reg} (h : u ∈ argUses a) : u.1 = .read := by
  cases a with
  | reg r => rw [List.mem_singleton.1 h]
  | lit v => cases h

/-- Only PUSH has its register in the pushed position (R94). -/
theorem pushed_mem_regUses_iff {i : Instr} {r : Reg} : (Access.pushed, r) ∈ regUses i ↔ i = .push r := by
  have harg : ∀ a : Arg, (Access.pushed, r) ∉ argUses a := fun a h => nomatch access_of_argUses h
  cases i with
  | push ri => simp [regUses, eq_comm]
  | load x y | store x y => simp [regUses, harg]
  | _ => simp [regUses]

/-- The uses kernel mode forbids: IP or EFR written or an address, and IP pushed (R92, R93). -/
theorem kernelUse_eq_false_iff {a : Access} {r : Reg} :
    kernelUse a r = false ↔ ((a = .write ∨ a = .address) ∧ (r = .ip ∨ r = .efr)) ∨ a = .pushed ∧ r = .ip := by
  cases a <;> simp [kernelUse, or_iff_not_imp_left]

/-- What kernel mode forbids user mode forbids too, since neither IP nor EFR is one of its registers. -/
theorem kernelUse_of_userRegister {a : Access} {r : Reg} (h : userRegister r = true) : kernelUse a r = true := by
  obtain ⟨hip, hefr⟩ := userRegister_ne h
  cases a <;> simp [kernelUse, hip, hefr]

/-- An instruction is illegal by R90 or R91, in user mode, or by R92 or R93, in either. -/
theorem legalIn_eq_false_iff {m : Mode} {i : Instr} :
    legalIn m i = false
      ↔ (m = .user ∧ privileged i = true) ∨ (m = .user ∧ ∃ u ∈ regUses i, userRegister u.2 = false)
        ∨ ∃ u ∈ regUses i, kernelUse u.1 u.2 = false := by
  cases m with
  | kernel => simp [legalIn]
  | user =>
    have hkernel : (∃ u ∈ regUses i, kernelUse u.1 u.2 = false) → ∃ u ∈ regUses i, userRegister u.2 = false := by
      rintro ⟨u, hu, hk⟩
      refine ⟨u, hu, ?_⟩
      by_contra hr
      rw [kernelUse_of_userRegister (by simpa using hr)] at hk
      cases hk
    simp only [true_and, or_iff_left_of_imp hkernel, legalIn, Bool.and_eq_false_iff, Bool.not_eq_false', List.all_eq_false,
      Bool.not_eq_true]

/-- The uses that R92 and R93 forbid in an instruction. -/
theorem exists_kernelUse_false_iff {i : Instr} :
    (∃ u ∈ regUses i, kernelUse u.1 u.2 = false)
      ↔ (∃ u ∈ regUses i, (u.1 = .write ∨ u.1 = .address) ∧ (u.2 = .ip ∨ u.2 = .efr)) ∨ i = .push .ip := by
  constructor
  · rintro ⟨⟨a, r⟩, hu, hk⟩
    rcases kernelUse_eq_false_iff.1 hk with hk | ⟨rfl, rfl⟩
    · exact .inl ⟨(a, r), hu, hk⟩
    · exact .inr (pushed_mem_regUses_iff.1 hu)
  · rintro (⟨u, hu, hk⟩ | rfl)
    · exact ⟨u, hu, kernelUse_eq_false_iff.2 (.inl hk)⟩
    · exact ⟨(.pushed, .ip), pushed_mem_regUses_iff.2 rfl, rfl⟩

/-- Settles O38: the legality checks stand before every instruction's body, and fail exactly on the uses listed. -/
theorem illegalUseRaisesIllegalInstruction : Obligations.IllegalUseRaisesIllegalInstruction := by
  intro i s illegal hillegal
  have hiff : illegal ↔ legalIn s.mode i = false := by
    rw [hillegal, legalIn_eq_false_iff, exists_kernelUse_false_iff, privileged_iff]
    simp only [← Bool.not_eq_true, userRegister_iff]
  obtain ⟨body, hbody⟩ := exec_eq_checked i s
  refine ⟨fun h => ?_, fun h => by simpa [hiff] using h⟩
  rw [RaisesFrom, hbody, checked_of_illegal body (hiff.1 h)]

end Sys2Proof.Machine
end

section
/-! PROOFS. The instruction cycle: what the fetch reads, and what a step makes of it (30_encoding.md R81, R95). -/

namespace Sys2Proof.Machine

section
variable {s s1 s2 : State} {p0 p1 : Nat} {x : Exn}

/-- A read of a translated address is of the memory the translation leaves. -/
theorem memRead_of_translated {a : Int} (h : translateAddr a s = .ok p0 s1) : memRead a s = .ok (s1.mem.read p0) s1 :=
  memRead_eq_ok.2 ⟨p0, h, rfl⟩

/-- An exception of a translation is raised in the state before it. -/
theorem memRead_of_raise {a : Int} {u : State} (h : translateAddr a s = .raise x u) : memRead a s = .raise x s := by
  obtain ⟨rfl, -⟩ := translateAddr_eq_raise h
  exact memRead_eq_raise.2 h

/-- A translation leaves IP. -/
theorem translateAddr_ip {a : Int} (h : translateAddr a s = .ok p0 s1) : s1.ip = s.ip := by rw [translateAddr_changes h]

/-- After its first word a fetch has only the second to read. -/
theorem fetch_of_first (h0 : translateAddr s.ip s = .ok p0 s1) :
    fetch s = (memRead (s.ip + 1) s1).bind fun w1 t => .ok (s1.mem.read p0, w1) t := by
  rw [fetch, memRead_of_translated h0, bind_ok, translateAddr_ip h0]

theorem fetch_of_translated (h0 : translateAddr s.ip s = .ok p0 s1) (h1 : translateAddr (s.ip + 1) s1 = .ok p1 s2) :
    fetch s = .ok (s1.mem.read p0, s2.mem.read p1) s2 := by
  rw [fetch_of_first h0, memRead_of_translated h1, bind_ok]

theorem fetch_of_first_raise {u : State} (h0 : translateAddr s.ip s = .raise x u) : fetch s = .raise x s := by
  rw [fetch, memRead_of_raise h0, bind_raise]

theorem fetch_of_second_raise {u : State} (h0 : translateAddr s.ip s = .ok p0 s1)
    (h1 : translateAddr (s.ip + 1) s1 = .raise x u) : fetch s = .raise x s1 := by
  rw [fetch_of_first h0, memRead_of_raise h1, bind_raise]

/-- In kernel mode the addresses of memory are physical. -/
theorem translateAddr_kernel_natCast {a : Nat} (hm : s.mode = .kernel) (ha : a ≤ 32767) :
    translateAddr a s = .ok a s := by
  rw [translateAddr_kernel hm, if_pos (by omega), Int.toNat_natCast]

end

/-- Settles O51. -/
theorem fetchReadsTwoWords : Obligations.FetchReadsTwoWords := by
  refine ⟨fun s a hm hip ha => ?_, fun s s1 s2 p0 p1 => fetch_of_translated, fun s x u => fetch_of_first_raise,
    fun s s1 p0 x u => fetch_of_second_raise⟩
  have h0 := translateAddr_kernel_natCast (a := a) hm (by omega)
  have h1 := translateAddr_kernel_natCast (a := a + 1) hm (by omega)
  rw [Nat.cast_add_one] at h1
  rw [← hip] at h0 h1
  exact fetch_of_translated h0 h1

section
variable {dec : Decoder} {s u : State}

/-- Where the timer is not due a running machine fetches and executes, and counts. -/
theorem stepWith_of_not_due (hrun : s.status = .running) (hdue : timerDue s = false) :
    stepWith dec s = countStep s.mode (fetchExecute dec s) := by
  simp only [stepWith, hrun, runningStep, hdue, Bool.false_eq_true, if_false]

theorem fetchExecute_of_decoded {w0 w1 : Word} {i : Instr} (hfetch : fetch s = .ok (w0, w1) u) (hdec : dec w0 w1 = some i) :
    fetchExecute dec s = exec i u := by
  simp only [fetchExecute, hfetch, hdec]

theorem fetchExecute_of_undecoded {w0 w1 : Word} (hfetch : fetch s = .ok (w0, w1) u) (hdec : dec w0 w1 = none) :
    fetchExecute dec s = raiseException .illegalInstruction u := by
  simp only [fetchExecute, hfetch, hdec]

theorem fetchExecute_of_raise {x : Exn} (hfetch : fetch s = .raise x u) : fetchExecute dec s = raiseException x u := by
  simp only [fetchExecute, hfetch]

theorem fetchExecute_of_refuse {r : Refusal} (hfetch : fetch s = .refuse r) : fetchExecute dec s = .refused r := by
  simp only [fetchExecute, hfetch]

/-- There is nothing to count where there is no step. -/
theorem countStep_refused (m : Mode) (r : Refusal) : countStep m (.refused r) = .refused r := by cases m <;> rfl

end

/-- Settles O50, by what the fetch answers. -/
theorem stepRunsDecodedInstruction : Obligations.StepRunsDecodedInstruction := by
  refine ⟨fun dec s u hrun hdue => ?_, fun s => rfl⟩
  rw [stepWith_of_not_due hrun hdue]
  refine ⟨fun w0 w1 hfetch => ⟨fun i hdec => ?_, fun hdec => ?_⟩, fun x hfetch => ?_, fun r hfetch => ?_⟩
  · rw [fetchExecute_of_decoded hfetch hdec]
  · rw [fetchExecute_of_undecoded hfetch hdec]
  · rw [fetchExecute_of_raise hfetch]
  · rw [fetchExecute_of_refuse hfetch, countStep_refused]

end Sys2Proof.Machine
end

section
/-! PROOFS. The invariant: every step keeps it, and the configuration (10_state.md R39, 30_encoding.md R95, 60_exceptions.md
R206). -/

namespace Sys2Proof.Machine

/-! ### What a part of a step keeps -/

/-- IP is an integer that a word can hold. -/
def IpFitsWord (s : State) : Prop := wordIntMin ≤ s.ip ∧ s.ip ≤ wordIntMax

/-- A machine that HALT or an exception has halted is in kernel mode, and no page fault has halted it. -/
def HaltsInKernel (s : State) : Prop :=
  (∀ c, s.status = .halted (.exception c) → s.mode = .kernel ∧ c ≠ .pageFault) ∧ (s.status = .halted .halt → s.mode = .kernel)

/-- The timer count is not past its interval. -/
def TimerInTime (s : State) : Prop := ∀ n, s.cfg.timerInterval = some n → s.timerCount ≤ n

theorem inv_iff {s : State} :
    s.Inv ↔ (Memory.wf memWords s.mem ∧ Memory.wf diskWords s.disk) ∧ IpFitsWord s ∧ TimerInTime s ∧ HaltsInKernel s := by
  simp only [State.Inv, IpFitsWord, TimerInTime, HaltsInKernel, and_assoc]

theorem haltsInKernel_of_running {s : State} (h : s.status = .running) : HaltsInKernel s := by
  simp [HaltsInKernel, h]

/-- From `s` to `t` the machine keeps what the invariant says but for the timer, whose count is only changed between
instructions. -/
structure InvKept (s t : State) : Prop where
  wf : Memory.wf memWords s.mem ∧ Memory.wf diskWords s.disk → Memory.wf memWords t.mem ∧ Memory.wf diskWords t.disk
  ip : IpFitsWord s → IpFitsWord t
  halts : s.status = .running → HaltsInKernel t
  timerCount : t.timerCount = s.timerCount
  cfg : t.cfg = s.cfg

section
variable {s u t : State}

theorem InvKept.inv (h : InvKept s t) (hs : s.Inv) (hrun : s.status = .running) : t.Inv := by
  obtain ⟨hwf, hip, htimer, -⟩ := inv_iff.1 hs
  refine inv_iff.2 ⟨h.wf hwf, h.ip hip, ?_, h.halts hrun⟩
  rw [TimerInTime, h.cfg, h.timerCount]
  exact htimer

/-- What an ordinary instruction leaves unchanged is all of the invariant but IP's range. -/
theorem Kept.invKept (h : Kept s t) (hip : IpFitsWord s → IpFitsWord t) : InvKept s t where
  wf := fun ⟨hmem, hdisk⟩ => ⟨h.wf hmem, h.disk ▸ hdisk⟩
  ip := hip
  halts hrun := haltsInKernel_of_running (h.status.trans hrun)
  timerCount := h.timerCount
  cfg := h.cfg

theorem Effect.invKept (h : Effect s t) : InvKept s t := h.1.invKept fun _ => h.2

/-- Entering the kernel at a vector. -/
theorem Kept.invKept_enter (h : Kept s u) {v : Int} (hv : wordIntMin ≤ v ∧ v ≤ wordIntMax) :
    InvKept s { u with mode := .kernel, ip := v } where
  wf := fun ⟨hmem, hdisk⟩ => ⟨h.wf hmem, h.disk ▸ hdisk⟩
  ip _ := hv
  halts hrun := haltsInKernel_of_running (h.status.trans hrun)
  timerCount := h.timerCount
  cfg := h.cfg

theorem RefBits.ip_eq (h : RefBits s u) : u.ip = s.ip := by rw [h.rest]

theorem RefBits.mode_eq (h : RefBits s u) : u.mode = s.mode := h.kept.mode

/-- What follows the setting of reference bits may be counted from before it. -/
theorem RefBits.invKept_trans (hu : RefBits s u) (h : InvKept u t) : InvKept s t where
  wf := fun ⟨hmem, hdisk⟩ => h.wf ⟨hu.wf hmem, hu.kept.disk ▸ hdisk⟩
  ip hs := h.ip (by rwa [IpFitsWord, hu.ip_eq])
  halts hrun := h.halts (hu.kept.status.trans hrun)
  timerCount := h.timerCount.trans hu.kept.timerCount
  cfg := h.cfg.trans hu.kept.cfg

theorem InvKept.refl (s : State) : InvKept s s := (RefBits.refl s).kept.invKept id

theorem InvKept.advance (h : InvKept s t) : InvKept s t.advance where
  wf hwf := by simpa using h.wf hwf
  ip _ := advance_bounds t
  halts hrun := by simpa [HaltsInKernel] using h.halts hrun
  timerCount := by simpa using h.timerCount
  cfg := by simpa using h.cfg

/-! ### Exceptions -/

/-- In user mode an exception enters the kernel at the handler (60_exceptions.md R205). -/
theorem takeException_user (e : Exn) (hm : s.mode = .user) :
    (takeException e s).ip = exceptionVector ∧ (takeException e s).status = s.status := by
  simp [takeException, hm]

/-- In kernel mode it halts the machine, and IP stays (R206). -/
theorem takeException_kernel (e : Exn) (hm : s.mode = .kernel) :
    (takeException e s).ip = s.ip ∧ (takeException e s).status = .halted (.exception e.cause) := by
  simp [takeException, hm]

theorem cause_eq_pageFault {e : Exn} (h : e.cause = .pageFault) : ∃ lpn, e = .pageFault lpn := by
  cases e with
  | pageFault lpn => exact ⟨lpn, rfl⟩
  | _ => cases h

/-- An exception keeps the invariant: one that halts the machine is taken in kernel mode, and is no page fault. -/
theorem invKept_takeException {e : Exn} (he : s.mode = .kernel → ∀ lpn, e ≠ .pageFault lpn) :
    InvKept s (takeException e s) where
  wf hwf := by simpa using hwf
  ip hs := by
    cases hm : s.mode with
    | user =>
      rw [IpFitsWord, (takeException_user e hm).1]
      decide
    | kernel => rwa [IpFitsWord, (takeException_kernel e hm).1]
  halts hrun := by
    cases hm : s.mode with
    | user => exact haltsInKernel_of_running ((takeException_user e hm).2.trans hrun)
    | kernel =>
      rw [HaltsInKernel, (takeException_kernel e hm).2]
      refine ⟨fun c hc => ⟨takeException_mode s e, ?_⟩, nofun⟩
      rintro rfl
      injection hc with hc
      injection hc with hc
      obtain ⟨lpn, rfl⟩ := cause_eq_pageFault hc
      exact he hm lpn rfl
  timerCount := takeException_timerCount s e
  cfg := takeException_cfg s e

/-- The exception of a part of a step that has set reference bits at most. -/
theorem invKept_of_raised {e : Exn} (hu : RefBits s u) (he : s.mode = .kernel → ∀ lpn, e ≠ .pageFault lpn) :
    InvKept s (takeException e u) :=
  hu.invKept_trans (invKept_takeException fun hm => he (hu.mode_eq ▸ hm))

/-! ### Instructions -/

/-- The routine of a software interrupt that the decoder gives is at an address of memory. -/
theorem interruptVector_bounds {n : Nat} (h : validInterrupt n = true) :
    wordIntMin ≤ interruptVector n ∧ interruptVector n ≤ wordIntMax := by
  have hn : 1 ≤ n ∧ n ≤ 7 := of_decide_eq_true h
  simp only [wordIntMin, wordIntMax, interruptVector]
  omega

theorem invKept_int {n : Nat} (hn : validInterrupt n = true) (h : exec (.int n) s = .next t) : InvKept s t := by
  rcases execInt_next h with ⟨e, u, rfl, hu, he⟩ | ⟨u, hu, rfl⟩
  · exact invKept_of_raised hu he
  · exact hu.invKept_enter (interruptVector_bounds hn)

theorem invKept_fin (h : exec .fin s = .next t) : InvKept s t := by
  rcases execEnd_eq_next h with rfl | rfl
  · exact (InvKept.refl s).advance
  · exact ⟨id, id, fun _ => ⟨nofun, nofun⟩, rfl, rfl⟩

/-- IRET is in user mode from the start, so what it raises does not halt the machine. -/
theorem invKept_iret (hm : s.mode = .kernel) (h : exec .iret s = .next t) : InvKept s t := by
  have huser : InvKept { s with mode := .user } t := by
    rcases execIret_next hm h with ⟨e, u, rfl, hu⟩ | heffect
    · exact invKept_of_raised hu nofun
    · exact heffect.invKept
  exact ⟨huser.wf, huser.ip, huser.halts, huser.timerCount, huser.cfg⟩

theorem invKept_load {x y : Arg} (hm : s.mode = .kernel) (h : exec (.load x y) s = .next t) : InvKept s t := by
  rcases execLoad_next hm h with ⟨e, u, rfl, hu, he⟩ | rfl | ⟨p, b, hp, -, rfl⟩
  · exact invKept_of_raised hu he
  · exact (InvKept.refl s).advance
  · refine InvKept.advance ⟨fun ⟨hmem, hdisk⟩ => ⟨wf_copyWords hmem hdisk ?_, hdisk⟩, id, haltsInKernel_of_running, rfl, rfl⟩
    simp only [pageWords, memWords]
    omega

theorem invKept_store {x y : Arg} (hm : s.mode = .kernel) (h : exec (.store x y) s = .next t) : InvKept s t := by
  rcases execStore_next hm h with ⟨e, u, rfl, hu, he⟩ | ⟨p, b, -, hb, rfl⟩
  · exact invKept_of_raised hu he
  · refine InvKept.advance ⟨fun ⟨hmem, hdisk⟩ => ⟨hmem, wf_copyWords hdisk hmem ?_⟩, id, haltsInKernel_of_running, rfl, rfl⟩
    simp only [pageWords, diskWords]
    omega

theorem invKept_halt (hm : s.mode = .kernel) (h : exec .halt s = .next t) : InvKept s t := by
  have hl : legalIn s.mode .halt = true := by rw [hm]; rfl
  rw [exec_of_legal hl rfl rfl, outcome_ok] at h
  cases h
  exact ⟨id, id, fun _ => ⟨nofun, fun _ => hm⟩, rfl, rfl⟩

/-- A privileged instruction that passes the legality checks runs in kernel mode (R90). -/
theorem kernel_of_legal_privileged {i : Instr} (hl : legalIn s.mode i = true) (hp : privileged i = true) :
    s.mode = .kernel := by
  cases hm : s.mode with
  | kernel => rfl
  | user => rw [hm, legalIn_user_privileged hp] at hl; cases hl

/-- Every instruction that the decoder can give keeps the invariant. -/
theorem invKept_exec {i : Instr} (hwf : i.wellFormed = true) (h : exec i s = .next t) : InvKept s t := by
  cases hl : legalIn s.mode i with
  | false =>
    obtain ⟨body, hbody⟩ := exec_eq_checked i s
    rw [hbody, checked_of_illegal body hl] at h
    rw [(raiseException_eq_next.1 h).2]
    exact invKept_takeException fun _ => nofun
  | true =>
    have hkernel := kernel_of_legal_privileged hl
    cases i with
    | int n => exact invKept_int hwf h
    | fin => exact invKept_fin h
    | iret => exact invKept_iret (hkernel rfl) h
    | load x y => exact invKept_load (hkernel rfl) h
    | store x y => exact invKept_store (hkernel rfl) h
    | halt => exact invKept_halt (hkernel rfl) h
    | _ =>
      rcases exec_ordinary hl h nofun rfl nofun with ⟨e, u, rfl, hu, he⟩ | heffect
      · exact invKept_of_raised hu he
      · exact heffect.invKept

/-! ### The step -/

theorem invKept_fetchExecute (h : fetchExecute decodeWords s = .next t) : InvKept s t := by
  have hends := ends_fetch s
  cases hfetch : fetch s with
  | ok p u =>
    obtain ⟨w0, w1⟩ := p
    rw [hfetch] at hends
    refine RefBits.invKept_trans hends ?_
    cases hdec : decodeWords w0 w1 with
    | some i => exact invKept_exec (wellFormed_of_decodeWords hdec) (fetchExecute_of_decoded hfetch hdec ▸ h)
    | none =>
      rw [fetchExecute_of_undecoded hfetch hdec] at h
      rw [(raiseException_eq_next.1 h).2]
      exact invKept_takeException fun _ => nofun
  | raise e u =>
    rw [hfetch] at hends
    obtain ⟨hu, he⟩ := hends
    rw [fetchExecute_of_raise hfetch] at h
    rw [(raiseException_eq_next.1 h).2]
    exact invKept_of_raised hu he
  | refuse r =>
    rw [fetchExecute_of_refuse hfetch] at h
    cases h

/-- Taking the timer interrupt clears the count and keeps the rest. -/
theorem invKept_timerInterrupt (h : timerInterrupt s = .next t) : InvKept (s.withTimer 0) t := by
  rcases takeInterrupt_next h with ⟨e, u, rfl, hu, he⟩ | ⟨u, hu, rfl⟩
  · exact invKept_of_raised hu he
  · exact hu.invKept_enter (by decide)

/-- Where the timer is not due in user mode, its count is below its interval (60_exceptions.md R215). -/
theorem timerCount_lt_of_not_due (hm : s.mode = .user) (hdue : timerDue s = false) {n : Nat}
    (hn : s.cfg.timerInterval = some n) : s.timerCount < n := by
  simpa [timerDue, hm, hn] using hdue

/-- The invariant does not tie the timer count to anything but its interval. -/
theorem State.Inv.withTimer (hs : s.Inv) {k : Nat} (hk : ∀ n, s.cfg.timerInterval = some n → k ≤ n) : (s.withTimer k).Inv := by
  obtain ⟨hwf, hip, -, hhalts⟩ := inv_iff.1 hs
  exact inv_iff.2 ⟨hwf, hip, hk, hhalts⟩

end

/-- Settles O53: each of the two ways a step goes on keeps what `InvKept` says, and the timer count stays in its interval. -/
theorem everyStepKeepsTheInvariant : Obligations.EveryStepKeepsTheInvariant := by
  intro s t hs hstep
  have hrun : s.status = .running := by
    by_contra hrun
    rw [step_of_halted hrun] at hstep
    cases hstep
  rcases step_eq_next hstep with ⟨-, htimer⟩ | ⟨hdue, hcount⟩
  · have hkept := invKept_timerInterrupt htimer
    exact ⟨hkept.inv (hs.withTimer fun n _ => Nat.zero_le n) hrun, hkept.cfg⟩
  · cases hm : s.mode with
    | kernel =>
      rw [hm] at hcount
      have hkept := invKept_fetchExecute hcount
      exact ⟨hkept.inv hs hrun, hkept.cfg⟩
    | user =>
      obtain ⟨u, hu, rfl⟩ := countStep_user_eq_next (hm ▸ hcount)
      have hkept := invKept_fetchExecute hu
      refine ⟨(hkept.inv hs hrun).withTimer fun n hn => ?_, hkept.cfg⟩
      rw [hkept.timerCount]
      exact timerCount_lt_of_not_due hm hdue (hkept.cfg ▸ hn)

end Sys2Proof.Machine
end

section
/-! PROOFS. MOV: what its eleven forms write, and what the memory forms raise (40_mov.md R111 to R120). -/

namespace Sys2Proof.Machine

/-! ### The register forms -/

/-- In the range, writing an integer's text is writing a word. -/
theorem setInt_of_defined {s : State} {n : Int} (r : Reg) (h : strDefined s.cfg n = true) :
    s.setInt r n = s.setReg r (Word.ofInt n) := by
  rw [State.setInt, strWord_of_defined _ _ h]

/-- An instruction that ends by going on with one register written completes with that register changed alone. -/
theorem writes_of_goOn {i : Instr} {dest : Reg} {w : Word} {s : State} (hdest : dest ≠ .ip ∧ dest ≠ .efr)
    (hi : exec i s = (goOn (s.setReg dest w)).outcome) : Writes i dest w s := by
  refine completes_of_goOn hi (setReg_ip ..) (setReg_cfg ..) ⟨?_, ?_⟩
  · rw [getReg_advance _ _ hdest.1, getReg_setReg_self _ _ _ hdest.1 hdest.2]
  · exact ((Frame.refl _ _ s).setReg (List.mem_singleton_self dest) w).advance

/-- Settles O6: each of the three forms goes on with its destination written. -/
theorem movCopiesRegisterOrLiteral : Obligations.MovCopiesRegisterOrLiteral := by
  intro s ri rj imm str
  refine ⟨fun hl => ?register, fun hl hdef => ?integer, fun hl => ?string⟩
  case register => exact writes_of_goOn (legalIn_write hl (by simp [regUses])) (exec_of_legal hl rfl rfl)
  case integer =>
    have hbody : writeResult ri imm s = goOn (s.setReg ri (Word.ofInt imm)) := by
      rw [writeResult_of_hasText (hasText_of_defined hdef), setInt_of_defined ri hdef]
    exact writes_of_goOn (legalIn_write hl (by simp [regUses])) (exec_of_legal hl rfl hbody)
  case string => exact writes_of_goOn (legalIn_write hl (by simp [regUses])) (exec_of_legal hl rfl rfl)

/-! ### Addresses: each memory form is a load or a store at its address -/

section
variable {s : State} {ri rj : Reg} {loc index a : Int}

theorem addrReg_of_int (ha : (s.getReg rj).int? = some a) : addrReg rj s = .ok a s := readInt_of_int ha

theorem addrReg_of_not_int (ha : (s.getReg rj).int? = none) : addrReg rj s = .raise .illegalOperands s :=
  readInt_of_not_int ha

theorem addrIndexed_of_int (ha : (s.getReg rj).int? = some a) : addrIndexed loc rj s = .ok (loc + a) s := by
  rw [addrIndexed, readInt_of_int ha, bind_ok]

theorem addrIndexed_of_not_int (ha : (s.getReg rj).int? = none) :
    addrIndexed loc rj s = .raise .illegalOperands s := by
  rw [addrIndexed, readInt_of_not_int ha, bind_raise]

theorem exec_movRM (hl : legalIn s.mode (.movRM ri rj) = true) (ha : (s.getReg rj).int? = some a) :
    exec (.movRM ri rj) s = (loadFrom a ri s).outcome :=
  exec_of_legal hl rfl (by rw [addrReg_of_int ha, bind_ok])

theorem exec_movRL (hl : legalIn s.mode (.movRL ri loc) = true) :
    exec (.movRL ri loc) s = (loadFrom loc ri s).outcome :=
  exec_of_legal hl rfl rfl

theorem exec_movRLX (hl : legalIn s.mode (.movRLX ri loc rj) = true) (ha : (s.getReg rj).int? = some a) :
    exec (.movRLX ri loc rj) s = (loadFrom (loc + a) ri s).outcome :=
  exec_of_legal hl rfl (by rw [addrIndexed_of_int ha, bind_ok])

theorem exec_movRLI (hl : legalIn s.mode (.movRLI ri loc index) = true) :
    exec (.movRLI ri loc index) s = (loadFrom (loc + index) ri s).outcome :=
  exec_of_legal hl rfl rfl

theorem exec_movMR (hl : legalIn s.mode (.movMR rj ri) = true) (ha : (s.getReg rj).int? = some a) :
    exec (.movMR rj ri) s = (storeTo a (s.getReg ri) s).outcome :=
  exec_of_legal hl rfl (by rw [addrReg_of_int ha, bind_ok])

theorem exec_movLR (hl : legalIn s.mode (.movLR loc ri) = true) :
    exec (.movLR loc ri) s = (storeTo loc (s.getReg ri) s).outcome :=
  exec_of_legal hl rfl rfl

theorem exec_movLXR (hl : legalIn s.mode (.movLXR loc rj ri) = true) (ha : (s.getReg rj).int? = some a) :
    exec (.movLXR loc rj ri) s = (storeTo (loc + a) (s.getReg ri) s).outcome :=
  exec_of_legal hl rfl (by rw [addrIndexed_of_int ha, bind_ok])

theorem exec_movLIR (hl : legalIn s.mode (.movLIR loc index ri) = true) :
    exec (.movLIR loc index ri) s = (storeTo (loc + index) (s.getReg ri) s).outcome :=
  exec_of_legal hl rfl rfl

end

/-! ### Loads and stores whose address has been translated -/

section
variable {i : Instr} {s s1 t : State} {a : Int} {pa : Nat} {w : Word} {r : Reg} {regs : List Reg} {words : List Nat}

theorem loadFrom_of_translated (h : translateAddr a s = .ok pa s1) :
    loadFrom a r s = goOn (s1.setReg r (s1.mem.read pa)) := by
  rw [loadFrom, memRead_of_translated h, bind_ok]

theorem storeTo_of_translated (h : translateAddr a s = .ok pa s1) :
    storeTo a w s = (storeWord pa w s1).bind fun _ u => goOn u := by
  rw [storeTo, memWrite, h, bind_ok]

/-- What keeps the frame against the translated state keeps it against the state before the translation, memory apart. -/
theorem Frame.via (h : Frame regs words s1 t) (htr : translateAddr a s = .ok pa s1) : FrameVia regs words s s1 t := by
  obtain ⟨hregs, hmem, hdisk, hhidden, hconsole⟩ := h
  rw [translateAddr_changes htr] at hregs hdisk hhidden hconsole
  refine ⟨fun r hip hr => ?_, hmem, hdisk, hhidden, hconsole⟩
  rw [hregs r hip hr]
  cases r <;> rfl

/-- A write to a listed word of memory is inside the frame. -/
theorem Frame.store (s : State) (pa : Nat) (w : Word) : Frame regs [pa] s { s with mem := s.mem.write pa w } := by
  refine ⟨fun r _ _ => ?_, fun b hb => read_write_ne _ _ (List.ne_of_not_mem_cons hb), fun _ => rfl,
    ⟨rfl, rfl, rfl, rfl, rfl⟩, rfl, rfl⟩
  cases r <;> rfl

/-- A load completes with the word at the physical address in its destination. -/
theorem loadsFrom_of_loadFrom (hr : r ≠ .ip ∧ r ≠ .efr) (hi : exec i s = (loadFrom a r s).outcome) :
    LoadsFrom i r a s := by
  intro pa s1 htr
  rw [loadFrom_of_translated htr] at hi
  refine completes_of_goOn hi ?_ ?_ ⟨?_, ?_⟩
  · rw [setReg_ip, translateAddr_ip htr]
  · rw [setReg_cfg, translateAddr_cfg htr]
  · rw [getReg_advance _ _ hr.1, getReg_setReg_self _ _ _ hr.1 hr.2]
  · exact ((Frame.refl _ _ s1).setReg (List.mem_singleton_self r) _).advance.via htr

/-- A store completes with its word at the physical address, unless that is in the ROM page, whose parameter decides. -/
theorem storesTo_of_storeTo (hi : exec i s = (storeTo a w s).outcome) : StoresTo i a w s := by
  intro pa s1 htr
  have hip := translateAddr_ip htr
  have hcfg := translateAddr_cfg htr
  rw [storeTo_of_translated htr] at hi
  refine ⟨fun hwritable => ?written, fun hrom hignore => ?dropped, fun hrom hrefuse => ?refused⟩
  case written =>
    have hwritable1 : Writable s1 pa := by rwa [Writable, hcfg]
    rw [storeWord_of_writable w hwritable1, bind_ok] at hi
    refine completes_of_goOn hi hip hcfg ⟨?_, (Frame.store s1 pa w).advance.via htr⟩
    rw [advance_mem, read_write_self]
  case dropped =>
    rw [storeWord_rom_ignore w hrom (hcfg ▸ hignore), bind_ok] at hi
    exact completes_of_goOn hi hip hcfg ((Frame.refl _ _ s1).advance.via htr)
  case refused => rw [hi, storeWord_rom_refuse w hrom (hcfg ▸ hrefuse), bind_refuse, outcome_refuse]

end

/-- Settles O7: each of the four forms is a load at its address. -/
theorem movLoadsWordAtAddress : Obligations.MovLoadsWordAtAddress := by
  intro s ri rj loc index
  refine ⟨fun hl a ha => ?_, fun hl => ?_, fun hl a ha => ?_, fun hl => ?_⟩
  · exact loadsFrom_of_loadFrom (legalIn_write hl (by simp [regUses])) (exec_movRM hl ha)
  · exact loadsFrom_of_loadFrom (legalIn_write hl (by simp [regUses])) (exec_movRL hl)
  · exact loadsFrom_of_loadFrom (legalIn_write hl (by simp [regUses])) (exec_movRLX hl ha)
  · exact loadsFrom_of_loadFrom (legalIn_write hl (by simp [regUses])) (exec_movRLI hl)

/-- Settles O8: each of the four forms is a store at its address. -/
theorem movStoresWordAtAddress : Obligations.MovStoresWordAtAddress := by
  intro s ri rj loc index
  refine ⟨fun hl a ha => ?_, fun hl => ?_, fun hl a ha => ?_, fun hl => ?_⟩
  · exact storesTo_of_storeTo (exec_movMR hl ha)
  · exact storesTo_of_storeTo (exec_movLR hl)
  · exact storesTo_of_storeTo (exec_movLXR hl ha)
  · exact storesTo_of_storeTo (exec_movLIR hl)

/-! ### What the memory forms raise -/

section
variable {i : Instr} {s u : State} {body : Res Unit} {x : Exn} {a : Int} {r : Reg} {w : Word}

/-- A legal instruction raises what its body raises. -/
theorem raisesFrom_of_raise (hi : exec i s = body.outcome) (hbody : body = .raise x s) : RaisesFrom i x s s := by
  rw [RaisesFrom, hi, hbody, outcome_raise]

theorem loadFrom_of_raise (h : translateAddr a s = .raise x u) : loadFrom a r s = .raise x s := by
  rw [loadFrom, memRead_of_raise h, bind_raise]

theorem storeTo_of_raise (h : translateAddr a s = .raise x u) : storeTo a w s = .raise x s := by
  obtain ⟨rfl, -⟩ := translateAddr_eq_raise h
  rw [storeTo, memWrite_eq_raise.2 h, bind_raise]

end

/-- Settles O9: an address that cannot be computed ends the body, and an address that cannot be translated ends its load or
its store. -/
theorem movRaisesWhatItsAddressRaises : Obligations.MovRaisesWhatItsAddressRaises := by
  intro s ri rj loc index
  simp only [List.forall_mem_cons, List.not_mem_nil, false_implies, implies_true, and_true]
  refine ⟨?operand, ?register, ?indexed, ?direct, ?displaced⟩
  case operand =>
    refine ⟨fun hl ha => ?_, fun hl ha => ?_, fun hl ha => ?_, fun hl ha => ?_⟩
    · exact exec_of_legal hl rfl (by rw [addrReg_of_not_int ha, bind_raise])
    · exact exec_of_legal hl rfl (by rw [addrReg_of_not_int ha, bind_raise])
    · exact exec_of_legal hl rfl (by rw [addrIndexed_of_not_int ha, bind_raise])
    · exact exec_of_legal hl rfl (by rw [addrIndexed_of_not_int ha, bind_raise])
  case register =>
    exact ⟨fun hl a x u ha htr => raisesFrom_of_raise (exec_movRM hl ha) (loadFrom_of_raise htr),
      fun hl a x u ha htr => raisesFrom_of_raise (exec_movMR hl ha) (storeTo_of_raise htr)⟩
  case indexed =>
    exact ⟨fun hl a x u ha htr => raisesFrom_of_raise (exec_movRLX hl ha) (loadFrom_of_raise htr),
      fun hl a x u ha htr => raisesFrom_of_raise (exec_movLXR hl ha) (storeTo_of_raise htr)⟩
  case direct =>
    exact ⟨fun hl x u htr => raisesFrom_of_raise (exec_movRL hl) (loadFrom_of_raise htr),
      fun hl x u htr => raisesFrom_of_raise (exec_movLR hl) (storeTo_of_raise htr)⟩
  case displaced =>
    exact ⟨fun hl x u htr => raisesFrom_of_raise (exec_movRLI hl) (loadFrom_of_raise htr),
      fun hl x u htr => raisesFrom_of_raise (exec_movLIR hl) (storeTo_of_raise htr)⟩

end Sys2Proof.Machine
end

section
/-! PROOFS. Arithmetic: the laws of quotient and remainder, and what the seven instructions write and raise (41_arithmetic.md
R131 to R138). -/

namespace Sys2Proof.Machine

/-! ### Quotient and remainder (R138 (c)) -/

section
variable {d : DivRounding} {a b : Int}

/-- Every convention divides: the dividend is the divisor times the quotient, plus the remainder. -/
theorem mul_quot_add_rem (d : DivRounding) (a b : Int) : b * quot d a b + rem d a b = a := by
  cases d with
  | truncate => exact Int.mul_tdiv_add_tmod a b
  | floor => exact Int.mul_fdiv_add_fmod a b
  | euclid => exact Int.mul_ediv_add_emod a b

/-- For a negative divisor the remainder of floor division lies between the divisor and zero. -/
theorem fmod_bounds_of_neg (a : Int) (hb : b < 0) : b < a.fmod b ∧ a.fmod b ≤ 0 := by
  have hlow := Int.fmod_nonneg_of_pos (-a) (b := -b) (by omega)
  have hhigh := Int.fmod_lt_of_pos (-a) (b := -b) (by omega)
  rw [Int.neg_fmod_neg] at hlow hhigh
  omega

/-- In every convention the remainder is smaller than the divisor in absolute value. -/
theorem natAbs_rem_lt (hb : b ≠ 0) : (rem d a b).natAbs < b.natAbs := by
  cases d with
  | truncate =>
    rw [rem, Int.natAbs_tmod]
    exact Nat.mod_lt _ (Int.natAbs_pos.2 hb)
  | floor =>
    rw [rem]
    rcases lt_or_gt_of_ne hb with hneg | hpos
    · have := fmod_bounds_of_neg a hneg
      omega
    · have hlow := Int.fmod_nonneg_of_pos a hpos
      have hhigh := Int.fmod_lt_of_pos a hpos
      omega
  | euclid =>
    rw [rem]
    have hlow : 0 ≤ a.emod b := Int.emod_nonneg a hb
    have hhigh : a.emod b < b.natAbs := Int.emod_lt a hb
    omega

/-- All conventions agree on a dividend that is not negative and a positive divisor. -/
theorem quot_rem_of_nonneg (ha : 0 ≤ a) (hb : 0 < b) : quot d a b = a / b ∧ rem d a b = a % b := by
  cases d with
  | truncate => exact ⟨Int.tdiv_eq_ediv_of_nonneg ha, Int.tmod_eq_emod_of_nonneg ha⟩
  | floor => exact ⟨Int.fdiv_eq_ediv_of_nonneg a hb.le, Int.fmod_eq_emod_of_nonneg a hb.le⟩
  | euclid => exact ⟨rfl, rfl⟩

/-- A number that is zero or has the other's sign has a product with it that is not negative. -/
theorem mul_nonneg_of_sign {x y : Int} (h : y.sign = 0 ∨ y.sign = x.sign) : 0 ≤ x * y := by
  rw [← Int.sign_nonneg_iff, Int.sign_mul]
  rcases h with h | h
  · rw [h, mul_zero]
  · rw [h]; exact mul_self_nonneg _

/-- In truncated division the remainder has the sign of the dividend. -/
theorem mul_rem_truncate_nonneg (a b : Int) : 0 ≤ a * rem .truncate a b := by
  refine mul_nonneg_of_sign ?_
  rw [rem, Int.sign_tmod]
  split
  · exact .inl rfl
  · exact .inr rfl

/-- In truncated division the quotient has the sign of the product. -/
theorem mul_quot_truncate_nonneg (a b : Int) : 0 ≤ a * b * quot .truncate a b := by
  refine mul_nonneg_of_sign ?_
  rw [quot, Int.sign_tdiv, Int.sign_mul]
  split
  · exact .inl rfl
  · exact .inr rfl

/-- In floor division the remainder has the sign of the divisor. -/
theorem mul_rem_floor_nonneg (a : Int) (hb : b ≠ 0) : 0 ≤ b * rem .floor a b := by
  rcases lt_or_gt_of_ne hb with hneg | hpos
  · exact mul_nonneg_of_nonpos_of_nonpos hneg.le (fmod_bounds_of_neg a hneg).2
  · exact mul_nonneg hpos.le (Int.fmod_nonneg_of_pos a hpos)

end

/-- Settles O13: a law per lemma, each by the conventions it speaks of. -/
theorem quotientRemainderLaws : Obligations.QuotientRemainderLaws := by
  intro d a b hb
  refine ⟨(mul_quot_add_rem d a b).symm, natAbs_rem_lt hb, quot_rem_of_nonneg, ?truncate, ?floor, ?euclid⟩
  case truncate =>
    rintro rfl
    exact ⟨Int.natAbs_tdiv a b, mul_rem_truncate_nonneg a b, mul_quot_truncate_nonneg a b⟩
  case floor =>
    rintro rfl
    exact mul_rem_floor_nonneg a hb
  case euclid =>
    rintro rfl
    exact Int.emod_nonneg a hb

/-! ### Which quotients leave the default range -/

/-- The default range has 15 digits above zero and 14 below it (00_scope.md R5). -/
theorem strDefined_standardConfig_iff {n : Int} :
    strDefined standardConfig n = true ↔ -99999999999999 ≤ n ∧ n ≤ 999999999999999 := by
  rw [strDefined_iff]
  simp only [standardConfig, wordIntMin, wordIntMax]
  omega

section
variable {a b c : Int}

/-- The truncated remainder lies between zero and the dividend. -/
theorem rem_truncate_between (a b : Int) :
    (0 ≤ a → 0 ≤ rem .truncate a b ∧ rem .truncate a b ≤ a) ∧ (a ≤ 0 → a ≤ rem .truncate a b ∧ rem .truncate a b ≤ 0) := by
  have hle : (rem .truncate a b).natAbs ≤ a.natAbs := (Int.natAbs_tmod a b).trans_le (Nat.mod_le _ _)
  refine ⟨fun ha => ?_, fun ha => ?_⟩
  · have hsign : 0 ≤ rem .truncate a b := Int.tmod_nonneg b ha
    omega
  · have hsign : 0 ≤ -rem .truncate a b := Int.neg_tmod a b ▸ Int.tmod_nonneg b (by omega)
    omega

/-- A truncated quotient of a dividend above `-c` reaches down to `-c` only where a dividend that is not negative is divided
by a negative number. -/
theorem quot_truncate_le_neg_iff (hb : b ≠ 0) (hc : 0 < c) (ha : -c < a) :
    quot .truncate a b ≤ -c ↔ b < 0 ∧ c * -b ≤ a := by
  rcases lt_or_ge a 0 with hneg | hnonneg
  case inl =>
    have hle : (quot .truncate a b).natAbs ≤ a.natAbs := Int.natAbs_tdiv_le_natAbs a b
    refine ⟨fun h => by omega, fun ⟨hb, h⟩ => ?_⟩
    have hpos : 0 < c * -b := mul_pos hc (by omega)
    omega
  case inr =>
    rcases lt_or_gt_of_ne hb with hb | hb
    case inl =>
      have hquot : -quot .truncate a b = a / -b := by
        rw [quot, ← Int.tdiv_neg, Int.tdiv_eq_ediv_of_nonneg hnonneg]
      rw [← Int.le_ediv_iff_mul_le (by omega), ← hquot]
      omega
    case inr =>
      have hquot : 0 ≤ quot .truncate a b := Int.tdiv_nonneg hnonneg hb.le
      omega

/-- A quotient is no larger than its dividend, so it can leave the default range only at its lower end. -/
theorem strDefined_quot_truncate_eq_false_iff (ha : strDefined standardConfig a = true) :
    strDefined standardConfig (quot .truncate a b) = false ↔ quot .truncate a b ≤ -100000000000000 := by
  obtain ⟨hlow, hhigh⟩ := strDefined_standardConfig_iff.1 ha
  have hle : (quot .truncate a b).natAbs ≤ a.natAbs := Int.natAbs_tdiv_le_natAbs a b
  rw [← Bool.not_eq_true, strDefined_standardConfig_iff]
  omega

end

/-- Settles O14: the remainder stays between zero and the dividend, and the quotient leaves the range just where it reaches
down to `-10^14`. -/
theorem quotientLeavesRangeOnlyDownward : Obligations.QuotientLeavesRangeOnlyDownward := by
  intro a b ha hb h0
  obtain ⟨hlow, hhigh⟩ := strDefined_standardConfig_iff.1 ha
  have hiff : strDefined standardConfig (quot .truncate a b) = false ↔ b < 0 ∧ 100000000000000 * -b ≤ a :=
    (strDefined_quot_truncate_eq_false_iff ha).trans (quot_truncate_le_neg_iff h0 (by omega) (by omega))
  refine ⟨?remainder, hiff, fun h => ?digits⟩
  case remainder =>
    obtain ⟨hnonneg, hnonpos⟩ := rem_truncate_between a b
    rw [strDefined_standardConfig_iff]
    omega
  case digits =>
    obtain ⟨hneg, hle⟩ := hiff.1 h
    omega

/-! ### What the instructions write and raise -/

section
variable {i : Instr} {s : State} {ri rj : Reg} {n : Int}

/-- An instruction that ends in `writeResult` with a result in the range writes its text and nothing else. -/
theorem writes_of_writeResult {result : Res Unit} (hl : legalIn s.mode i = true) (hdest : (Access.write, ri) ∈ regUses i)
    (hi : exec i s = checked i s result) (hresult : result = writeResult ri n s) (hdef : strDefined s.cfg n = true) :
    Writes i ri (Word.ofInt n) s := by
  refine writes_of_goOn (legalIn_write hl hdest) (exec_of_legal hl hi ?_)
  rw [hresult, writeResult_of_hasText (hasText_of_defined hdef), setInt_of_defined ri hdef]

/-- Both operands are read before anything else is done, so one that is no integer raises IllegalOperands (R131, R134). -/
theorem readInt_readInt_of_not_int (k : Int → Int → State → Res Unit)
    (h : (s.getReg ri).int? = none ∨ (s.getReg rj).int? = none) :
    ((readInt ri s).bind fun a u => (readInt rj u).bind fun b v => k a b v) = .raise .illegalOperands s := by
  cases ha : (s.getReg ri).int? with
  | none => rw [readInt_of_not_int ha, bind_raise]
  | some a =>
    have hb : (s.getReg rj).int? = none := h.resolve_left (by simp [ha])
    rw [readInt_of_int ha, bind_ok, readInt_of_not_int hb, bind_raise]

theorem arith_of_not_int (f : Int → Int → Int) (h : (s.getReg ri).int? = none ∨ (s.getReg rj).int? = none) :
    arith f ri rj s = .raise .illegalOperands s := readInt_readInt_of_not_int _ h

theorem divide_of_not_int (f : Int → Int → Int) (h : (s.getReg ri).int? = none ∨ (s.getReg rj).int? = none) :
    divide f ri rj s = .raise .illegalOperands s := readInt_readInt_of_not_int _ h

theorem divide_by_zero {a : Int} (f : Int → Int → Int) (ha : (s.getReg ri).int? = some a)
    (hb : (s.getReg rj).int? = some 0) : divide f ri rj s = .raise .arithmetic s := by
  rw [divide, readInt_of_int ha, bind_ok, readInt_of_int hb, bind_ok, if_pos rfl]

theorem adjust_of_not_int (f : Int → Int) (h : (s.getReg ri).int? = none) :
    adjust f ri s = .raise .illegalOperands s := by
  rw [adjust, readInt_of_not_int h, bind_raise]

end

/-- Settles O10: each of the three instructions is `arith` of its operation. -/
theorem addSubMulWriteExactResult : Obligations.AddSubMulWriteExactResult := by
  intro s ri rj i f hi hl
  obtain ⟨hexec, hdest⟩ : exec i s = checked i s (arith f ri rj s) ∧ (Access.write, ri) ∈ regUses i := by
    simp only [List.mem_cons, List.not_mem_nil, or_false, Prod.mk.injEq] at hi
    rcases hi with ⟨rfl, rfl⟩ | ⟨rfl, rfl⟩ | ⟨rfl, rfl⟩ <;> exact ⟨rfl, List.mem_cons_self⟩
  exact ⟨fun a b ha hb => writes_of_writeResult hl hdest hexec (arith_of_ints f ha hb),
    fun h => exec_of_legal hl hexec (arith_of_not_int f h)⟩

/-- Settles O11: both instructions are `divide`, which looks at the divisor after both operands are known to be integers. -/
theorem divModWriteQuotientRemainder : Obligations.DivModWriteQuotientRemainder := by
  intro s ri rj i f hi hl
  obtain ⟨hexec, hdest⟩ : exec i s = checked i s (divide f ri rj s) ∧ (Access.write, ri) ∈ regUses i := by
    simp only [List.mem_cons, List.not_mem_nil, or_false, Prod.mk.injEq] at hi
    rcases hi with ⟨rfl, rfl⟩ | ⟨rfl, rfl⟩ <;> exact ⟨rfl, List.mem_cons_self⟩
  exact ⟨fun a b ha hb h0 => writes_of_writeResult hl hdest hexec (divide_of_ints f ha hb h0),
    fun a ha hb => exec_of_legal hl hexec (divide_by_zero f ha hb),
    fun h => exec_of_legal hl hexec (divide_of_not_int f h)⟩

/-- Settles O12: both instructions are `adjust`, DCR's taking one being the sum with `-1`. -/
theorem incrementDecrementByOne : Obligations.IncrementDecrementByOne := by
  intro s ri i d hi hl
  obtain ⟨hexec, hdest⟩ : exec i s = checked i s (adjust (fun a => a + d) ri s) ∧ (Access.write, ri) ∈ regUses i := by
    simp only [List.mem_cons, List.not_mem_nil, or_false, Prod.mk.injEq] at hi
    rcases hi with ⟨rfl, rfl⟩ | ⟨rfl, rfl⟩ <;> exact ⟨rfl, List.mem_cons_self⟩
  exact ⟨fun a ha => writes_of_writeResult hl hdest hexec (adjust_of_int _ ha),
    fun h => exec_of_legal hl hexec (adjust_of_not_int _ h)⟩

end Sys2Proof.Machine
end

section
/-! PROOFS. The comparison instructions, and the order that `cmp` is on each kind of word (42_logical.md R140 to R147). -/

namespace Sys2Proof.Machine

/-! ### What the six instructions write -/

section
variable {s : State} {ri rj : Reg}

/-- A legal instruction that is a comparison with a test completes with the test's truth word in its first register. -/
theorem writes_of_compareRegs {i : Instr} {test : Ordering → Bool} (hl : legalIn s.mode i = true)
    (hdest : (Access.write, ri) ∈ regUses i) (hi : exec i s = checked i s (compareRegs test ri rj s)) :
    Writes i ri (truthWord (test (cmpWord (s.getReg ri) (s.getReg rj)))) s :=
  writes_of_goOn (legalIn_write hl hdest) (exec_of_legal hl hi rfl)

/-- The truth word of a Boolean that decides `p` is the word R140 gives `p`. -/
theorem eq_truthWord {p : Prop} {b : Bool} {w : Word} (hb : b = true ↔ p)
    (h : p ∧ w = Word.lit "1" ∨ ¬ p ∧ w = Word.lit "0") : w = truthWord b := by
  rcases h with ⟨hp, rfl⟩ | ⟨hp, rfl⟩
  · rw [hb.2 hp]; rfl
  · rw [Bool.eq_false_iff.2 (mt hb.1 hp)]; rfl

end

/-- Settles O16: each of the six instructions is `compareRegs` of a Boolean that decides its test. -/
theorem comparisonsWriteTruth : Obligations.ComparisonsWriteTruth := by
  intro s ri rj i test w hi hl hw
  obtain ⟨b, hexec, hdest, hb⟩ : ∃ b : Ordering → Bool, exec i s = checked i s (compareRegs b ri rj s)
      ∧ (Access.write, ri) ∈ regUses i ∧ ∀ c, b c = true ↔ test c := by
    simp only [List.mem_cons, List.not_mem_nil, or_false, Prod.mk.injEq] at hi
    rcases hi with ⟨rfl, rfl⟩ | ⟨rfl, rfl⟩ | ⟨rfl, rfl⟩ | ⟨rfl, rfl⟩ | ⟨rfl, rfl⟩ | ⟨rfl, rfl⟩ <;>
      exact ⟨_, rfl, List.mem_cons_self, fun _ => decide_eq_true_iff⟩
  rw [eq_truthWord (hb _) hw]
  exact writes_of_compareRegs hl hdest hexec

/-! ### The order laws of `cmp` (R147) -/

/-- The lexicographic order of texts is transitive. -/
theorem TextLess.trans {a b c : Text} (hab : TextLess a b) (hbc : TextLess b c) : TextLess a c := by
  induction a generalizing b c with
  | nil =>
    cases c with
    | nil => exact absurd hbc (not_textLess_nil b)
    | cons z zs => exact textLess_nil_cons z zs
  | cons x xs ih =>
    cases b with
    | nil => exact absurd hab (not_textLess_nil _)
    | cons y ys =>
      cases c with
      | nil => exact absurd hbc (not_textLess_nil _)
      | cons z zs =>
        rw [textLess_cons_cons] at hab hbc ⊢
        rcases hab with hxy | ⟨rfl, hxy⟩ <;> rcases hbc with hyz | ⟨rfl, hyz⟩
        · exact .inl (hxy.trans hyz)
        · exact .inl hxy
        · exact .inl hyz
        · exact .inr ⟨rfl, ih hxy hyz⟩

/-- Exchanging the integers exchanges less and greater. -/
theorem cmpInt_swap (m n : Int) : cmpInt n m = (cmpInt m n).swap := by
  rcases Int.lt_trichotomy m n with h | h | h
  · rw [(cmpInt_eq_lt_iff m n).2 h, (cmpInt_eq_gt_iff n m).2 h]; rfl
  · rw [(cmpInt_eq_eq_iff m n).2 h, (cmpInt_eq_eq_iff n m).2 h.symm]; rfl
  · rw [(cmpInt_eq_gt_iff m n).2 h, (cmpInt_eq_lt_iff n m).2 h]; rfl

/-- Exchanging the words exchanges less and greater, whether they are integers or not. -/
theorem cmpWord_swap (a b : Word) : cmpWord b a = (cmpWord a b).swap := by
  have text (h : a.int? = none ∨ b.int? = none) : cmpWord b a = (cmpWord a b).swap := by
    rw [cmpWord_of_not_int h, cmpWord_of_not_int h.symm, cmpText_swap]
  cases ha : a.int? with
  | none => exact text (.inl ha)
  | some m =>
    cases hb : b.int? with
    | none => exact text (.inr hb)
    | some n => rw [cmpWord_of_ints ha hb, cmpWord_of_ints hb ha, cmpInt_swap]

section
variable {a b c : Word}

/-- Less is transitive on words that are integers. -/
theorem cmpWord_lt_trans_of_isInt (ha : a.isInt = true) (hb : b.isInt = true) (hc : c.isInt = true)
    (hab : cmpWord a b = .lt) (hbc : cmpWord b c = .lt) : cmpWord a c = .lt := by
  obtain ⟨l, hl⟩ := Option.isSome_iff_exists.1 ha
  obtain ⟨m, hm⟩ := Option.isSome_iff_exists.1 hb
  obtain ⟨n, hn⟩ := Option.isSome_iff_exists.1 hc
  rw [cmpWord_of_ints hl hm, cmpInt_eq_lt_iff] at hab
  rw [cmpWord_of_ints hm hn, cmpInt_eq_lt_iff] at hbc
  rw [cmpWord_of_ints hl hn, cmpInt_eq_lt_iff]
  exact hab.trans hbc

/-- Less is transitive on words that are no integers, and then whatever the last word is. -/
theorem cmpWord_lt_trans_of_not_isInt (ha : a.isInt = false) (hb : b.isInt = false)
    (hab : cmpWord a b = .lt) (hbc : cmpWord b c = .lt) : cmpWord a c = .lt := by
  have ha : a.int? = none := Option.isNone_iff_eq_none.1 (Option.isSome_eq_false_iff.1 ha)
  have hb : b.int? = none := Option.isNone_iff_eq_none.1 (Option.isSome_eq_false_iff.1 hb)
  rw [cmpWord_of_not_int (.inl ha), cmpText_eq_lt_iff] at hab ⊢
  rw [cmpWord_of_not_int (.inl hb), cmpText_eq_lt_iff] at hbc
  exact hab.trans hbc

end

/-- Settles O18: the order laws hold on each kind of word; the cycle mixes the kinds, numeric at its first step and
lexicographic at the other two. -/
theorem cmpOrdersEachKindButNotAll : Obligations.CmpOrdersEachKindButNotAll := by
  refine ⟨cmpWord_swap, fun a b c hkind => ?transitive, ?numeric, ?difference, ?back⟩
  case transitive =>
    rcases hkind with ⟨ha, hb, hc⟩ | ⟨ha, hb, -⟩
    · exact cmpWord_lt_trans_of_isInt ha hb hc
    · exact cmpWord_lt_trans_of_not_isInt ha hb
  case numeric => decide
  case difference => decide
  case back => decide

end Sys2Proof.Machine
end

section
/-! PROOFS. Branches: where JZ, JNZ and JMP go (43_branch.md R151 to R153). -/

namespace Sys2Proof.Machine

/-! ### `branch` by its test -/

section
variable {test : Int → Bool} {s : State} {ri : Reg} {target : Nat} {v : Int}

theorem branch_of_taken (hv : (s.getReg ri).int? = some v) (htest : test v = true) :
    branch test ri target s = goTo target s := by
  rw [branch, readInt_of_int hv, bind_ok, if_pos htest]

theorem branch_of_not_taken (hv : (s.getReg ri).int? = some v) (htest : test v ≠ true) :
    branch test ri target s = goOn s := by
  rw [branch, readInt_of_int hv, bind_ok, if_neg htest]

theorem branch_of_not_int (h : (s.getReg ri).int? = none) : branch test ri target s = .raise .illegalOperands s := by
  rw [branch, readInt_of_not_int h, bind_raise]

end

/-- JMP names no register and is not privileged, so neither mode forbids it (30_encoding.md R90 to R93). -/
theorem legalIn_jmp (m : Mode) (target : Nat) : legalIn m (.jmp target) = true := by cases m <;> rfl

/-! ### The three instructions -/

/-- Settles O19: each of the two instructions is `branch` of a Boolean that decides its test. -/
theorem conditionalJumpsTestForZero : Obligations.ConditionalJumpsTestForZero := by
  intro s ri target i taken hi hl
  obtain ⟨test, hexec, htest⟩ : ∃ test : Int → Bool, exec i s = checked i s (branch test ri target s)
      ∧ ∀ v, test v = true ↔ taken v := by
    simp only [List.mem_cons, List.not_mem_nil, or_false, Prod.mk.injEq] at hi
    rcases hi with ⟨rfl, rfl⟩ | ⟨rfl, rfl⟩ <;> exact ⟨_, rfl, fun _ => decide_eq_true_iff⟩
  refine ⟨fun v hv => ⟨fun htaken => ?jumps, fun hnot => ?goesOn⟩, fun hnone => ?raises⟩
  case jumps =>
    have hbody := branch_of_taken (target := target) hv ((htest v).2 htaken)
    exact completesAt_of_goTo (exec_of_legal hl hexec hbody) rfl ((Frame.refl _ _ s).setIp target)
  case goesOn =>
    have hbody := branch_of_not_taken (target := target) hv (mt (htest v).1 hnot)
    exact completes_of_goOn (exec_of_legal hl hexec hbody) rfl rfl (Frame.refl _ _ s).advance
  case raises => exact raisesFrom_of_raise (exec_of_legal hl hexec rfl) (branch_of_not_int hnone)

/-- Settles O20: JMP is legal in either mode, and its body is the jump alone. -/
theorem jmpGoesToTarget : Obligations.JmpGoesToTarget := fun s target =>
  completesAt_of_goTo (exec_of_legal (legalIn_jmp s.mode target) rfl rfl) rfl ((Frame.refl _ _ s).setIp target)

end Sys2Proof.Machine
end

section
/-! PROOFS. PUSH, POP, CALL and RET: what they store, load and raise (44_stack_subroutine.md R160 to R163). -/

namespace Sys2Proof.Machine

/-- CALL names no register and is not privileged, so neither mode forbids it (30_encoding.md R90 to R93). -/
theorem legalIn_call (m : Mode) (target : Nat) : legalIn m (.call target) = true := by cases m <;> rfl

/-- RET names no register and is not privileged either. -/
theorem legalIn_ret (m : Mode) : legalIn m .ret = true := by cases m <;> rfl

/-- SP holds the text it was moved to, wherever IP goes after that. -/
theorem getReg_sp_setInt_setIp (s : State) {top : Int} (htop : strDefined s.cfg top = true) (m : Int) :
    ((s.setInt .sp top).setIp m).getReg .sp = Word.ofInt top := by
  rw [getReg_setIp _ .sp _ nofun, getReg_setInt_self _ .sp _ nofun nofun htop]

/-! ### PUSH and CALL: a push to a word that can be written -/

/-- The state after a push: the word at `pa`, and SP at the new top. `pushAt_of_writable` ties it to the model. -/
def State.pushed (pa : Nat) (w : Word) (top : Int) (s : State) : State :=
  { s with mem := s.mem.write pa w }.setInt .sp top

/-- What PUSH stores: the incremented SP for `PUSH SP`, the register's word otherwise (R160). `storePushed_eq_storeWord`
ties it to the model. -/
def pushedWord (ri : Reg) (top : Int) (s : State) : Word := if ri = .sp then Word.ofInt top else s.getReg ri

section
variable {i : Instr} {s s1 : State} {n m top a : Int} {pa target : Nat} {w : Word} {ri : Reg}

theorem pushAt_of_writable (hw : Writable s pa) (htop : strDefined s.cfg top = true) :
    pushAt pa w top s = .ok () (s.pushed pa w top) := by
  rw [pushAt, storeWord_of_writable w hw, bind_ok]
  exact writeInt_of_hasText (hasText_of_defined htop)

theorem pushed_ip : (s.pushed pa w top).ip = s.ip := setInt_ip ..

theorem pushed_cfg : (s.pushed pa w top).cfg = s.cfg := setInt_cfg ..

/-- The pushed word reads back where it was stored, wherever IP goes after that. -/
theorem read_pushed_setIp : ((s.pushed pa w top).setIp m).mem.read pa = w := by
  rw [setIp_mem, State.pushed, setInt_mem, read_write_self]

/-- A push, and a move of IP after it, change the word, SP and IP alone. -/
theorem frame_pushed_setIp : Frame [.sp] [pa] s ((s.pushed pa w top).setIp m) :=
  ((Frame.store s pa w).setInt (List.mem_singleton_self _) top).setIp m

/-- An instruction that has only to go to `m` after a push has stored the word and moved SP, and changes nothing else. -/
theorem completesAt_of_pushed (htr : translateAddr a s = .ok pa s1) (htop : strDefined s.cfg top = true)
    (hi : exec i s = (goTo m (s1.pushed pa w top)).outcome) :
    CompletesAt m i s fun t => t.mem.read pa = w ∧ t.getReg .sp = Word.ofInt top ∧ FrameVia [.sp] [pa] s s1 t := by
  have hcfg := translateAddr_cfg htr
  exact completesAt_of_goTo hi (pushed_cfg.trans hcfg)
    ⟨read_pushed_setIp, getReg_sp_setInt_setIp _ (hcfg.symm ▸ htop) m, frame_pushed_setIp.via htr⟩

theorem storePushed_eq_storeWord (htop : strDefined s.cfg top = true) (htr : translateAddr top s = .ok pa s1) :
    storePushed ri top s = storeWord pa (pushedWord ri top s) s1 := by
  unfold storePushed pushedWord
  split
  · exact memWriteInt_of_translated htop htr
  · rw [memWrite, htr, bind_ok]

theorem exec_push_of_writable (hl : legalIn s.mode (.push ri) = true) (hsp : (s.getReg .sp).int? = some n)
    (htop : strDefined s.cfg (n + 1) = true) (htr : translateAddr (n + 1) s = .ok pa s1) (hw : Writable s pa) :
    exec (.push ri) s = (goTo (s.ip + 2) (s1.pushed pa (pushedWord ri (n + 1) s) (n + 1))).outcome := by
  have hcfg := translateAddr_cfg htr
  refine exec_of_legal hl rfl ?_
  rw [readInt_of_int hsp, bind_ok, storePushed_eq_storeWord htop htr, ← Res.bind_assoc, ← pushAt,
    pushAt_of_writable (by rwa [Writable, hcfg]) (hcfg.symm ▸ htop), bind_ok, goOn, pushed_ip, translateAddr_ip htr]

theorem exec_call_of_writable (hsp : (s.getReg .sp).int? = some n) (htop : strDefined s.cfg (n + 1) = true)
    (hret : strDefined s.cfg (s.ip + 2) = true) (htr : translateAddr (n + 1) s = .ok pa s1) (hw : Writable s pa) :
    exec (.call target) s = (goTo target (s1.pushed pa (Word.ofInt (s.ip + 2)) (n + 1))).outcome := by
  have hcfg := translateAddr_cfg htr
  rw [exec_call_of_translated (legalIn_call _ _) hsp hret htr,
    pushAt_of_writable (by rwa [Writable, hcfg]) (hcfg.symm ▸ htop), bind_ok]

end

/-- Settles O21: PUSH is a push of `pushedWord`, then going on. -/
theorem pushStoresAboveTop : Obligations.PushStoresAboveTop := fun _ _ _ _ _ hl hsp htop htr hw =>
  completesAt_of_pushed htr htop (exec_push_of_writable hl hsp htop htr hw)

/-- Settles O23: CALL is a push of the address after it, then a jump. -/
theorem callPushesReturnAddress : Obligations.CallPushesReturnAddress := fun _ _ _ _ _ hsp htop hret htr hw =>
  completesAt_of_pushed htr htop (exec_call_of_writable hsp htop hret htr hw)

/-! ### POP and RET: a pop of a word whose address translates -/

section
variable {s s1 : State} {n v : Int} {pa : Nat} {ri : Reg} (hsp : (s.getReg .sp).int? = some n)
  (htr : translateAddr n s = .ok pa s1)
include hsp htr

theorem exec_pop_of_translated (hl : legalIn s.mode (.pop ri) = true) (hri : ri ≠ .sp) :
    exec (.pop ri) s = (writeResult .sp (n - 1) (s1.setReg ri (s1.mem.read pa))).outcome :=
  exec_of_legal hl rfl (by
    rw [readInt_of_int hsp, bind_ok, memRead_of_translated htr, bind_ok, if_neg hri, writeResult])

theorem exec_popSp_of_int (hl : legalIn s.mode (.pop .sp) = true) (hv : (s1.mem.read pa).int? = some v) :
    exec (.pop .sp) s = (writeResult .sp (v - 1) s1).outcome :=
  exec_of_legal hl rfl (by
    rw [readInt_of_int hsp, bind_ok, memRead_of_translated htr, bind_ok, if_pos rfl, hv, writeResult])

theorem exec_popSp_of_not_int (hl : legalIn s.mode (.pop .sp) = true) (hnone : (s1.mem.read pa).int? = none) :
    exec (.pop .sp) s = raiseException .illegalOperands s1 :=
  exec_of_legal (result := .raise .illegalOperands s1) hl rfl (by
    rw [readInt_of_int hsp, bind_ok, memRead_of_translated htr, bind_ok, if_pos rfl, hnone])

theorem exec_ret_of_int (hv : (s1.mem.read pa).int? = some v) (hdef : strDefined s.cfg (n - 1) = true) :
    exec .ret s = (goTo v (s1.setInt .sp (n - 1))).outcome := by
  have hdef1 : strDefined s1.cfg (n - 1) = true := translateAddr_cfg htr ▸ hdef
  refine exec_of_legal (legalIn_ret _) rfl ?_
  simp only [popIp, readInt_of_int hsp, memRead_of_translated htr, hv, writeInt_of_hasText (hasText_of_defined hdef1),
    bind_ok]

theorem exec_ret_of_not_int (hnone : (s1.mem.read pa).int? = none) :
    exec .ret s = raiseException .illegalOperands s1 :=
  exec_of_legal (result := .raise .illegalOperands s1) (legalIn_ret _) rfl (by
    rw [popIp, readInt_of_int hsp, bind_ok, memRead_of_translated htr, bind_ok, hnone])

end

/-- Settles O22: POP writes the popped word, or reads it as an integer for SP, and then SP's new text. -/
theorem popLoadsTop : Obligations.PopLoadsTop := by
  intro s ri n pa s1 hl hsp htr
  have hip := translateAddr_ip htr
  have hcfg := translateAddr_cfg htr
  refine ⟨fun hri hdef => ?other, ?sp, ?notInt⟩
  case other =>
    obtain ⟨hriIp, hriEfr⟩ := legalIn_write hl (List.mem_singleton_self _)
    have hdef1 : strDefined (s1.setReg ri (s1.mem.read pa)).cfg (n - 1) = true := by rwa [setReg_cfg, hcfg]
    have hi := exec_pop_of_translated hsp htr hl hri
    rw [writeResult_of_hasText (hasText_of_defined hdef1)] at hi
    refine completes_of_goOn hi (by rw [setInt_ip, setReg_ip, hip]) (by rw [setInt_cfg, setReg_cfg, hcfg])
      ⟨?_, getReg_sp_setInt_setIp _ hdef1 _, ?_⟩
    · rw [getReg_advance _ _ hriIp, getReg_setInt_ne _ _ _ _ hri, getReg_setReg_self _ _ _ hriIp hriEfr]
    · exact (((Frame.refl [ri, .sp] [] s1).setReg (by simp) _).setInt (by simp) _).advance.via htr
  case sp =>
    rintro rfl v hv hdef
    have hdef1 : strDefined s1.cfg (v - 1) = true := hcfg ▸ hdef
    have hi := exec_popSp_of_int hsp htr hl hv
    rw [writeResult_of_hasText (hasText_of_defined hdef1)] at hi
    exact completes_of_goOn hi ((setInt_ip ..).trans hip) ((setInt_cfg ..).trans hcfg)
      ⟨getReg_sp_setInt_setIp _ hdef1 _, ((Frame.refl _ _ s1).setInt (List.mem_singleton_self _) _).advance.via htr⟩
  case notInt =>
    rintro rfl hnone
    exact exec_popSp_of_not_int hsp htr hl hnone

/-- Settles O24: RET writes SP's new text and goes to the popped integer, if it is one. -/
theorem retPopsIp : Obligations.RetPopsIp := by
  intro s n pa s1 hsp htr
  have hcfg := translateAddr_cfg htr
  refine ⟨fun v hv hdef => ?_, exec_ret_of_not_int hsp htr⟩
  exact completesAt_of_goTo (exec_ret_of_int hsp htr hv hdef) ((setInt_cfg ..).trans hcfg)
    ⟨getReg_sp_setInt_setIp _ (hcfg.symm ▸ hdef) _,
      (((Frame.refl _ _ s1).setInt (List.mem_singleton_self _) _).setIp _).via htr⟩

/-! ### What the four raise: the first thing each does, and the rest `k` that a raise or a refusal cuts off (R16) -/

section
variable {s : State} {ri : Reg} {target : Nat} {i : Instr} {n stored : Int}

/-- All four read SP first. -/
theorem exec_stack_reads_sp (hi : i ∈ [Instr.push ri, .pop ri, .call target, .ret]) :
    ∃ k, exec i s = checked i s ((readInt .sp s).bind k) := by
  simp only [List.mem_cons, List.not_mem_nil, or_false] at hi
  rcases hi with rfl | rfl | rfl | rfl
  · exact ⟨_, rfl⟩
  · exact ⟨_, rfl⟩
  · exact ⟨_, congrArg (checked _ s) (Res.bind_assoc (readInt .sp s) _ _)⟩
  · exact ⟨_, rfl⟩

/-- With an integer in SP, `PUSH SP` and CALL store an integer's text next. -/
theorem exec_stack_stores_text (hsp : (s.getReg .sp).int? = some n)
    (hi : (i, stored) ∈ [(Instr.push .sp, n + 1), (.call target, s.ip + 2)]) :
    ∃ k, exec i s = checked i s ((memWriteInt (n + 1) stored s).bind k) := by
  have hread := readInt_of_int hsp
  simp only [List.mem_cons, List.not_mem_nil, or_false, Prod.mk.injEq] at hi
  rcases hi with ⟨rfl, rfl⟩ | ⟨rfl, rfl⟩
  · exact ⟨_, congrArg (checked _ s) (by rw [hread, bind_ok, storePushed, if_pos rfl])⟩
  · exact ⟨_, congrArg (checked _ s) (by rw [pushInt, hread, bind_ok, Res.bind_assoc])⟩

/-- With an integer in SP, PUSH of another register stores its word next. -/
theorem exec_push_stores_word (hsp : (s.getReg .sp).int? = some n) (hri : ri ≠ .sp) :
    ∃ k, exec (.push ri) s = checked (.push ri) s ((memWrite (n + 1) (s.getReg ri) s).bind k) :=
  ⟨_, congrArg (checked _ s) (by rw [readInt_of_int hsp, bind_ok, storePushed, if_neg hri])⟩

/-- With an integer in SP, POP and RET load the word there next. -/
theorem exec_stack_loads_top (hsp : (s.getReg .sp).int? = some n) (hi : i ∈ [Instr.pop ri, .ret]) :
    ∃ k, exec i s = checked i s ((memRead n s).bind k) := by
  have hread := readInt_of_int hsp
  simp only [List.mem_cons, List.not_mem_nil, or_false] at hi
  rcases hi with rfl | rfl
  · exact ⟨_, congrArg (checked _ s) (by rw [hread, bind_ok])⟩
  · exact ⟨_, congrArg (checked _ s) (by rw [popIp, hread, bind_ok])⟩

/-- A legal instruction that begins with what raises, raises it. -/
theorem raisesFrom_of_first {α : Type} {first : Res α} {k : α → State → Res Unit} {x : Exn}
    (hl : legalIn s.mode i = true) (hi : exec i s = checked i s (first.bind k)) (hraise : first = .raise x s) :
    RaisesFrom i x s s :=
  raisesFrom_of_raise (exec_of_legal hl hi rfl) (by rw [hraise, bind_raise])

end

/-- Settles O25: the first of SP's value, the stored text and the translation that fails ends the instruction. -/
theorem stackInstructionsRaise : Obligations.StackInstructionsRaise := by
  intro s ri target i hl
  refine ⟨fun hi hnone => ?badSp, fun n stored hsp hi => ⟨fun hnot => ?noText, fun htext x u htr => ?storeText⟩,
    fun n x u hsp hi hri htr => ?storeWord, fun n x u hsp hi htr => ?load⟩
  case badSp =>
    obtain ⟨k, hexec⟩ := exec_stack_reads_sp hi
    exact raisesFrom_of_first hl hexec (readInt_of_not_int hnone)
  case noText =>
    obtain ⟨k, hexec⟩ := exec_stack_stores_text hsp hi
    exact exec_of_legal hl hexec (by rw [memWriteInt, needText_of_not hnot, bind_refuse, bind_refuse])
  case storeText =>
    obtain ⟨rfl, -⟩ := translateAddr_eq_raise htr
    obtain ⟨k, hexec⟩ := exec_stack_stores_text hsp hi
    exact raisesFrom_of_first hl hexec (memWriteInt_eq_raise.2 ⟨htext, htr⟩)
  case storeWord =>
    obtain ⟨rfl, -⟩ := translateAddr_eq_raise htr
    subst hi
    obtain ⟨k, hexec⟩ := exec_push_stores_word hsp hri
    exact raisesFrom_of_first hl hexec (memWrite_eq_raise.2 htr)
  case load =>
    obtain ⟨k, hexec⟩ := exec_stack_loads_top hsp hi
    exact raisesFrom_of_first hl hexec (memRead_of_raise htr)

end Sys2Proof.Machine
end

section
/-! PROOFS. OUT, BRKP and END: what each changes beside IP (45_io_debug_end.md R171 to R173). -/

namespace Sys2Proof.Machine

/-- BRKP names no register and is not privileged, so neither mode forbids it (30_encoding.md R90 to R93). -/
theorem legalIn_brkp (m : Mode) : legalIn m .brkp = true := by cases m <;> rfl

/-- END names no register and is not privileged, so neither mode forbids it (30_encoding.md R90 to R93). -/
theorem legalIn_fin (m : Mode) : legalIn m .fin = true := by cases m <;> rfl

/-- Entering the debugger writes the count of entries and no other field, in debug mode or not. -/
theorem enterDebugger_eq (s : State) :
    enterDebugger s = { s with debugCalls := s.debugCalls + (if s.cfg.debugMode then 1 else 0) } := by
  unfold enterDebugger
  split <;> rfl

/-- Settles O27: OUT appends and goes on, and going on keeps the frame of the state with the output appended. -/
theorem outAppendsWord : Obligations.OutAppendsWord := by
  intro s ri hl
  obtain ⟨hregs, hmem, hdisk, hhidden, hout, hinput⟩ :=
    (Frame.refl [] [] { s with out := s.out ++ [s.getReg ri] }).advance
  exact completes_of_goOn (exec_of_legal hl rfl rfl) rfl rfl ⟨hout, hinput, hregs, hmem, hdisk, hhidden⟩

/-- Settles O28: BRKP goes on from the state with the entry counted, which differs by the count alone. -/
theorem brkpOnlyAdvances : Obligations.BrkpOnlyAdvances := by
  intro s
  have hexec := exec_of_legal (legalIn_brkp s.mode) rfl (congrArg goOn (enterDebugger_eq s))
  obtain ⟨hregs, hmem, hdisk, ⟨hmode, hstatus, htimer, hcfg, hcalls⟩, hconsole⟩ :=
    (Frame.refl [] [] { s with debugCalls := s.debugCalls + (if s.cfg.debugMode then 1 else 0) }).advance
  exact completes_of_goOn hexec rfl rfl ⟨hregs, hmem, hdisk, hconsole, hmode, hstatus, htimer, hcfg, hcalls⟩

/-- Settles O29: END's body is going on, the halt or the refusal, by the parameter. -/
theorem endFollowsItsParameter : Obligations.EndFollowsItsParameter := by
  intro s
  have hl := legalIn_fin s.mode
  refine ⟨fun hnop => ?nop, fun hhalt => ?halt, fun hrefuse => ?refuse⟩
  case nop => exact completes_of_goOn (exec_of_legal hl rfl (by rw [hnop])) rfl rfl (Frame.refl [] [] s).advance
  case halt =>
    obtain ⟨hregs, hmem, hdisk, -, hconsole⟩ := Frame.refl [] [] s
    refine ⟨{ s with status := .halted .fin }, ?_, rfl, rfl, rfl, hregs, hmem, hdisk, hconsole, rfl, rfl⟩
    rw [exec_of_legal hl rfl (by rw [hhalt]), outcome_ok]
  case refuse => rw [exec_of_legal hl rfl (by rw [hrefuse]), outcome_refuse]

end Sys2Proof.Machine
end

section
/-! PROOFS. INT: the entry into the kernel by a push of the return address, and what that push raises (46_int.md R180 to
R182). -/

namespace Sys2Proof.Machine

/-- INT names no register and is not privileged, so neither mode forbids it (30_encoding.md R90 to R93). -/
theorem legalIn_int (m : Mode) (n : Nat) : legalIn m (.int n) = true := by cases m <;> rfl

/-! ### Taking an interrupt -/

section
variable {s s1 u : State} {n m vector a : Int} {pa : Nat} {w : Word} {x : Exn}

/-- The state after an interrupt is taken: a push, then kernel mode at the vector. `takeInterrupt_of_writable` ties it to the
model. -/
def State.entered (pa : Nat) (w : Word) (top vector : Int) (s : State) : State :=
  { s.pushed pa w top with mode := .kernel, ip := vector }

/-- A push to a word that can be written, of a text that is defined, is followed by the entry at the vector. -/
theorem takeInterrupt_of_writable (hsp : (s.getReg .sp).int? = some n) (htop : strDefined s.cfg (n + 1) = true)
    (hret : strDefined s.cfg m = true) (htr : translateAddr (n + 1) s = .ok pa s1) (hw : Writable s pa) :
    takeInterrupt m vector s = .ok () (s1.entered pa (Word.ofInt m) (n + 1) vector) := by
  have hcfg := translateAddr_cfg htr
  rw [takeInterrupt_of_translated hsp hret htr,
    pushAt_of_writable (by rwa [Writable, hcfg]) (hcfg.symm ▸ htop), bind_ok, State.entered]

/-- SP is read first. -/
theorem takeInterrupt_of_not_int (hnone : (s.getReg .sp).int? = none) :
    takeInterrupt m vector s = .raise .illegalOperands s := by
  rw [takeInterrupt, pushInt, readInt_of_not_int hnone, bind_raise, bind_raise]

/-- The stack address is translated after the return address has its text (00_scope.md R16). -/
theorem takeInterrupt_of_raise (hsp : (s.getReg .sp).int? = some n) (hret : hasText s.cfg m = true)
    (htr : translateAddr (n + 1) s = .raise x u) : takeInterrupt m vector s = .raise x s := by
  obtain ⟨rfl, -⟩ := translateAddr_eq_raise htr
  rw [takeInterrupt, pushInt, readInt_of_int hsp, bind_ok, memWriteInt_eq_raise.2 ⟨hret, htr⟩, bind_raise, bind_raise]

/-- A return address without a text ends the interrupt before its address is translated (00_scope.md R16). -/
theorem takeInterrupt_of_noText (hsp : (s.getReg .sp).int? = some n) (hret : hasText s.cfg m = false) :
    takeInterrupt m vector s = .refuse .noText := by
  simp only [takeInterrupt, pushInt, readInt_of_int hsp, memWriteInt, needText_of_not hret, bind_ok, bind_refuse]

theorem entered_timerCount : (s.entered pa w n vector).timerCount = s.timerCount := setInt_timerCount ..

theorem read_entered : (s.entered pa w n vector).mem.read pa = w := by
  rw [State.entered, State.pushed, setInt_mem, read_write_self]

theorem getReg_sp_entered (htop : strDefined s.cfg n = true) :
    (s.entered pa w n vector).getReg .sp = Word.ofInt n :=
  getReg_setInt_self { s with mem := s.mem.write pa w } .sp n nofun nofun htop

/-- The entry changes IP, the mode, SP and the stack word alone, the translation's reference bit apart. -/
theorem entryFrame_entered (htr : translateAddr a s = .ok pa s1) :
    EntryFrame [pa] s s1 (s1.entered pa w n vector) := by
  have hs1 : s1 = { s with mem := s1.mem, timerCount := s1.timerCount } := by rw [translateAddr_changes htr]
  exact (((Frame.store s1 pa w).setInt (List.mem_singleton_self _) n).entryFrame hs1).enter .kernel vector

end

/-! ### INT where it takes the interrupt: in user mode, and in kernel mode under `execute` -/

section
variable {s s1 u : State} {k : Nat} {m : Int} {pa : Nat} {x : Exn}
  (hexec : s.mode = .user ∨ s.cfg.intInKernel = .execute)
include hexec

theorem exec_int_takes : exec (.int k) s = (takeInterrupt (s.ip + 2) (interruptVector k) s).outcome :=
  exec_int_of_executes (legalIn_int _ _) hexec

theorem int_enters_kernel (hsp : (s.getReg .sp).int? = some m) (htop : strDefined s.cfg (m + 1) = true)
    (hret : strDefined s.cfg (s.ip + 2) = true) (htr : translateAddr (m + 1) s = .ok pa s1) (hw : Writable s pa) :
    ∃ t, exec (.int k) s = .next t ∧ t.mem.read pa = Word.ofInt (s.ip + 2) ∧ t.getReg .sp = Word.ofInt (m + 1)
      ∧ t.mode = .kernel ∧ t.ip = (9 + 2 * (k : Int)) * 512 ∧ t.timerCount = s.timerCount ∧ EntryFrame [pa] s s1 t := by
  have hcount : s1.timerCount = s.timerCount := by rw [translateAddr_changes htr]
  refine ⟨s1.entered pa (Word.ofInt (s.ip + 2)) (m + 1) (interruptVector k), ?_, read_entered,
    getReg_sp_entered ((translateAddr_cfg htr).symm ▸ htop), rfl, rfl, entered_timerCount.trans hcount,
    entryFrame_entered htr⟩
  rw [exec_int_takes hexec, takeInterrupt_of_writable hsp htop hret htr hw, outcome_ok]

theorem int_raises_of_not_int (hnone : (s.getReg .sp).int? = none) : RaisesFrom (.int k) .illegalOperands s s :=
  raisesFrom_of_raise (exec_int_takes hexec) (takeInterrupt_of_not_int hnone)

theorem int_raises_of_translation (hsp : (s.getReg .sp).int? = some m) (hret : hasText s.cfg (s.ip + 2) = true)
    (htr : translateAddr (m + 1) s = .raise x u) : RaisesFrom (.int k) x s s :=
  raisesFrom_of_raise (exec_int_takes hexec) (takeInterrupt_of_raise hsp hret htr)

theorem int_refused_of_noText (hsp : (s.getReg .sp).int? = some m) (hret : hasText s.cfg (s.ip + 2) = false) :
    exec (.int k) s = .refused .noText := by
  rw [exec_int_takes hexec, takeInterrupt_of_noText hsp hret, outcome_refuse]

end

/-- Settles O30: user mode takes the interrupt, whatever `INT_IN_KERNEL` says. -/
theorem intEntersKernelAtItsVector : Obligations.IntEntersKernelAtItsVector := by
  intro s n hm _ _
  exact ⟨fun _ _ _ => int_enters_kernel (.inl hm), int_raises_of_not_int (.inl hm),
    fun _ _ _ => int_raises_of_translation (.inl hm), fun _ => int_refused_of_noText (.inl hm)⟩

/-- Settles O31: INT's body in kernel mode is the refusal, the raise or the interrupt, by the parameter; a stack address is
physical there, so its translation is the check of its range. -/
theorem intInKernelFollowsItsParameter : Obligations.IntInKernelFollowsItsParameter := by
  intro s n hm
  have hl := legalIn_int s.mode n
  refine ⟨fun hrefuse => ?refuse, fun hexn => ?exception, fun hexec => ?execute⟩
  case refuse => rw [exec_of_legal hl rfl (by rw [hm, hrefuse]), outcome_refuse]
  case exception => exact raisesFrom_of_raise (exec_of_legal hl rfl (by rw [hm, hexn])) rfl
  case execute =>
    refine ⟨fun m hsp hlo hhi hw htop hret => ?_, int_raises_of_not_int (.inr hexec), fun m hsp hret hout => ?_,
      fun _ => int_refused_of_noText (.inr hexec)⟩
    · have htr : translateAddr (m + 1) s = .ok (m + 1).toNat s := by rw [translateAddr_kernel hm, if_pos ⟨hlo, hhi⟩]
      exact int_enters_kernel (.inr hexec) hsp htop hret htr hw
    · have htr : translateAddr (m + 1) s = .raise .illegalMemoryAccess s := by
        rw [translateAddr_kernel hm, if_neg (by omega)]
      exact int_raises_of_translation (.inr hexec) hsp hret htr

end Sys2Proof.Machine
end

section
/-! PROOFS. The step by modes: what a user-mode step can end in, and through which gates the mode changes (60_exceptions.md
R207, R208, R220, R221). -/

namespace Sys2Proof.Machine

/-! ### What an exception leaves unchanged -/

section
variable (e : Exn) (s : State)

/-- Taking an exception writes EFR, the mode, IP, the status and the draw counter at most. -/
theorem takeException_writes : ∃ w m n st d,
    takeException e s = { s with efr := w, mode := m, ip := n, status := st, draws := d } := by
  have hrecord : ∃ w d, recordException e s = { s with efr := w, draws := d } := by
    cases e with
    | pageFault lpn => simp only [recordException]; split <;> exact ⟨_, _, rfl⟩
    | illegalInstruction | illegalMemoryAccess | arithmetic | illegalOperands =>
      simp only [recordException]; split <;> exact ⟨_, _, rfl⟩
  obtain ⟨w, d, hrecord⟩ := hrecord
  unfold takeException
  rw [hrecord]
  split <;> exact ⟨_, _, _, _, _, rfl⟩

theorem regsKept_takeException : RegsKept [.efr] s (takeException e s) := fun r hip hr =>
  getReg_takeException s r e hip (List.ne_of_not_mem_cons hr)

end

/-! ### The ends of a user-mode step -/

/-- The addresses at which an interrupt enters the kernel: the timer's, and those of INT 1 to INT 7 (R216, 46_int.md R180). -/
def InterruptEntry (v : Int) : Prop := v = timerVector ∨ ∃ n, validInterrupt n = true ∧ v = interruptVector n

/-- The exception handler, at 3584, is no interrupt's routine. -/
theorem InterruptEntry.ne_exceptionVector {v : Int} (h : InterruptEntry v) : v ≠ exceptionVector := by
  rcases h with rfl | ⟨n, -, rfl⟩
  · decide
  · simp only [interruptVector, exceptionVector]
    omega

/-- What a step from the user-mode state `s` can end in, the timer count apart; `step_user_cases` ties it to the model. -/
inductive UserStep (s : State) : State → Prop
  | exception (e : Exn) {u : State} (h : RefBits s u) : UserStep s (takeException e u)
  | ordinary {t : State} (h : Effect s t) : UserStep s t
  | interrupt {u : State} {v : Int} (hv : InterruptEntry v) (h : Kept s u) : UserStep s { u with mode := .kernel, ip := v }
  | fin {u : State} (h : RefBits s u) : UserStep s { u with status := .halted .fin }

section
variable {s t u : State}

/-- What an instruction keeps after its fetch has set reference bits, the two together keep. -/
theorem RefBits.kept_trans (hu : RefBits s u) (h : Kept u t) : Kept s t where
  wf hwf := h.wf (hu.wf hwf)
  word hm := hu.userWordsOnly_trans (h.word (hu.mode_eq.trans hm))
  disk := h.disk.trans hu.kept.disk
  mode := h.mode.trans hu.mode_eq
  status := h.status.trans hu.kept.status
  timerCount := h.timerCount.trans hu.kept.timerCount
  cfg := h.cfg.trans hu.kept.cfg
  efr := h.efr.trans hu.kept.efr
  hidden hm := by
    obtain ⟨hkern, htemp, hptbr, hptlr⟩ := h.hidden (hu.mode_eq.trans hm)
    obtain ⟨hkern', htemp', hptbr', hptlr'⟩ := hu.kept.hidden hm
    exact ⟨hkern.trans hkern', htemp.trans htemp', hptbr.trans hptbr', hptlr.trans hptlr'⟩

theorem RefBits.userStep_trans (hu : RefBits s u) (h : UserStep u t) : UserStep s t := by
  cases h with
  | exception e h => exact .exception e (hu.trans h)
  | ordinary h => exact .ordinary ⟨hu.kept_trans h.1, h.2⟩
  | interrupt hv h => exact .interrupt hv (hu.kept_trans h)
  | fin h => exact .fin (hu.trans h)

theorem userStep_exec {i : Instr} (hm : s.mode = .user) (hwf : i.wellFormed = true) (h : exec i s = .next t) :
    UserStep s t := by
  rcases exec_user_cases hm h with ⟨e, u, hu, rfl⟩ | heffect | ⟨n, u, rfl, hkept, rfl⟩ | ⟨-, rfl⟩
  · exact .exception e hu
  · exact .ordinary heffect
  · exact .interrupt (.inr ⟨n, hwf, rfl⟩) hkept
  · exact .fin (.refl s)

theorem userStep_fetchExecute (hm : s.mode = .user) (h : fetchExecute decodeWords s = .next t) : UserStep s t := by
  rcases fetchExecute_eq_next h with ⟨w0, w1, u, i, hfetch, hdec, hexec⟩ | ⟨e, u, hu, rfl⟩
  · have hu := refBits_fetch hfetch
    exact hu.userStep_trans (userStep_exec (hu.mode_eq.trans hm) (wellFormed_of_decodeWords hdec) hexec)
  · exact .exception e hu

theorem userStep_timerInterrupt (h : timerInterrupt s = .next t) : UserStep (s.withTimer 0) t := by
  rcases takeInterrupt_next h with ⟨e, u, rfl, hu, -⟩ | ⟨u, hkept, rfl⟩
  · exact .exception e hu
  · exact .interrupt (.inl rfl) hkept

/-- Everything a step from user mode can end in: the timer count is set before the interrupt, or one more after the
instruction. -/
theorem step_user_cases (hm : s.mode = .user) (h : step s = .next t) :
    ∃ j k u, UserStep (s.withTimer j) u ∧ t = u.withTimer k := by
  rcases step_eq_next h with ⟨-, htimer⟩ | ⟨-, hcount⟩
  · exact ⟨0, t.timerCount, t, userStep_timerInterrupt htimer, rfl⟩
  · obtain ⟨u, hu, rfl⟩ := countStep_user_eq_next (hm ▸ hcount)
    exact ⟨s.timerCount, u.timerCount + 1, u, userStep_fetchExecute hm hu, rfl⟩

/-- A user-mode step that ends in kernel mode has raised an exception or taken an interrupt. -/
theorem UserStep.enters_kernel (h : UserStep s t) (hm : s.mode = .user) (ht : t.mode = .kernel) :
    (∃ e u, RefBits s u ∧ t = takeException e u)
      ∨ ∃ u v, InterruptEntry v ∧ Kept s u ∧ t = { u with mode := .kernel, ip := v } := by
  cases h with
  | exception e h => exact .inl ⟨e, _, h, rfl⟩
  | ordinary h => rw [h.1.mode, hm] at ht; cases ht
  | interrupt hv h => exact .inr ⟨_, _, hv, h, rfl⟩
  | fin h => exact absurd (h.mode_eq.symm.trans ht) (by rw [hm]; nofun)

/-! ### What user mode cannot change (R221) -/

/-- The kernel's registers, the page table's registers and the disk stay. -/
def KernelStateKept (s t : State) : Prop :=
  t.kern = s.kern ∧ t.temp = s.temp ∧ t.ptbr = s.ptbr ∧ t.ptlr = s.ptlr ∧ t.disk = s.disk

theorem Kept.kernelStateKept (h : Kept s t) (hm : s.mode = .user) : KernelStateKept s t := by
  obtain ⟨hkern, htemp, hptbr, hptlr⟩ := h.hidden hm
  exact ⟨hkern, htemp, hptbr, hptlr, h.disk⟩

theorem KernelStateKept.takeException (h : KernelStateKept s u) (e : Exn) : KernelStateKept s (takeException e u) := by
  obtain ⟨w, m, n, st, d, hwrites⟩ := takeException_writes e u
  rwa [hwrites]

theorem UserStep.kernelStateKept (h : UserStep s t) (hm : s.mode = .user) : KernelStateKept s t := by
  cases h with
  | exception e h => exact (h.kept.kernelStateKept hm).takeException e
  | ordinary h => exact h.1.kernelStateKept hm
  | interrupt _ h => exact h.kernelStateKept hm
  | fin h => exact h.kept.kernelStateKept hm

/-- Only an exception writes EFR, and it ends at the handler. -/
theorem UserStep.handler_of_efr (h : UserStep s t) (hm : s.mode = .user) (hefr : t.efr ≠ s.efr) :
    t.mode = .kernel ∧ t.ip = exceptionVector := by
  cases h with
  | exception e h => exact ⟨takeException_mode .., (takeException_user e (h.mode_eq.trans hm)).1⟩
  | ordinary h => exact absurd h.1.efr hefr
  | interrupt _ h => exact absurd h.efr hefr
  | fin h => exact absurd h.kept.efr hefr

end

/-- Settles O57: neither property sees the timer count. -/
theorem userStepKeepsKernelState : Obligations.UserStepKeepsKernelState := by
  intro s t hm hstep
  obtain ⟨j, k, u, hends, rfl⟩ := step_user_cases hm hstep
  obtain ⟨hkern, htemp, hptbr, hptlr, hdisk⟩ := hends.kernelStateKept hm
  exact ⟨hkern, htemp, hptbr, hptlr, hdisk, hends.handler_of_efr hm⟩

/-! ### Exceptions of user mode are precise (R208) -/

section
variable {s u : State}

/-- `t` is what `s` was but for EFR, IP, the machine's hidden state and reference bits. -/
def OnlyExceptionFrom (s t : State) : Prop :=
  RegsKept [.efr] s t ∧ DiskKept s t ∧ ConsoleKept s t
    ∧ ∀ a, t.mem.read a ≠ s.mem.read a →
        (∃ k e, EntryAt s k e ∧ a = e + 1)
        ∧ ∃ c v rest, (s.mem.read a).chars = c :: v :: rest ∧ (t.mem.read a).chars = Chr.ofNat 49 :: v :: rest

theorem RefBits.onlyExceptionFrom (h : RefBits s u) (e : Exn) : OnlyExceptionFrom s (takeException e u) := by
  refine ⟨fun r hip hr => ?_, fun a => ?_, ?_, fun a ha => ?_⟩
  · rw [regsKept_takeException e u r hip hr, h.rest]
    cases r <;> rfl
  · rw [takeException_disk, h.kept.disk]
  · rw [ConsoleKept, takeException_out, takeException_input, h.rest]
    exact ⟨rfl, rfl⟩
  · rw [takeException_mem] at ha ⊢
    obtain ⟨hentry, c, v, rest, hbefore, hafter, -⟩ := h.bit a ha
    exact ⟨hentry, c, v, rest, hbefore, hafter⟩

end

/-- Settles O60: an interrupt's routine is elsewhere, so a step that ends at 3584 has raised an exception. -/
theorem userExceptionsArePrecise : Obligations.UserExceptionsArePrecise := by
  intro s t hm hstep hkernel hip
  obtain ⟨j, k, v, hends, rfl⟩ := step_user_cases hm hstep
  rcases hends.enters_kernel hm hkernel with ⟨e, u, hu, rfl⟩ | ⟨u, v, hv, -, rfl⟩
  · exact hu.onlyExceptionFrom e
  · exact absurd hip hv.ne_exceptionVector

/-! ### The gates (R220) -/

section
variable {s t : State}

/-- In kernel mode every instruction but IRET stays in kernel mode. -/
theorem exec_kernel_mode {i : Instr} (hm : s.mode = .kernel) (hi : i ≠ .iret) (h : exec i s = .next t) :
    t.mode = .kernel := by
  cases hl : legalIn s.mode i with
  | false =>
    obtain ⟨body, hbody⟩ := exec_eq_checked i s
    rw [hbody, checked_of_illegal body hl] at h
    rw [(raiseException_eq_next.1 h).2, takeException_mode]
  | true =>
    cases i with
    | iret => exact absurd rfl hi
    | int n =>
      rcases execInt_next h with ⟨e, u, rfl, -⟩ | ⟨u, -, rfl⟩
      · exact takeException_mode ..
      · rfl
    | fin => rcases execEnd_eq_next h with rfl | rfl <;> simpa using hm
    | load x y =>
      rcases execLoad_next hm h with ⟨e, u, rfl, -⟩ | rfl | ⟨p, b, -, -, rfl⟩
      · exact takeException_mode ..
      · simpa using hm
      · simpa using hm
    | store x y =>
      rcases execStore_next hm h with ⟨e, u, rfl, -⟩ | ⟨p, b, -, -, rfl⟩
      · exact takeException_mode ..
      · simpa [storePage] using hm
    | halt =>
      rw [exec_of_legal hl rfl rfl, outcome_ok] at h
      cases h
      exact hm
    | _ =>
      rcases exec_ordinary hl h nofun rfl nofun with ⟨e, u, rfl, -⟩ | ⟨hkept, -⟩
      · exact takeException_mode ..
      · exact hkept.mode.trans hm

/-- The timer is due in user mode alone (R215). -/
theorem user_of_timerDue (h : timerDue s = true) : s.mode = .user := by
  cases hm : s.mode with
  | user => rfl
  | kernel => simp [timerDue, hm] at h

/-- A step from kernel mode is a fetch and what follows it. -/
theorem step_kernel_eq_next (hm : s.mode = .kernel) (h : step s = .next t) : fetchExecute decodeWords s = .next t := by
  rcases step_eq_next h with ⟨hdue, -⟩ | ⟨-, hcount⟩
  · rw [user_of_timerDue hdue] at hm; cases hm
  · rwa [hm] at hcount

end

/-- Settles O58: from kernel mode by the fetched instruction, from user mode by the ends of its steps. -/
theorem modeChangesOnlyAtItsGates : Obligations.ModeChangesOnlyAtItsGates := by
  intro s t hstep
  refine ⟨fun hm ht => ?left, fun hm ht => ?entered⟩
  case left =>
    rcases fetchExecute_eq_next (step_kernel_eq_next hm hstep) with ⟨w0, w1, u, i, hfetch, hdec, hexec⟩ | ⟨e, u, -, rfl⟩
    · by_cases hi : i = .iret
      · exact ⟨w0, w1, u, hfetch, hi ▸ hdec⟩
      · rw [exec_kernel_mode ((refBits_fetch hfetch).mode_eq.trans hm) hi hexec] at ht
        cases ht
    · rw [takeException_mode] at ht
      cases ht
  case entered =>
    obtain ⟨j, k, v, hends, rfl⟩ := step_user_cases hm hstep
    rcases hends.enters_kernel hm ht with ⟨e, u, hu, rfl⟩ | ⟨u, v, rfl | ⟨n, hn, rfl⟩, -, rfl⟩
    · exact .inl (takeException_user e (hu.mode_eq.trans hm)).1
    · exact .inr (.inl rfl)
    · obtain ⟨hlow, hhigh⟩ : 1 ≤ n ∧ n ≤ 7 := of_decide_eq_true hn
      exact .inr (.inr ⟨n, hlow, hhigh, rfl⟩)

end Sys2Proof.Machine
end

section
/-! PROOFS. Exceptions and the timer: when an exception is taken, when the timer interrupt is due, what its push stores and
raises, and which steps are counted (60_exceptions.md R205, R206, R214 to R217). -/

namespace Sys2Proof.Machine

/-! ### Exceptions -/

theorem ipFitsEfr_iff {n : Int} : ipFitsEfr n = true ↔ 0 ≤ n ∧ n ≤ 99999 := by simp [ipFitsEfr]

/-- The fields of EFR have their widths where IP has at most 5 digits and a page fault's page at most 2 (10_state.md R29). -/
theorem efrFits_iff {e : Exn} {s : State} :
    efrFits e s = true ↔ 0 ≤ s.ip ∧ s.ip ≤ 99999 ∧ ∀ lpn : Nat, e = .pageFault lpn → lpn ≤ 99 := by
  cases e with
  | pageFault n => simp [efrFits, ipFitsEfr_iff, and_assoc]
  | illegalInstruction | illegalMemoryAccess | arithmetic | illegalOperands => simp [efrFits, ipFitsEfr_iff]

theorem efrTaken_iff {e : Exn} {s : State} :
    efrTaken e s = true ↔ efrFits e s = true ∨ s.cfg.unspecifiedValue = .free := by
  simp [efrTaken]

theorem raiseException_of_not_taken {e : Exn} {s : State} (h : efrTaken e s ≠ true) :
    raiseException e s = .refused .efrOverflow := by
  rw [raiseException, if_neg h]

/-- Settles O39: `efrTaken` decides, and the state after the exception is `takeException`'s. -/
theorem exceptionEntersHandlerOrHalts : Obligations.ExceptionEntersHandlerOrHalts := by
  intro s x fits hfits
  rw [hfits, ← efrFits_iff]
  refine ⟨fun h => raiseException_of_taken (efrTaken_iff.2 h), fun hnot hrefuse => raiseException_of_not_taken ?_,
    regsKept_takeException x s, fun a _ => ?_, fun a => ?_, ⟨takeException_out .., takeException_input ..⟩,
    takeException_timerCount .., takeException_cfg .., takeException_debugCalls .., takeException_mode ..,
    takeException_user x, takeException_kernel x⟩
  · rw [Ne, efrTaken_iff, hrefuse]
    exact fun h => h.elim hnot nofun
  · rw [takeException_mem]
  · rw [takeException_disk]

/-! ### The timer interrupt -/

theorem timerDue_iff {s : State} :
    timerDue s = true ↔ s.mode = .user ∧ ∃ n, s.cfg.timerInterval = some n ∧ n ≤ s.timerCount := by
  unfold timerDue
  cases s.mode with
  | kernel => simp
  | user => cases s.cfg.timerInterval <;> simp

/-- The interrupt is taken from the state in which the count is cleared (R216). -/
theorem timerInterrupt_eq (s : State) :
    timerInterrupt s = (takeInterrupt s.ip timerVector (s.withTimer 0)).outcome := rfl

/-- A translation succeeds alike whatever the timer count. -/
theorem translateAddr_withTimer_of_ok {s s1 : State} {a : Int} {pa : Nat} (k : Nat) (h : translateAddr a s = .ok pa s1) :
    translateAddr a (s.withTimer k) = .ok pa (s1.withTimer k) := by
  rw [translateAddr_withTimer, h, Res.mapState]

section
variable {s s1 u : State} {m : Int} {pa : Nat} {x : Exn} (hsp : (s.getReg .sp).int? = some m)
include hsp

/-- A push to a word that can be written: the state with the count cleared, entered at the timer's routine. -/
theorem timerInterrupt_of_writable (htop : strDefined s.cfg (m + 1) = true) (hip : strDefined s.cfg s.ip = true)
    (htr : translateAddr (m + 1) s = .ok pa s1) (hw : Writable s pa) :
    timerInterrupt s = .next ((s1.withTimer 0).entered pa (Word.ofInt s.ip) (m + 1) timerVector) := by
  have htr0 := translateAddr_withTimer_of_ok 0 htr
  rw [timerInterrupt_eq, takeInterrupt_of_writable (s := s.withTimer 0) hsp htop hip htr0 hw, outcome_ok]

theorem timerInterrupt_of_raise (hip : hasText s.cfg s.ip = true) (htr : translateAddr (m + 1) s = .raise x u) :
    timerInterrupt s = raiseException x (s.withTimer 0) := by
  have htr0 : translateAddr (m + 1) (s.withTimer 0) = .raise x (u.withTimer 0) := by
    rw [translateAddr_withTimer, htr, Res.mapState]
  rw [timerInterrupt_eq, takeInterrupt_of_raise (s := s.withTimer 0) hsp hip htr0, outcome_raise]

end

theorem timerInterrupt_of_not_int {s : State} (hnone : (s.getReg .sp).int? = none) :
    timerInterrupt s = raiseException .illegalOperands (s.withTimer 0) := by
  rw [timerInterrupt_eq, takeInterrupt_of_not_int (s := s.withTimer 0) hnone, outcome_raise]

/-- Settles O41: the interrupt's end is `State.entered`, whose frame is an interrupt's. -/
theorem timerInterruptsUserMode : Obligations.TimerInterruptsUserMode := by
  refine ⟨fun s => timerDue_iff, fun s interval m pa s1 hrun hm hint hdue hsp htop hip htr hw => ?_⟩
  refine ⟨(s1.withTimer 0).entered pa (Word.ofInt s.ip) (m + 1) timerVector, ?_, entered_timerCount, read_entered,
    getReg_sp_entered ((translateAddr_cfg htr).symm ▸ htop), rfl, rfl,
    (entryFrame_entered (translateAddr_withTimer_of_ok 0 htr) :)⟩
  rw [step_of_timer hrun hm hint hdue, timerInterrupt_of_writable hsp htop hip htr hw]

/-- Settles O42: the interrupt raises what its push raises, from the state with the count cleared. -/
theorem timerPushFaultIsUserException : Obligations.TimerPushFaultIsUserException := by
  rintro s v interval hrun hm hint hdue rfl
  rw [step_of_timer hrun hm hint hdue]
  refine ⟨timerInterrupt_of_not_int, fun m x u hsp hip htr => timerInterrupt_of_raise hsp hip htr, fun x => ?_⟩
  obtain ⟨hip, -⟩ := takeException_user (s := s.withTimer 0) x hm
  refine ⟨takeException_timerCount .., takeException_mode .., hip, fun r hne hr => ?_, fun a _ => ?_⟩
  · rw [regsKept_takeException x _ r hne hr]
    cases r <;> rfl
  · rw [takeException_mem]

/-! ### The timer count -/

/-- Settles O43: no instruction and no exception writes the count; the step adds one in user mode, and the interrupt clears
it. -/
theorem timerCountsUserSteps : Obligations.TimerCountsUserSteps := by
  intro s t hstep
  refine ⟨fun hm => ?kernel, fun hm hdue => ?counted, fun hdue => ?cleared⟩
  case kernel => exact (invKept_fetchExecute (step_kernel_eq_next hm hstep)).timerCount
  case counted =>
    rcases step_eq_next hstep with ⟨hdue', -⟩ | ⟨-, hcount⟩
    · rw [hdue] at hdue'; cases hdue'
    · obtain ⟨u, hu, rfl⟩ := countStep_user_eq_next (hm ▸ hcount)
      exact congrArg (· + 1) (invKept_fetchExecute hu).timerCount
  case cleared =>
    rcases step_eq_next hstep with ⟨-, htimer⟩ | ⟨hdue', -⟩
    · exact (invKept_timerInterrupt htimer).timerCount
    · rw [hdue] at hdue'; cases hdue'

end Sys2Proof.Machine
end

section
/-! PROOFS. The privileged instructions in kernel mode: IRET, LOAD, STORE and HALT (47_privileged.md R186 to R190). -/

namespace Sys2Proof.Machine

/-! ### Legality -/

theorem legalIn_kernel_iret : legalIn .kernel .iret = true := rfl

theorem legalIn_kernel_halt : legalIn .kernel .halt = true := rfl

/-- LOAD and STORE only read their registers, and kernel mode may read every one (30_encoding.md R92, R94). -/
theorem kernelUse_of_arguments {x y : Arg} {u : Access × Reg} (hu : u ∈ argUses x ++ argUses y) :
    kernelUse u.1 u.2 = true := by
  have hread : u.1 = .read := (List.mem_append.1 hu).elim access_of_argUses access_of_argUses
  rw [hread, kernelUse]

theorem legalIn_kernel_load (x y : Arg) : legalIn .kernel (.load x y) = true :=
  legalIn_kernel.2 fun _ => kernelUse_of_arguments

theorem legalIn_kernel_store (x y : Arg) : legalIn .kernel (.store x y) = true :=
  legalIn_kernel.2 fun _ => kernelUse_of_arguments

/-! ### HALT -/

/-- Settles O37. -/
theorem haltStopsTheMachine : Obligations.HaltStopsTheMachine := by
  intro s hm
  have hexec : exec .halt s = (Res.ok () { s with status := .halted .halt }).outcome :=
    exec_of_legal (hm ▸ legalIn_kernel_halt) rfl rfl
  exact ⟨_, hexec, rfl, step_of_halted nofun⟩

/-! ### IRET: a pop of IP in user mode -/

section
variable {s s1 u : State} {n v : Int} {pa : Nat} {x : Exn}

theorem exec_iret (hm : s.mode = .kernel) : exec .iret s = (popIp { s with mode := .user }).outcome :=
  exec_of_legal (hm ▸ legalIn_kernel_iret) rfl rfl

theorem popIp_of_sp_not_int (hnone : (s.getReg .sp).int? = none) : popIp s = .raise .illegalOperands s := by
  rw [popIp, readInt_of_not_int hnone, bind_raise]

theorem popIp_of_raise (hsp : (s.getReg .sp).int? = some n) (htr : translateAddr n s = .raise x u) :
    popIp s = .raise x s := by
  rw [popIp, readInt_of_int hsp, bind_ok, memRead_of_raise htr, bind_raise]

theorem popIp_of_word_not_int (hsp : (s.getReg .sp).int? = some n) (htr : translateAddr n s = .ok pa s1)
    (hnone : (s1.mem.read pa).int? = none) : popIp s = .raise .illegalOperands s1 := by
  rw [popIp, readInt_of_int hsp, bind_ok, memRead_of_translated htr, bind_ok, hnone]

theorem popIp_of_int (hsp : (s.getReg .sp).int? = some n) (htr : translateAddr n s = .ok pa s1)
    (hv : (s1.mem.read pa).int? = some v) (hdef : strDefined s.cfg (n - 1) = true) :
    popIp s = goTo v (s1.setInt .sp (n - 1)) := by
  have htext : hasText s1.cfg (n - 1) = true := hasText_of_defined (translateAddr_cfg htr ▸ hdef)
  simp only [popIp, readInt_of_int hsp, memRead_of_translated htr, hv, writeInt_of_hasText htext, bind_ok]

end

/-- Settles O32: what the pop leaves, IP apart, is the frame of SP and its reference bit, in user mode. -/
theorem iretEntersUserModeAndPopsIp : Obligations.IretEntersUserModeAndPopsIp := by
  intro s n v pa s1 hm hsp htr hv hdef
  have hcfg := translateAddr_cfg htr
  have hexec := exec_iret hm
  rw [popIp_of_int (s := { s with mode := .user }) hsp htr hv hdef] at hexec
  refine completesAt_of_goTo hexec ((setInt_cfg ..).trans hcfg) ?_
  obtain ⟨hregs, hmem, hdisk, ⟨hmode, hstatus, htimer, hcfg', -⟩, hconsole⟩ :=
    (((Frame.refl [.sp] [] s1).setInt (List.mem_singleton_self _) (n - 1)).setIp v).via htr
  refine ⟨hmode, getReg_sp_setInt_setIp _ (hcfg.symm ▸ hdef) v, fun r hip hr => ?_, hmem, hdisk, hconsole, hstatus, htimer,
    hcfg'⟩
  rw [hregs r hip hr]
  cases r <;> rfl

/-- Settles O33: IRET raises what the pop raises, in user mode, but for a reference bit. -/
theorem iretFaultsAreUserModeExceptions : Obligations.IretFaultsAreUserModeExceptions := by
  rintro s v hm rfl
  simp only [RaisesFrom, exec_iret hm]
  refine ⟨fun hnone => ?sp, fun n x u hsp htr => ?translation, fun n pa u hsp htr hnone => ?word, fun x u hu => ?taken⟩
  case sp => rw [popIp_of_sp_not_int (s := { s with mode := .user }) hnone, outcome_raise]
  case translation => rw [popIp_of_raise (s := { s with mode := .user }) hsp htr, outcome_raise]
  case word => rw [popIp_of_word_not_int (s := { s with mode := .user }) hsp htr hnone, outcome_raise]
  case taken =>
    have hbits : RefBits { s with mode := .user } u := by
      rcases hu with rfl | ⟨n, pa, htr⟩
      · exact .refl _
      · exact refBits_translateAddr htr
    obtain ⟨hip, hstatus⟩ := takeException_user x hbits.mode_eq
    obtain ⟨hregs, -⟩ := hbits.onlyExceptionFrom x
    refine ⟨takeException_mode .., hip, hstatus.trans hbits.kept.status, fun r hne hr => ?_⟩
    rw [hregs r hne hr]
    cases r <;> rfl

/-! ### The arguments of LOAD and STORE (R189) -/

section
variable {s : State} {x y : Arg} {m n : Int} {k : Int → Int → State → Res Unit}

theorem argValue_of_int (h : argInt s x = some n) : argValue x s = .ok n s := by
  cases x with
  | reg r => exact readInt_of_int h
  | lit v => rw [← Option.some.inj h]; rfl

theorem argValue_of_not_int (h : argInt s x = none) : argValue x s = .raise .illegalOperands s := by
  cases x with
  | reg r => exact readInt_of_not_int h
  | lit v => cases h

theorem arguments_of_ints (hx : argInt s x = some m) (hy : argInt s y = some n) :
    ((argValue x s).bind fun m s => (argValue y s).bind fun n s => k m n s) = k m n s := by
  rw [argValue_of_int hx, bind_ok, argValue_of_int hy, bind_ok]

/-- Both arguments are read before either is checked, and reading one changes nothing: whichever is no integer, the
exception is the same. -/
theorem arguments_of_not_int (h : argInt s x = none ∨ argInt s y = none) :
    ((argValue x s).bind fun m s => (argValue y s).bind fun n s => k m n s) = .raise .illegalOperands s := by
  cases hx : argInt s x with
  | none => rw [argValue_of_not_int hx, bind_raise]
  | some m =>
    have hy : argInt s y = none := h.resolve_left (by simp [hx])
    rw [argValue_of_int hx, bind_ok, argValue_of_not_int hy, bind_raise]

theorem checkPageBlock_of_in_range {p b : Nat} (hp : p ≤ 63) (hb : b ≤ 511) : checkPageBlock p b s = .ok () s := by
  rw [checkPageBlock, if_neg (by omega)]

theorem checkPageBlock_of_out_of_range {p b : Int} (h : p < 0 ∨ 63 < p ∨ b < 0 ∨ 511 < b) :
    checkPageBlock p b s = .raise .illegalMemoryAccess s := by
  rw [checkPageBlock, if_pos (by omega)]

/-- LOAD with its arguments in order. -/
theorem exec_load_of_arguments {p b : Nat} (hm : s.mode = .kernel) (hx : argInt s x = some (p : Int))
    (hy : argInt s y = some (b : Int)) (hp : p ≤ 63) (hb : b ≤ 511) :
    exec (.load x y) s = ((loadPage p b s).bind fun _ u => goOn u).outcome := by
  refine exec_of_legal (hm ▸ legalIn_kernel_load x y) rfl ((arguments_of_ints hx hy).trans ?_)
  rw [checkPageBlock_of_in_range hp hb, bind_ok, Int.toNat_natCast, Int.toNat_natCast]

/-- STORE with its arguments in order. -/
theorem exec_store_of_arguments {b p : Nat} (hm : s.mode = .kernel) (hx : argInt s x = some (b : Int))
    (hy : argInt s y = some (p : Int)) (hb : b ≤ 511) (hp : p ≤ 63) :
    exec (.store x y) s = (goOn (storePage b p s)).outcome := by
  refine exec_of_legal (hm ▸ legalIn_kernel_store x y) rfl ((arguments_of_ints hx hy).trans ?_)
  rw [checkPageBlock_of_in_range hp hb, bind_ok, Int.toNat_natCast, Int.toNat_natCast]

end

/-- Settles O36: LOAD and STORE differ here in the order of their arguments alone. -/
theorem loadStoreArgumentsAreChecked : Obligations.LoadStoreArgumentsAreChecked := by
  intro s x y hm i hi
  simp only [List.mem_cons, List.not_mem_nil, or_false] at hi
  rcases hi with rfl | rfl
  case inl =>
    have hl : legalIn s.mode (.load x y) = true := hm ▸ legalIn_kernel_load x y
    refine ⟨fun h => exec_of_legal hl rfl (arguments_of_not_int h), fun p b hx hy hrange => ?_⟩
    refine exec_of_legal (result := .raise .illegalMemoryAccess s) hl rfl ((arguments_of_ints hx hy).trans ?_)
    rw [checkPageBlock_of_out_of_range hrange, bind_raise]
  case inr =>
    have hl : legalIn s.mode (.store y x) = true := hm ▸ legalIn_kernel_store y x
    refine ⟨fun h => exec_of_legal hl rfl (arguments_of_not_int h.symm), fun p b hx hy hrange => ?_⟩
    refine exec_of_legal (result := .raise .illegalMemoryAccess s) hl rfl ((arguments_of_ints hy hx).trans ?_)
    rw [checkPageBlock_of_out_of_range hrange, bind_raise]

/-! ### The copies of LOAD and STORE -/

section
variable {dst src : Memory} {p b : Nat}

/-- The words of the page copied to are those of the page copied from. -/
theorem read_copyWords_page {k : Nat} (hk : k < 512) :
    (dst.copyWords (p * pageWords) src (b * pageWords) pageWords).read (512 * p + k) = src.read (512 * b + k) := by
  simp only [read_copyWords, pageWords]
  rw [if_pos (by omega)]
  congr 1
  omega

/-- The words of every other page stay. -/
theorem read_copyWords_other {a : Nat} (ha : a / 512 ≠ p) :
    (dst.copyWords (p * pageWords) src (b * pageWords) pageWords).read a = dst.read a := by
  simp only [read_copyWords, pageWords]
  rw [if_neg (by omega)]

end

/-- The state with disk block `b` over memory page `p`; `loadPage_of_writes` ties it to the model. -/
def State.loaded (p b : Nat) (s : State) : State :=
  { s with mem := s.mem.copyWords (p * pageWords) s.disk (b * pageWords) pageWords }

section
variable {s : State} {p b : Nat}

theorem loadPage_of_writes (h : p ≠ 0 ∨ s.cfg.romWrite = .write) : loadPage p b s = .ok () (s.loaded p b) := by
  by_cases hp : p = 0
  · subst hp
    simp only [loadPage, h.resolve_left (· rfl), if_true, State.loaded, Nat.zero_mul]
  · rw [loadPage, if_neg hp, State.loaded]

theorem loadPage_rom_ignore (h : s.cfg.romWrite = .ignore) : loadPage 0 b s = .ok () s := by
  simp [loadPage, h]

theorem loadPage_rom_refuse (h : s.cfg.romWrite = .refuse) : loadPage 0 b s = .refuse .romWrite := by
  simp [loadPage, h]

end

/-- Settles O34: LOAD copies and goes on, where the ROM page lets it. -/
theorem loadCopiesBlockToPage : Obligations.LoadCopiesBlockToPage := by
  intro s x y p b hm hx hy hp hb
  have hexec := exec_load_of_arguments hm hx hy hp hb
  refine ⟨fun hwrites => ?copied, fun h0 hignore => ?dropped, fun h0 hrefuse => ?refused⟩
  case copied =>
    rw [loadPage_of_writes hwrites, bind_ok] at hexec
    obtain ⟨hregs, -, hdisk, hhidden, hconsole⟩ := (Frame.refl [] [] (s.loaded p b)).advance
    refine completes_of_goOn hexec rfl rfl ⟨fun k hk => ?_, fun a ha => ?_, hregs, hdisk, hhidden, hconsole⟩
    · rw [advance_mem]; exact read_copyWords_page hk
    · rw [advance_mem]; exact read_copyWords_other ha
  case dropped =>
    subst h0
    rw [loadPage_rom_ignore hignore, bind_ok] at hexec
    exact completes_of_goOn hexec rfl rfl (Frame.refl [] [] s).advance
  case refused =>
    subst h0
    rw [hexec, loadPage_rom_refuse hrefuse, bind_refuse, outcome_refuse]

/-- Settles O35: STORE copies and goes on. -/
theorem storeCopiesPageToBlock : Obligations.StoreCopiesPageToBlock := by
  intro s x y b p hm hx hy hb hp
  have hexec := exec_store_of_arguments hm hx hy hb hp
  obtain ⟨hregs, hmem, -, hhidden, hconsole⟩ := (Frame.refl [] [] (storePage b p s)).advance
  refine completes_of_goOn hexec rfl rfl ⟨fun k hk => ?_, fun a ha => ?_, hregs, hmem, hhidden, hconsole⟩
  · rw [advance_disk]; exact read_copyWords_page hk
  · rw [advance_disk]; exact read_copyWords_other ha

end Sys2Proof.Machine
end

section
/-! PROOFS. Boot: the two instructions of the ROM code, from any state the spec allows after reset
(70_reset_and_hazards.md R241, R242). -/

namespace Sys2Proof.Machine

/-- In kernel mode a running machine's step is the instruction whose words are at IP. -/
theorem step_kernel_of_decoded {s : State} {i : Instr} {a : Nat} (hrun : s.status = .running) (hm : s.mode = .kernel)
    (hip : s.ip = a) (ha : a ≤ 32766) (hdec : decodeWords (s.mem.read a) (s.mem.read (a + 1)) = some i) :
    step s = exec i s := by
  have hfetch := fetchReadsTwoWords.1 s a hm hip ha
  have hdue : timerDue s = false := by simp [timerDue, hm]
  rw [step, stepWith_of_not_due hrun hdue, fetchExecute_of_decoded hfetch hdec, hm, countStep]

theorem decode_rom_load : decodeWords (Word.lit "LOAD 1, 0") (Word.lit "") = some (.load (.lit 1) (.lit 0)) := by decide

theorem decode_rom_jmp : decodeWords (Word.lit "JMP 512") (Word.lit "") = some (.jmp 512) := by decide

/-- Settles O56: the first step is LOAD's, which leaves the ROM page, and the second JMP's. -/
theorem bootLoadsBlockZero : Obligations.BootLoadsBlockZero := by
  intro s hreset hdef2 hdef512
  obtain ⟨hm, hip, hrun, -, -, hrom0, hrom1, hrom2, hrom3⟩ := hreset
  have hload := (loadCopiesBlockToPage s (.lit 1) (.lit 0) 1 0 hm rfl rfl (by decide) (by decide)).1 (.inl (by decide))
  rw [Completes, hip] at hload
  obtain ⟨s1, hexec1, hip1, hpage, hother, hregs, hdisk, ⟨hmode, hstatus, htimer, hcfg, hdebug⟩, hout, hin⟩ :=
    hload.1 (hasText_of_defined hdef2)
  have hstep1 : step s = .next s1 := by
    rw [step_kernel_of_decoded hrun hm hip (by decide) (by rw [hrom0, hrom1]; exact decode_rom_load), hexec1]
  obtain ⟨t, hexec2, hip2, hregs2, hmem2, hdisk2, ⟨hmode2, hstatus2, htimer2, hcfg2, hdebug2⟩, hout2, hin2⟩ :=
    (jmpGoesToTarget s1 512).1 (hasText_of_defined (hcfg.symm ▸ hdef512))
  have hstep2 : step s1 = .next t := by
    rw [step_kernel_of_decoded (a := 2) (hstatus.trans hrun) (hmode.trans hm) (hip1 hdef2) (by decide)
      (by rw [hother 2 (by decide), hother 3 (by decide), hrom2, hrom3]; exact decode_rom_jmp), hexec2]
  refine ⟨s1, t, hstep1, hstep2, hip2 (hcfg.symm ▸ hdef512), fun k hk => ?page, fun a ha => ?other,
    fun r hne hr => (hregs2 r hne hr).trans (hregs r hne hr), fun a => (hdisk2 a).trans (hdisk a),
    ⟨hmode2.trans hmode, hstatus2.trans hstatus, htimer2.trans htimer, hcfg2.trans hcfg, hdebug2.trans hdebug⟩,
    hout2.trans hout, hin2.trans hin⟩
  case page => simpa using (hmem2 (512 + k) (List.not_mem_nil)).trans (hpage k hk)
  case other => exact (hmem2 a (List.not_mem_nil)).trans (hother a ha)

end Sys2Proof.Machine
end
